-- ==== Sys2Proof/Word.lean ====
section
/-! DEFINITION. The word types of the block: bytes, 16-bit words and 32-bit registers (00_scope.md R10). -/

namespace Sys2Proof

/-- A byte of buffer memory (20_memory.md R70). -/
abbrev Byte := BitVec 8

/-- A 16-bit word, as FENCE transforms it (42_fence.md R163). -/
abbrev Half := BitVec 16

/-- A 32-bit register or command word (00_scope.md R10). -/
abbrev Word := BitVec 32

end Sys2Proof
end

