-- ==== Sys2Proof/Syntax.lean ====
section
/-! DEFINITION. The instructions of the block: the ten commands of format C and the seven Glaze operations of
format G (30_encoding.md R100, R102, R109). -/

namespace Sys2Proof

/-- The direction flag `DIR` of BITPERM and FENCE (30_encoding.md R103). -/
inductive Direction where
  /-- `DIR` = 0. -/
  | scramble
  /-- `DIR` = 1. -/
  | descramble
  deriving DecidableEq, Repr

/-- One constructor per row of the opcode table. A command takes its operands from registers (30_encoding.md R105), so it
carries its flags only; a Glaze operation carries the bytecodes that follow its opcode in the bitstream
(30_encoding.md R109), while dictionary and length-table bytes are data it reads when it runs. -/
inductive Instr where
  /-- `NOP` (40_lcg.md R120). -/
  | nop
  /-- `LCG_NEXT15` (40_lcg.md R124). -/
  | lcgNext15
  /-- `LCG_NEXT16` (40_lcg.md R125). -/
  | lcgNext16
  /-- `BITPERM` with its `DIR` flag (41_bitperm.md R146). -/
  | bitperm (dir : Direction)
  /-- `FENCE` with its `DIR` and `XF` flags (42_fence.md R164). -/
  | fence (dir : Direction) (xf : Bool)
  /-- `ROTXOR` (43_rotxor.md R185). -/
  | rotxor
  /-- `CSUM` (44_checksum.md R201). -/
  | csum
  /-- `ADLER32` (44_checksum.md R203). -/
  | adler32
  /-- `CHECK` with its `C_SUM`, `C_XOR` and `C_ADL` flags (44_checksum.md R205). -/
  | check (cSum cXor cAdl : Bool)
  /-- `UNGLAZE` (45_glaze.md R251). -/
  | unglaze
  /-- `LIT`: one dictionary byte (45_glaze.md R243). -/
  | lit
  /-- `REF1`: one byte at distance `d` (45_glaze.md R244). -/
  | ref1 (d : Nat)
  /-- `REF`: `l + 1` bytes at distance `d + l` (45_glaze.md R245). -/
  | ref (d l : Nat)
  /-- `REFD`: `l + 1` bytes, the distance byte from the dictionary (45_glaze.md R247). -/
  | refd (l : Nat)
  /-- `REFW`: `l + 1` bytes, the distance's high byte `dh` from the bitstream (45_glaze.md R248). -/
  | refw (l dh : Nat)
  /-- `LITS`: `l + 8` dictionary bytes (45_glaze.md R249). -/
  | lits (l : Nat)
  /-- `LITL`: dictionary bytes, their count from the length table (45_glaze.md R252). -/
  | litl
  deriving DecidableEq, Repr

end Sys2Proof
end

