-- ==== Sys2Proof/WellFormed.lean ====
section
/-! DEFINITION. Which instruction terms an encoding exists for. -/

namespace Sys2Proof

/-- A bytecode is a byte value 0 to 255 (30_encoding.md R108, 45_glaze.md R237). -/
def isBytecode (v : Nat) : Bool := v < 256

/-- A command is well formed as it stands; a Glaze operation is well formed when each of its bitstream operands is a
bytecode. -/
def Instr.wellFormed : Instr → Bool
  | .nop => true
  | .lcgNext15 => true
  | .lcgNext16 => true
  | .bitperm _ => true
  | .fence _ _ => true
  | .rotxor => true
  | .csum => true
  | .adler32 => true
  | .check _ _ _ => true
  | .unglaze => true
  | .lit => true
  | .ref1 d => isBytecode d
  | .ref d l => isBytecode d && isBytecode l
  | .refd l => isBytecode l
  | .refw l dh => isBytecode l && isBytecode dh
  | .lits l => isBytecode l
  | .litl => true

end Sys2Proof
end

