-- ==== Sys2Proof/Decode.lean ====
section
/-! DEFINITION. Decoding the two encodings of 30_encoding.md, total and rejecting by name, and the encoder. -/

namespace Sys2Proof

/-- Why bits do not decode. Every reason is a command error the block reports. -/
inductive Reject where
  /-- Bits 31:16 of a command word are not zero (30_encoding.md R104): `ERR_CMD`. -/
  | reservedBits
  /-- `OP` is not in the table of 30_encoding.md R102: `ERR_CMD`. -/
  | unassignedOp
  /-- A flag the command does not define is set (30_encoding.md R103): `ERR_CMD`. -/
  | flagNotAllowed
  /-- The bitstream ends inside a bytecode (45_glaze.md R235): `ERR_GLZ_OVF`. -/
  | bitstreamEnd
  /-- The opcode bytecode is 0x00 or 0x08 to 0xFF (30_encoding.md R110): `ERR_GLZ_OP`. -/
  | reservedOpcode
  deriving DecidableEq, Repr

/-! ## Format C: the command word -/

/-- `DIR` is flag bit 0 (30_encoding.md R103). -/
def directionOf (flags : Byte) : Direction := if flags.getLsbD 0 then .descramble else .scramble

/-- The opcode map of 30_encoding.md R102 with `ALLOWED_FLAGS` of R104: for an assigned `OP`, the flag bits it allows and
the instruction its flags give. -/
def commandRow (op : Byte) : Option (Byte × (Byte → Instr)) :=
  if op = 0x00 then some (0x00, fun _ => .nop)
  else if op = 0x01 then some (0x00, fun _ => .lcgNext15)
  else if op = 0x02 then some (0x00, fun _ => .lcgNext16)
  else if op = 0x10 then some (0x01, fun f => .bitperm (directionOf f))
  else if op = 0x11 then some (0x03, fun f => .fence (directionOf f) (f.getLsbD 1))
  else if op = 0x12 then some (0x00, fun _ => .rotxor)
  else if op = 0x20 then some (0x00, fun _ => .csum)
  else if op = 0x21 then some (0x00, fun _ => .adler32)
  else if op = 0x22 then some (0x07, fun f => .check (f.getLsbD 0) (f.getLsbD 1) (f.getLsbD 2))
  else if op = 0x30 then some (0x00, fun _ => .unglaze)
  else none

/-- Decoding an accepted command word, in the order of 30_encoding.md R104. -/
def decodeCommand (v : Word) : Except Reject Instr :=
  let op : Byte := v.extractLsb' 0 8
  let f : Byte := v.extractLsb' 8 8
  if v.extractLsb' 16 16 ≠ (0 : Half) then .error .reservedBits
  else
    match commandRow op with
    | none => .error .unassignedOp
    | some (allowed, build) => if f &&& ~~~allowed ≠ 0 then .error .flagNotAllowed else .ok (build f)

/-! ## Format G: the Glaze bytecode -/

/-- Counts the leading zero bits of a bytecode's code, starting from `zeros` already read, and takes the terminating 1;
eight zeros end the code without one (45_glaze.md R236). `none` when the bits run out. -/
def codePrefix : Nat → List Bool → Option (Nat × List Bool)
  | _, [] => none
  | zeros, true :: bits => some (zeros, bits)
  | zeros, false :: bits => if zeros + 1 = 8 then some (8, bits) else codePrefix (zeros + 1) bits

/-- Appends the next `n` bits to the value `v`, first bit most significant (45_glaze.md R236). -/
def codeTail : Nat → Nat → List Bool → Option (Nat × List Bool)
  | 0, v, bits => some (v, bits)
  | _ + 1, _, [] => none
  | n + 1, v, b :: bits => codeTail n (2 * v + b.toNat) bits

/-- `getbc()` of 45_glaze.md R236 over a list of bits: the bytecode and the bits after it. -/
def getBytecode (bits : List Bool) : Option (Nat × List Bool) :=
  match codePrefix 0 bits with
  | none => none
  | some (zeros, rest) => if zeros = 8 then some (0, rest) else codeTail zeros 1 rest

/-- One bitstream operand, given to the rest of the operation's decoding (45_glaze.md R242: operands in order). -/
def withBytecode (bits : List Bool) (k : Nat → List Bool → Except Reject (Instr × List Bool)) :
    Except Reject (Instr × List Bool) :=
  match getBytecode bits with
  | none => .error .bitstreamEnd
  | some (v, rest) => k v rest

/-- Decoding one Glaze operation: its opcode (45_glaze.md R241, R253), then its bitstream operands in the order of
30_encoding.md R109. Answers the operation and the bits after it. -/
def decodeGlaze (bits : List Bool) : Except Reject (Instr × List Bool) :=
  withBytecode bits fun op rest =>
    match op with
    | 1 => .ok (.lit, rest)
    | 2 => withBytecode rest fun d rest => .ok (.ref1 d, rest)
    | 3 => withBytecode rest fun d rest => withBytecode rest fun l rest => .ok (.ref d l, rest)
    | 4 => withBytecode rest fun l rest => .ok (.refd l, rest)
    | 5 => withBytecode rest fun l rest => withBytecode rest fun dh rest => .ok (.refw l dh, rest)
    | 6 => withBytecode rest fun l rest => .ok (.lits l, rest)
    | 7 => .ok (.litl, rest)
    | _ => .error .reservedOpcode

/-! ## The encoder -/

/-- An instruction's encoding: a command word, or the bits of a Glaze operation, first bit read first. -/
inductive Encoding where
  | command (w : Word)
  | bits (bs : List Bool)
  deriving DecidableEq, Repr

/-- The format C word of `OP` and `FLAGS` (30_encoding.md R101). -/
def commandWord (op flags : Byte) : Word := (0 : Half) ++ flags ++ op

/-- The `DIR` flag in flag bit 0. -/
def directionFlag : Direction → Byte
  | .scramble => 0x00
  | .descramble => 0x01

/-- A flag in flag bit `k`. -/
def flagBit (k : Nat) (b : Bool) : Byte := if b then 1#8 <<< k else 0

/-- The low `n` bits of `v`, most significant first. -/
def bitsMsbFirst (n v : Nat) : List Bool := (List.range n).reverse.map v.testBit

/-- The code of a bytecode (30_encoding.md R108): eight zeros for 0, else as many zeros as `v` has bits after its leading
1, and then `v` from that 1 on. -/
def bytecodeCode (v : Nat) : List Bool :=
  if v = 0 then List.replicate 8 false else List.replicate v.log2 false ++ bitsMsbFirst (v.log2 + 1) v

/-- The encoding of an instruction: the words of 30_encoding.md R111 and the codes of R108 and R109. -/
def encode : Instr → Encoding
  | .nop => .command (commandWord 0x00 0)
  | .lcgNext15 => .command (commandWord 0x01 0)
  | .lcgNext16 => .command (commandWord 0x02 0)
  | .bitperm dir => .command (commandWord 0x10 (directionFlag dir))
  | .fence dir xf => .command (commandWord 0x11 (directionFlag dir ||| flagBit 1 xf))
  | .rotxor => .command (commandWord 0x12 0)
  | .csum => .command (commandWord 0x20 0)
  | .adler32 => .command (commandWord 0x21 0)
  | .check cSum cXor cAdl => .command (commandWord 0x22 (flagBit 0 cSum ||| flagBit 1 cXor ||| flagBit 2 cAdl))
  | .unglaze => .command (commandWord 0x30 0)
  | .lit => .bits (bytecodeCode 1)
  | .ref1 d => .bits (bytecodeCode 2 ++ bytecodeCode d)
  | .ref d l => .bits (bytecodeCode 3 ++ bytecodeCode d ++ bytecodeCode l)
  | .refd l => .bits (bytecodeCode 4 ++ bytecodeCode l)
  | .refw l dh => .bits (bytecodeCode 5 ++ bytecodeCode l ++ bytecodeCode dh)
  | .lits l => .bits (bytecodeCode 6 ++ bytecodeCode l)
  | .litl => .bits (bytecodeCode 7)

/-- The longest Glaze operation's code: three bytecodes of 15 bits (30_encoding.md R108, R109). -/
def maxGlazeBits : Nat := 45

/-! ## The opcode table's words -/

/-- The bits of a Glaze operation whose opcode bytecode is `w` and whose further bits are zero, up to the longest
operation and whole bytes (log 14). -/
def glazeTableBits (w : Nat) : List Bool :=
  (bytecodeCode (w % 256) ++ List.replicate 48 false).take 48

/-- The instruction decoded from the opcode table's word `w` of `nbits` bits. A row of 32 bits is a command word. A
shorter row is a format G opcode, whose pattern of bits read as one number is its bytecode value (log 14). -/
def decodeTableWord (nbits w : Nat) : Option Instr :=
  if 32 ≤ nbits then (decodeCommand (BitVec.ofNat 32 w)).toOption
  else (decodeGlaze (glazeTableBits w)).toOption.map Prod.fst

end Sys2Proof
end

