-- ==== Sys2Proof/Config.lean ====
section
/-! DEFINITION. What an implementation of the block fixes (the OPEN parameters of 00_scope.md R11) and the values the
spec leaves unspecified (93_implementation_defined.md). -/

namespace Sys2Proof

/-- The OPEN parameters of 00_scope.md R11. The fields admit exactly the ranges the rule gives (log 1). -/
structure Params where
  /-- `BUF_SIZE` − 1, so that `BUF_SIZE` is any of 1..2^32. -/
  bufLast : Word
  /-- `BP_MAX_CHUNK` = 0x100 · 2^k, a power of two in 0x100..0x1000. -/
  chunkScale : Fin 5
  /-- `LCG_INC_RESET`, any 32-bit value. -/
  lcgIncReset : Word
  deriving DecidableEq, Repr

/-- `BUF_SIZE`, the size in bytes of buffer memory (00_scope.md R11). -/
def Params.bufSize (p : Params) : Nat := p.bufLast.toNat + 1

/-- `BP_MAX_CHUNK`, the largest legal `CHUNK` (00_scope.md R11). -/
def Params.bpMaxChunk (p : Params) : Nat := 0x100 * 2 ^ p.chunkScale.val

namespace Config

/-- OPEN: the implementation's `BUF_SIZE` − 1 (U1). -/
opaque bufLast : Word

/-- OPEN: the implementation's `BP_MAX_CHUNK`, as the exponent over 0x100 (U2). -/
opaque chunkScale : Fin 5

/-- OPEN: the implementation's `LCG_INC_RESET` (U3). -/
opaque lcgIncReset : Word

/-- The parameters of the implementation at hand: nothing is known of them but their ranges (log 1). -/
def implementation : Params where
  bufLast := bufLast
  chunkScale := chunkScale
  lcgIncReset := lcgIncReset

/-- The `n`th unspecified byte (U6, U7, U8, U9): any value (log 6). -/
opaque freeByte : Nat → Byte

/-- The `n`th unspecified 32-bit value (U5, U7): any value (log 6). -/
opaque freeWord : Nat → Word

end Config

end Sys2Proof
end

