-- ==== Sys2Proof/Machine/State.lean ====
section
/-! DEFINITION. The state of the block: its registers (10_state.md), buffer memory (20_memory.md), UNGLAZE's cursors, and
the model's own fields, among them the agenda that says which agent moves next. Plain data throughout. -/

namespace Sys2Proof.Machine

/-! ## Registers -/

/-- The fields of `STATUS` (10_state.md R25). Bits 7:5 and 31:16 are RAZ/WI and have no storage. -/
structure Status where
  /-- Bit 0, `BUSY`: a command is executing. -/
  busy : Bool
  /-- Bit 1, `DONE`: the last command completed, successfully or not. -/
  done : Bool
  /-- Bit 2, `ERR`: the last command ended in an error. -/
  err : Bool
  /-- Bit 3, `CMD_OVR`: a `CMD` write was discarded while busy. -/
  cmdOvr : Bool
  /-- Bit 4, `WR_BUSY`: another register write was discarded while busy. -/
  wrBusy : Bool
  /-- Bits 15:8, `ERRCODE`. -/
  errCode : Byte
  deriving DecidableEq, Repr

/-- The fields of `CTRL` (10_state.md R23). Bits 31:10 are RAZ/WI and have no storage. -/
structure Ctrl where
  /-- Bit 0: big-endian words. -/
  endian : Bool
  /-- Bit 1: completion interrupt enabled. -/
  ieDone : Bool
  /-- Bit 2: error interrupt enabled. -/
  ieErr : Bool
  /-- Bit 3: `next15()` returns accumulator bits 30:16. -/
  n15sel : Bool
  /-- Bit 4: BITPERM draws with `next16()`. -/
  bpD16 : Bool
  /-- Bit 5: BITPERM's pool removal keeps order. -/
  bpShift : Bool
  /-- Bit 6: BITPERM swaps a sliding window of neighbours. -/
  bpSlide : Bool
  /-- Bit 7: FENCE with `XF` draws its second value for every word. -/
  fxYall : Bool
  /-- Bit 8: ROTXOR's key is draw bits 15:8. -/
  rotHi : Bool
  /-- Bit 9: the Glaze bitstream is read least-significant bit first. -/
  glzLsbf : Bool
  deriving DecidableEq, Repr

/-- The register map of 10_state.md R21, `ID` apart, which is hard-wired (R22). -/
structure Regs where
  ctrl : Ctrl
  status : Status
  /-- The last accepted command word (R29). -/
  cmd : Word
  errInfo : Word
  lcgMul : Word
  lcgAcc : Word
  lcgInc : Word
  lcgOut : Word
  addr : Word
  len : Word
  dst : Word
  dstCap : Word
  chunk : Word
  /-- `FENCE[15:0]`; bits 31:16 are RAZ/WI (R34). -/
  fence : Half
  rotSeed0 : Word
  rotSeed1 : Word
  rotSeed2 : Word
  rotLen0 : Word
  rotLen1 : Word
  rotLen2 : Word
  rotWork0 : Word
  rotWork1 : Word
  rotWork2 : Word
  /-- `ROT_STATE[1:0]`; bits 31:2 read 0 (R37). -/
  rotState : BitVec 2
  rotCount : Word
  rotFudge : Word
  csumSum : Word
  csumXor : Word
  adler : Word
  expSum : Word
  expXor : Word
  expAdler : Word
  glzOutLen : Word
  glzPos : Word
  deriving DecidableEq, Repr

/-- `STATUS` after reset (70_reset_and_hazards.md R320). -/
def Status.reset : Status where
  busy := false
  done := false
  err := false
  cmdOvr := false
  wrBusy := false
  errCode := 0

/-- `CTRL` after reset (70_reset_and_hazards.md R320). -/
def Ctrl.reset : Ctrl where
  endian := false
  ieDone := false
  ieErr := false
  n15sel := false
  bpD16 := false
  bpShift := false
  bpSlide := false
  fxYall := false
  rotHi := false
  glzLsbf := false

/-- The registers after reset (10_state.md R21, 70_reset_and_hazards.md R320), given `LCG_INC_RESET`. -/
def Regs.reset (lcgIncReset : Word) : Regs where
  ctrl := Ctrl.reset
  status := Status.reset
  cmd := 0
  errInfo := 0
  lcgMul := 0
  lcgAcc := 0
  lcgInc := lcgIncReset
  lcgOut := 0
  addr := 0
  len := 0
  dst := 0
  dstCap := 0
  chunk := 0
  fence := 0
  rotSeed0 := 0
  rotSeed1 := 0
  rotSeed2 := 0
  rotLen0 := 0
  rotLen1 := 0
  rotLen2 := 0
  rotWork0 := 0
  rotWork1 := 0
  rotWork2 := 0
  rotState := 0
  rotCount := 0
  rotFudge := 0
  csumSum := 0
  csumXor := 0
  adler := 0x00000001
  expSum := 0
  expXor := 0
  expAdler := 0
  glzOutLen := 0
  glzPos := 0

/-! ## Buffer memory -/

/-- Buffer memory (20_memory.md R70): the bytes that differ from what an unlisted address reads as, by strictly rising
address. -/
abbrev Memory := List Host.Cell

/-- What a byte that is not listed reads as. DESIGN CHOICE (log 3, unsafe): the spec gives no power-on contents
(70_reset_and_hazards.md R321). -/
def unlistedByte : Byte := 0

/-! ## The engine inside UNGLAZE -/

/-- UNGLAZE's cursors (10_state.md R43, 45_glaze.md R234 to R241). Offsets are relative to `ADDR`. -/
structure GlazeDecode where
  /-- The declared decompressed length `outlen`. -/
  outLen : Nat
  /-- The bit cursor and the end of the bitstream region, in bits (R235). -/
  bitPos : Nat
  bitEnd : Nat
  /-- The dictionary cursor `dc` and `d_end` (R238). -/
  dictPos : Nat
  dictEnd : Nat
  /-- The length-table cursor `lc` and `l_end` (R238). -/
  ltPos : Nat
  ltEnd : Nat
  /-- Output bytes written so far (R240). -/
  pos : Nat
  deriving DecidableEq, Repr

/-! ## The host -/

/-- What the host or the platform can do to the block (00_scope.md R7, 10_state.md R46 to R48, 20_memory.md R89,
70_reset_and_hazards.md R320, R321). Register accesses carry their width in bytes, since only 4 has a meaning (R48). -/
inductive HostOp where
  | writeReg (bytes : Nat) (offset : BitVec 12) (value : Word)
  | readReg (bytes : Nat) (offset : BitVec 12)
  | writeByte (addr : Word) (value : Byte)
  | readByte (addr : Word)
  /-- The reset input, with power held. -/
  | reset
  /-- Power removed and applied again. -/
  | powerOn
  deriving DecidableEq, Repr

/-- Whose move a step is (log 7). -/
inductive Turn where
  | host (op : HostOp)
  | engine
  deriving DecidableEq, Repr

/-! ## The whole state -/

/-- The state of the block. -/
structure State where
  /-- The implementation's OPEN parameters; no step changes them (00_scope.md R11, log 1). -/
  impl : Params
  regs : Regs
  mem : Memory
  /-- UNGLAZE's cursors while a Glaze stream is being decoded (10_state.md R43). -/
  glaze : Option GlazeDecode
  /-- MODEL's own: a host write hit the running command's regions (70_reset_and_hazards.md R331, log 11). -/
  spoiled : Bool
  /-- MODEL's own: the index of the next unspecified value (log 6). -/
  freeCount : Nat
  /-- MODEL's own: the value the last host read returned (log 15). -/
  readData : Word
  /-- MODEL's own: the turns still to come, first next; when empty the engine moves (log 7). -/
  agenda : List Turn
  deriving DecidableEq, Repr

/-- The block right after reset (70_reset_and_hazards.md R320, R323): idle, registers at their reset values, nothing
listed in memory, nothing on the agenda. -/
def State.reset : State where
  impl := Config.implementation
  regs := Regs.reset Config.lcgIncReset
  mem := []
  glaze := none
  spoiled := false
  freeCount := 0
  readData := 0
  agenda := []

/-- Why the machine stops at something the spec gives no meaning. The spec's own errors are next states
(60_exceptions.md R280). -/
inductive Fault where
  /-- Raised by a Glaze operation's meaning when no UNGLAZE is decoding, and by the decode loop's dispatch for a command.
  Safe: the spec runs format G only inside UNGLAZE (30_encoding.md R100), and no step reaches it (log 10). -/
  | noGlazeStream
  deriving DecidableEq, Repr

/-- Why the machine refuses a step. -/
inductive Refusal where
  /-- Raised by exec's arm for an instruction that has no meaning yet. Safe. -/
  | notModelled (mnemonic : String)
  /-- Raised by a host register access that is not 32 bits wide at a multiple of 4. Safe: "a model refuses it"
  (10_state.md R48, U11; log 13). -/
  | badRegisterAccess
  /-- Raised by a host byte access at or above `BUF_SIZE`. Safe: refused by 93_implementation_defined.md U12 (log 13). -/
  | outsideBuffer
  deriving DecidableEq, Repr

/-- The outcome of a step or of an instruction. -/
abbrev Outcome := Host.Outcome State Fault Refusal

/-! ## Updates by name, one per field that changes -/

def State.withRegs (s : State) (r : Regs) : State := { s with regs := r }
def State.withMem (s : State) (m : Memory) : State := { s with mem := m }
def State.withGlaze (s : State) (g : Option GlazeDecode) : State := { s with glaze := g }
def State.withSpoiled (s : State) (b : Bool) : State := { s with spoiled := b }
def State.withFreeCount (s : State) (n : Nat) : State := { s with freeCount := n }
def State.withReadData (s : State) (v : Word) : State := { s with readData := v }
def State.withAgenda (s : State) (a : List Turn) : State := { s with agenda := a }

end Sys2Proof.Machine
end

