-- ==== Sys2Proof/Machine/Flags.lean ====
section
/-! DEFINITION. The status flags of the block (10_state.md R49: the fields of `STATUS` and no others), the mode bits of
`CTRL`, and the interrupt level. -/

namespace Sys2Proof.Machine

/-! ## Error codes -/

/-- The error codes of 60_exceptions.md R285. -/
inductive ErrorCode where
  | cmd
  | cfg
  | len
  | mem
  | overlap
  | csum
  | glzSize
  | glzOvf
  | glzOp
  | glzDist
  deriving DecidableEq, Repr

/-- The number of an error code in `STATUS.ERRCODE` (60_exceptions.md R285). -/
def errorNumber : ErrorCode → Byte
  | .cmd => 1
  | .cfg => 2
  | .len => 3
  | .mem => 4
  | .overlap => 5
  | .csum => 6
  | .glzSize => 7
  | .glzOvf => 8
  | .glzOp => 9
  | .glzDist => 10

/-! ## STATUS -/

/-- `STATUS` as the host reads it (10_state.md R25). -/
def statusWord (t : Status) : Word :=
  0#16 ++ t.errCode ++ 0#3 ++ BitVec.ofBool t.wrBusy ++ BitVec.ofBool t.cmdOvr ++ BitVec.ofBool t.err
    ++ BitVec.ofBool t.done ++ BitVec.ofBool t.busy

/-- A host write of `v` to `STATUS` (10_state.md R26): write-1-to-clear, `ERRCODE` cleared with `ERR`. -/
def statusClear (v : Word) (t : Status) : Status :=
  { t with
    done := t.done && !v.getLsbD 1
    err := t.err && !v.getLsbD 2
    errCode := if v.getLsbD 2 then 0 else t.errCode
    cmdOvr := t.cmdOvr && !v.getLsbD 3
    wrBusy := t.wrBusy && !v.getLsbD 4 }

/-- The start of a command (60_exceptions.md R281, R283). -/
def statusStart (t : Status) : Status :=
  { t with busy := true, done := false, err := false, errCode := 0 }

/-- The successful completion of a command (60_exceptions.md R282). -/
def statusComplete (t : Status) : Status :=
  { t with busy := false, done := true }

/-- The end of a command in an error (60_exceptions.md R284). -/
def statusError (code : ErrorCode) (t : Status) : Status :=
  { t with busy := false, done := true, err := true, errCode := errorNumber code }

/-! ## CTRL -/

/-- `CTRL` as the host reads it (10_state.md R23). -/
def ctrlWord (c : Ctrl) : Word :=
  0#22 ++ BitVec.ofBool c.glzLsbf ++ BitVec.ofBool c.rotHi ++ BitVec.ofBool c.fxYall ++ BitVec.ofBool c.bpSlide
    ++ BitVec.ofBool c.bpShift ++ BitVec.ofBool c.bpD16 ++ BitVec.ofBool c.n15sel ++ BitVec.ofBool c.ieErr
    ++ BitVec.ofBool c.ieDone ++ BitVec.ofBool c.endian

/-- `CTRL` after a host write of `v`: bits 9:0 are stored (10_state.md R46). -/
def ctrlOfWord (v : Word) : Ctrl where
  endian := v.getLsbD 0
  ieDone := v.getLsbD 1
  ieErr := v.getLsbD 2
  n15sel := v.getLsbD 3
  bpD16 := v.getLsbD 4
  bpShift := v.getLsbD 5
  bpSlide := v.getLsbD 6
  fxYall := v.getLsbD 7
  rotHi := v.getLsbD 8
  glzLsbf := v.getLsbD 9

/-! ## The interrupt -/

/-- The level of `IRQ` (60_exceptions.md R290). -/
def irq (r : Regs) : Bool := (r.status.done && r.ctrl.ieDone) || (r.status.err && r.ctrl.ieErr)

end Sys2Proof.Machine
end

