-- ==== Sys2Proof/Machine/Ops.lean ====
section
/-! DEFINITION. The operations the meanings share: buffer memory, the generator, completing a command, raising an error
and returning from one, and unspecified values. -/

namespace Sys2Proof.Machine

/-! ## Buffer memory, a byte at a time (20_memory.md R78) -/

/-- `MemRead(a, 1)` (00_scope.md R15). -/
def Memory.read : Memory → Nat → Byte
  | [], _ => unlistedByte
  | (b, v) :: rest, a => if b = a then v else Memory.read rest a

/-- `MemWrite(a, 1, v)` (00_scope.md R15), in the canonical form: writing what an unlisted address reads as takes the
entry out. -/
def Memory.write : Memory → Nat → Byte → Memory
  | [], a, v => if v = unlistedByte then [] else [(a, v)]
  | (b, w) :: rest, a, v =>
    if a < b then if v = unlistedByte then (b, w) :: rest else (a, v) :: (b, w) :: rest
    else if a = b then if v = unlistedByte then rest else (a, v) :: rest
    else (b, w) :: Memory.write rest a v

/-- The canonical form: addresses strictly rising, and no entry equal to what an unlisted address reads as. -/
abbrev Memory.wf (m : Memory) : Prop :=
  m.Pairwise (fun c d => c.1 < d.1) ∧ ∀ c ∈ m, c.2 ≠ unlistedByte

/-- Every listed address is below `size`: nothing stands outside the buffer memory (20_memory.md R70). -/
abbrev Memory.below (m : Memory) (size : Nat) : Prop := ∀ c ∈ m, c.1 < size

/-- The bytes `vs` written one after another from address `a` up. -/
def Memory.writeBytes : Memory → Nat → List Byte → Memory
  | m, _, [] => m
  | m, a, v :: vs => Memory.writeBytes (m.write a v) (a + 1) vs

/-- The `n` bytes from address `a` up. -/
def Memory.readBytes (m : Memory) (a n : Nat) : List Byte := (List.range n).map fun k => m.read (a + k)

/-- The `k`th bit of a byte set to `b`. -/
def putBit (x : Byte) (k : Nat) (b : Bool) : Byte :=
  if b then x ||| (1#8 <<< k) else x &&& ~~~(1#8 <<< k)

/-! ## The generator (40_lcg.md) -/

/-- One LCG step: `acc <- (mul * acc + inc) mod 2^32` (40_lcg.md R121). -/
def lcgStep (mul inc acc : Word) : Word := mul * acc + inc

/-- The accumulator after `n` LCG steps (40_lcg.md R121). -/
def lcgAfter (mul inc : Word) : Nat → Word → Word
  | 0, acc => acc
  | n + 1, acc => lcgAfter mul inc n (lcgStep mul inc acc)

/-- What `next15()` returns from the accumulator it has updated (40_lcg.md R122). -/
def draw15 (n15sel : Bool) (acc : Word) : BitVec 15 :=
  if n15sel then acc.extractLsb' 16 15 else acc.extractLsb' 17 15

/-- What `next16()` returns from the accumulator it has updated (40_lcg.md R123). -/
def draw16 (acc : Word) : Half := acc.extractLsb' 16 16

/-! ## Starting and ending a command (60_exceptions.md) -/

/-- Accepting the command word `v` (10_state.md R29, 60_exceptions.md R281). The operand registers are latched by
standing still: no register a command reads can change until it ends (10_state.md R46, log 8). -/
def acceptCommand (v : Word) (s : State) : State :=
  { s with regs := { s.regs with cmd := v, status := statusStart s.regs.status } }

/-- The command completes successfully (60_exceptions.md R282); its internal state ends with it (10_state.md R43). -/
def completeCommand (s : State) : State :=
  { s with regs := { s.regs with status := statusComplete s.regs.status }, glaze := none }

/-- `raise Error(code, info)` (60_exceptions.md R284): taking the block's only kind of exception. What the command has
written to memory stays; its internal state ends with it (10_state.md R43). -/
def raiseError (code : ErrorCode) (info : Word) (s : State) : State :=
  { s with
    regs := { s.regs with errInfo := info, status := statusError code s.regs.status }
    glaze := none }

/-- The return from an error (60_exceptions.md R294): the host's `STATUS` write of `v` (10_state.md R26). Nothing is
restored, because nothing was saved. -/
def returnFromError (v : Word) (s : State) : State :=
  { s with regs := { s.regs with status := statusClear v s.regs.status } }

/-! ## Unspecified values (93_implementation_defined.md, "any value") -/

/-- `n` free bytes, from the `k`th on, written from address `a` up. -/
def fillFree : Nat → Nat → Nat → Memory → Memory
  | 0, _, _, m => m
  | n + 1, k, a, m => fillFree n (k + 1) (a + 1) (m.write a (Config.freeByte k))

/-- The `n` bytes from address `a` up become unspecified, those of them that buffer memory has (log 12). -/
def freeBytesAt (a n : Nat) (s : State) : State :=
  let count := min n (s.impl.bufSize - a)
  { s with mem := fillFree count s.freeCount a s.mem, freeCount := s.freeCount + count }

/-- Every byte of each region becomes unspecified (70_reset_and_hazards.md R322, R331). -/
def freeRegions : List (Word × Word) → State → State
  | [], s => s
  | (base, length) :: rest, s => freeRegions rest (freeBytesAt base.toNat length.toNat s)

end Sys2Proof.Machine
end

