-- ==== Sys2Proof/Machine/Operands.lean ====
section
/-! DEFINITION. Where a command's operands are: the registers by name and offset (10_state.md R21), the regions a command
names and their check (20_memory.md R72, R73), multi-byte values in memory (R74), and BITPERM's `CHUNK` (41_bitperm.md
R141). -/

namespace Sys2Proof.Machine

/-! ## The register map -/

/-- The registers of 10_state.md R21. -/
inductive RegName where
  | id | ctrl | status | cmd | errInfo
  | lcgMul | lcgAcc | lcgInc | lcgOut
  | addr | len | dst | dstCap | chunk | fence
  | rotSeed0 | rotSeed1 | rotSeed2 | rotLen0 | rotLen1 | rotLen2
  | rotWork0 | rotWork1 | rotWork2 | rotState | rotCount | rotFudge
  | csumSum | csumXor | adler | expSum | expXor | expAdler
  | glzOutLen | glzPos
  deriving DecidableEq, Repr

/-- The register map of 10_state.md R21, in offset order. -/
def registerMap : List (Nat × RegName) :=
  [ (0x000, .id), (0x004, .ctrl), (0x008, .status), (0x00C, .cmd), (0x010, .errInfo)
  , (0x014, .lcgMul), (0x018, .lcgAcc), (0x01C, .lcgInc), (0x020, .lcgOut)
  , (0x024, .addr), (0x028, .len), (0x02C, .dst), (0x030, .dstCap), (0x034, .chunk), (0x038, .fence)
  , (0x03C, .rotSeed0), (0x040, .rotSeed1), (0x044, .rotSeed2)
  , (0x048, .rotLen0), (0x04C, .rotLen1), (0x050, .rotLen2)
  , (0x054, .rotWork0), (0x058, .rotWork1), (0x05C, .rotWork2)
  , (0x060, .rotState), (0x064, .rotCount), (0x068, .rotFudge)
  , (0x06C, .csumSum), (0x070, .csumXor), (0x074, .adler)
  , (0x078, .expSum), (0x07C, .expXor), (0x080, .expAdler)
  , (0x084, .glzOutLen), (0x088, .glzPos) ]

/-- The register at an offset; `none` at a reserved offset (10_state.md R42). -/
def registerAt (offset : BitVec 12) : Option RegName :=
  (registerMap.find? fun row => row.1 = offset.toNat).map Prod.snd

/-- The registers a host write never changes (10_state.md R21, R46; 93_implementation_defined.md U14). -/
def readOnly : RegName → Bool
  | .id | .errInfo | .lcgOut | .rotWork0 | .rotWork1 | .rotWork2 | .rotState | .rotCount | .rotFudge
  | .glzOutLen | .glzPos => true
  | _ => false

/-- The registers a host reads normally while `BUSY` = 1 (10_state.md R47). -/
def readableWhileBusy : RegName → Bool
  | .id | .ctrl | .status | .cmd => true
  | _ => false

/-- `reg[NAME]` as the host reads it (00_scope.md R14); `ID` is hard-wired (10_state.md R22), and reserved bits read 0. -/
def readRegister (r : Regs) : RegName → Word
  | .id => 0x47555354
  | .ctrl => ctrlWord r.ctrl
  | .status => statusWord r.status
  | .cmd => r.cmd
  | .errInfo => r.errInfo
  | .lcgMul => r.lcgMul
  | .lcgAcc => r.lcgAcc
  | .lcgInc => r.lcgInc
  | .lcgOut => r.lcgOut
  | .addr => r.addr
  | .len => r.len
  | .dst => r.dst
  | .dstCap => r.dstCap
  | .chunk => r.chunk
  | .fence => r.fence.setWidth 32
  | .rotSeed0 => r.rotSeed0
  | .rotSeed1 => r.rotSeed1
  | .rotSeed2 => r.rotSeed2
  | .rotLen0 => r.rotLen0
  | .rotLen1 => r.rotLen1
  | .rotLen2 => r.rotLen2
  | .rotWork0 => r.rotWork0
  | .rotWork1 => r.rotWork1
  | .rotWork2 => r.rotWork2
  | .rotState => r.rotState.setWidth 32
  | .rotCount => r.rotCount
  | .rotFudge => r.rotFudge
  | .csumSum => r.csumSum
  | .csumXor => r.csumXor
  | .adler => r.adler
  | .expSum => r.expSum
  | .expXor => r.expXor
  | .expAdler => r.expAdler
  | .glzOutLen => r.glzOutLen
  | .glzPos => r.glzPos

/-- `reg[NAME] <- v`: what the register's storage keeps of `v`. `ID` keeps nothing; `STATUS` is write-1-to-clear
(10_state.md R26); `CTRL` keeps bits 9:0, `FENCE` bits 15:0 (R46), `ROT_STATE` bits 1:0 (R37). -/
def storeRegister (r : Regs) (v : Word) : RegName → Regs
  | .id => r
  | .ctrl => { r with ctrl := ctrlOfWord v }
  | .status => { r with status := statusClear v r.status }
  | .cmd => { r with cmd := v }
  | .errInfo => { r with errInfo := v }
  | .lcgMul => { r with lcgMul := v }
  | .lcgAcc => { r with lcgAcc := v }
  | .lcgInc => { r with lcgInc := v }
  | .lcgOut => { r with lcgOut := v }
  | .addr => { r with addr := v }
  | .len => { r with len := v }
  | .dst => { r with dst := v }
  | .dstCap => { r with dstCap := v }
  | .chunk => { r with chunk := v }
  | .fence => { r with fence := v.setWidth 16 }
  | .rotSeed0 => { r with rotSeed0 := v }
  | .rotSeed1 => { r with rotSeed1 := v }
  | .rotSeed2 => { r with rotSeed2 := v }
  | .rotLen0 => { r with rotLen0 := v }
  | .rotLen1 => { r with rotLen1 := v }
  | .rotLen2 => { r with rotLen2 := v }
  | .rotWork0 => { r with rotWork0 := v }
  | .rotWork1 => { r with rotWork1 := v }
  | .rotWork2 => { r with rotWork2 := v }
  | .rotState => { r with rotState := v.setWidth 2 }
  | .rotCount => { r with rotCount := v }
  | .rotFudge => { r with rotFudge := v }
  | .csumSum => { r with csumSum := v }
  | .csumXor => { r with csumXor := v }
  | .adler => { r with adler := v }
  | .expSum => { r with expSum := v }
  | .expXor => { r with expXor := v }
  | .expAdler => { r with expAdler := v }
  | .glzOutLen => { r with glzOutLen := v }
  | .glzPos => { r with glzPos := v }

/-! ## Regions -/

/-- The region of the commands that work on one (20_memory.md R73). -/
def sourceRegion (r : Regs) : List (Word × Word) := [(r.addr, r.len)]

/-- UNGLAZE's regions, in check order (20_memory.md R73). -/
def glazeRegions (r : Regs) : List (Word × Word) := [(r.addr, r.len), (r.dst, r.dstCap)]

/-- The regions a command names, in check order (20_memory.md R73). The Glaze operations run inside UNGLAZE, on its
regions. -/
def regionsOf (i : Instr) (r : Regs) : List (Word × Word) :=
  match i with
  | .nop => []
  | .lcgNext15 => []
  | .lcgNext16 => []
  | .bitperm _ => sourceRegion r
  | .fence _ _ => sourceRegion r
  | .rotxor => sourceRegion r
  | .csum => sourceRegion r
  | .adler32 => sourceRegion r
  | .check _ _ _ => []
  | .unglaze => glazeRegions r
  | .lit => glazeRegions r
  | .ref1 _ => glazeRegions r
  | .ref _ _ => glazeRegions r
  | .refd _ => glazeRegions r
  | .refw _ _ => glazeRegions r
  | .lits _ => glazeRegions r
  | .litl => glazeRegions r

/-- The result registers of a command (10_state.md R45). -/
def resultRegisters : Instr → List RegName
  | .nop => []
  | .lcgNext15 => [.lcgAcc, .lcgOut]
  | .lcgNext16 => [.lcgAcc, .lcgOut]
  | .bitperm _ => [.lcgAcc]
  | .fence _ _ => [.lcgAcc]
  | .rotxor => [.lcgAcc, .rotWork0, .rotWork1, .rotWork2, .rotState, .rotCount, .rotFudge]
  | .csum => [.csumSum, .csumXor]
  | .adler32 => [.adler]
  | .check _ _ _ => []
  | .unglaze => [.glzOutLen, .glzPos]
  | .lit => [.glzOutLen, .glzPos]
  | .ref1 _ => [.glzOutLen, .glzPos]
  | .ref _ _ => [.glzOutLen, .glzPos]
  | .refd _ => [.glzOutLen, .glzPos]
  | .refw _ _ => [.glzOutLen, .glzPos]
  | .lits _ => [.glzOutLen, .glzPos]
  | .litl => [.glzOutLen, .glzPos]

/-- A region fits when it is empty or ends at or below `BUF_SIZE`, the sum exact (20_memory.md R72). -/
def regionFits (p : Params) (region : Word × Word) : Bool :=
  region.2 = 0 || region.1.toNat + region.2.toNat ≤ p.bufSize

/-- The check of a command's regions: the first that does not fit raises `ERR_MEM` with its base (20_memory.md R72);
otherwise the command goes on. -/
def checkRegions (regions : List (Word × Word)) (s : State) (body : Outcome) : Outcome :=
  match regions with
  | [] => body
  | region :: rest =>
    if regionFits s.impl region then checkRegions rest s body else .next (raiseError .mem region.1 s)

/-- Address `a` is a byte of one of the regions. -/
def inRegions (regions : List (Word × Word)) (a : Nat) : Bool :=
  regions.any fun region => region.1.toNat ≤ a && a < region.1.toNat + region.2.toNat

/-- The instruction in `CMD`, while one is running. -/
def runningCommand (s : State) : Option Instr :=
  if s.regs.status.busy then (decodeCommand s.regs.cmd).toOption else none

/-- The regions of the running command; none when nothing runs or its word does not decode (log 12). -/
def runningRegions (s : State) : List (Word × Word) :=
  match runningCommand s with
  | none => []
  | some i => regionsOf i s.regs

/-- Each of the registers gets an unspecified value, as much of it as the register stores. -/
def freeRegisters : List RegName → State → State
  | [], s => s
  | r :: rest, s =>
    freeRegisters rest
      { s with regs := storeRegister s.regs (Config.freeWord s.freeCount) r, freeCount := s.freeCount + 1 }

/-! ## Multi-byte values (20_memory.md R74) -/

/-- `Load16(a)`. -/
def load16 (bigEndian : Bool) (m : Memory) (a : Nat) : Half :=
  if bigEndian then m.read a ++ m.read (a + 1) else m.read (a + 1) ++ m.read a

/-- `Load32(a)`. -/
def load32 (bigEndian : Bool) (m : Memory) (a : Nat) : Word :=
  if bigEndian then m.read a ++ m.read (a + 1) ++ m.read (a + 2) ++ m.read (a + 3)
  else m.read (a + 3) ++ m.read (a + 2) ++ m.read (a + 1) ++ m.read a

/-- `Store16(a, v)`. -/
def store16 (bigEndian : Bool) (m : Memory) (a : Nat) (v : Half) : Memory :=
  let low : Byte := v.extractLsb' 0 8
  let high : Byte := v.extractLsb' 8 8
  if bigEndian then (m.write a high).write (a + 1) low else (m.write a low).write (a + 1) high

/-! ## BITPERM's chunk -/

/-- `CHUNK` is a power of two, 1 ≤ `CHUNK` ≤ `BP_MAX_CHUNK` (41_bitperm.md R141). -/
def chunkLegal (p : Params) (chunk : Word) : Bool :=
  chunk ≠ 0 && chunk &&& (chunk - 1) = 0 && chunk.toNat ≤ p.bpMaxChunk

end Sys2Proof.Machine
end

