-- ==== Sys2Proof/Machine/Bitperm.lean ====
section
/-! DEFINITION. The Fisher–Yates bit permuter, BITPERM (41_bitperm.md). -/

namespace Sys2Proof.Machine

/-- The draw of a table entry from the updated accumulator: `next15()`, or `next16()` with `BP_D16` (41_bitperm.md
R143). -/
def tableDraw (c : Ctrl) (acc : Word) : Nat :=
  if c.bpD16 then (draw16 acc).toNat else (draw15 c.n15sel acc).toNat

/-- The pool without its `j`th element: the last moved into the hole, or with `BP_SHIFT` the order kept (41_bitperm.md
R143). The list holds the pool's live part, `size` elements. -/
def removeFromPool (shift : Bool) (pool : List Nat) (j : Nat) : List Nat :=
  if shift then pool.eraseIdx j else (pool.set j (pool.getLastD 0)).dropLast

/-- The loop of 41_bitperm.md R143 from a pool of `size` elements: the table entries drawn, and the accumulator after
them. -/
def drawTable (c : Ctrl) (mul inc : Word) : (size : Nat) → (pool : List Nat) → (acc : Word) → List Nat × Word
  | 0, _, acc => ([], acc)
  | size + 1, pool, acc =>
    let acc := lcgStep mul inc acc
    let j := tableDraw c acc % (size + 1)
    let rest := drawTable c mul inc size (removeFromPool c.bpShift pool j) acc
    (pool.getD j 0 :: rest.1, rest.2)

/-- The permutation table of a slice of `n` bits (41_bitperm.md R143). -/
def permutationTable (c : Ctrl) (mul inc : Word) (n : Nat) (acc : Word) : List Nat × Word :=
  drawTable c mul inc n (List.range n) acc

/-- Consecutive disjoint pairs of a list. -/
def disjointPairs : List Nat → List (Nat × Nat)
  | p :: q :: rest => (p, q) :: disjointPairs rest
  | _ => []

/-- The pairs to swap, in scrambling order (41_bitperm.md R144). -/
def swapPairs (slide : Bool) (t : List Nat) : List (Nat × Nat) :=
  if slide then t.zip t.tail else disjointPairs t

/-- Bit `b` of the slice at `base` (41_bitperm.md R145). -/
def sliceBit (m : Memory) (base b : Nat) : Bool := (m.read (base + b / 8)).getLsbD (b % 8)

/-- Bit `b` of the slice at `base` set to `v` (41_bitperm.md R145). -/
def setSliceBit (m : Memory) (base b : Nat) (v : Bool) : Memory :=
  m.write (base + b / 8) (putBit (m.read (base + b / 8)) (b % 8) v)

/-- `SwapBit(p, q)` (41_bitperm.md R145): both bits read, then the two writes in turn. -/
def swapBit (base : Nat) (m : Memory) (pq : Nat × Nat) : Memory :=
  let vp := sliceBit m base pq.1
  let vq := sliceBit m base pq.2
  setSliceBit (setSliceBit m base pq.1 vq) base pq.2 vp

/-- The swap walk over a slice (41_bitperm.md R144): the pairs in order, or in reverse for `DIR` = 1. -/
def swapWalk (slide : Bool) (dir : Direction) (t : List Nat) (base : Nat) (m : Memory) : Memory :=
  match dir with
  | .scramble => (swapPairs slide t).foldl (swapBit base) m
  | .descramble => (swapPairs slide t).reverse.foldl (swapBit base) m

/-- `count` slices from offset `off` of the region (41_bitperm.md R142, R146): each is transformed completely before the
next, and the draws go on from slice to slice. -/
def bitpermSlices (r : Regs) (dir : Direction) : (count : Nat) → (off : Nat) → Memory → Word → Memory × Word
  | 0, _, m, acc => (m, acc)
  | count + 1, off, m, acc =>
    let size := min r.chunk.toNat (r.len.toNat - off)
    let table := permutationTable r.ctrl r.lcgMul r.lcgInc (8 * size) acc
    let m := swapWalk r.ctrl.bpSlide dir table.1 (r.addr.toNat + off) m
    bitpermSlices r dir count (off + size) m table.2

/-- The number of slices, `ceil(LEN / CHUNK)` (41_bitperm.md R142). -/
def sliceCount (r : Regs) : Nat := (r.len.toNat + r.chunk.toNat - 1) / r.chunk.toNat

/-- `BITPERM` (41_bitperm.md R146). -/
def execBitperm (dir : Direction) (s : State) : Outcome :=
  let r := s.regs
  if chunkLegal s.impl r.chunk then
    checkRegions (sourceRegion r) s
      (let result := bitpermSlices r dir (sliceCount r) 0 s.mem r.lcgAcc
       .next (completeCommand { s with mem := result.1, regs := { r with lcgAcc := result.2 } }))
  else .next (raiseError .cfg r.chunk s)

end Sys2Proof.Machine
end

