-- ==== Sys2Proof/Machine/Checksum.lean ====
section
/-! DEFINITION. The checksum validator: CSUM, ADLER32 and CHECK (44_checksum.md). -/

namespace Sys2Proof.Machine

/-- `count` words from address `a` up into the two rolling accumulators (44_checksum.md R201). -/
def csumWords (bigEndian : Bool) (m : Memory) : (count : Nat) → (a : Nat) → (sum xor : Word) → Word × Word
  | 0, _, sum, xor => (sum, xor)
  | count + 1, a, sum, xor =>
    let w := load32 bigEndian m a
    csumWords bigEndian m count (a + 4) (sum - w) (xor ^^^ ~~~w)

/-- `CSUM` (44_checksum.md R201). -/
def execCsum (s : State) : Outcome :=
  let r := s.regs
  if r.len.toNat % 4 ≠ 0 then .next (raiseError .len r.len s)
  else
    checkRegions (sourceRegion r) s
      (let result := csumWords r.ctrl.endian s.mem (r.len.toNat / 4) r.addr.toNat r.csumSum r.csumXor
       .next (completeCommand { s with regs := { r with csumSum := result.1, csumXor := result.2 } }))

/-- The modulus of Adler-32 (44_checksum.md R203). -/
def adlerModulus : Nat := 65521

/-- `count` bytes from address `at_` up into an Adler-32 state `(a, b)` (44_checksum.md R203). -/
def adlerBytes (m : Memory) : (count : Nat) → (at_ : Nat) → (a b : Nat) → Nat × Nat
  | 0, _, a, b => (a, b)
  | count + 1, at_, a, b =>
    let a := (a + (m.read at_).toNat) % adlerModulus
    adlerBytes m count (at_ + 1) a ((b + a) % adlerModulus)

/-- `ADLER32` (44_checksum.md R203). -/
def execAdler32 (s : State) : Outcome :=
  let r := s.regs
  checkRegions (sourceRegion r) s
    (let a : Half := r.adler.extractLsb' 0 16
     let b : Half := r.adler.extractLsb' 16 16
     let result := adlerBytes s.mem r.len.toNat r.addr.toNat a.toNat b.toNat
     .next (completeCommand
       { s with regs := { r with adler := BitVec.ofNat 16 result.2 ++ BitVec.ofNat 16 result.1 } }))

/-- The mask of the selected comparisons that fail (44_checksum.md R205). -/
def checkMask (cSum cXor cAdl : Bool) (r : Regs) : Word :=
  (if cSum && r.csumSum != r.expSum then 1 else 0)
    ||| (if cXor && r.csumXor != r.expXor then 2 else 0)
    ||| (if cAdl && r.adler != r.expAdler then 4 else 0)

/-- `CHECK` (44_checksum.md R205). -/
def execCheck (cSum cXor cAdl : Bool) (s : State) : Outcome :=
  let mask := checkMask cSum cXor cAdl s.regs
  if mask = 0 then .next (completeCommand s) else .next (raiseError .csum mask s)

end Sys2Proof.Machine
end

