-- ==== Sys2Proof/Machine/Fence.lean ====
section
/-! DEFINITION. The XOR-fence word scrambler, FENCE (42_fence.md). -/

namespace Sys2Proof.Machine

/-- The toggle condition `(x mod (2*F)) >= F`, with `2*F` exact (42_fence.md R163). -/
def fenceToggle (fence : Half) (x : BitVec 15) : Bool :=
  fence.toNat ≤ x.toNat % (2 * fence.toNat)

/-- One word's draws (42_fence.md R162, R163): the draw `x`, whether the word toggles, the XOR mask, and the accumulator
after them. With `XF` the second draw `y` is made for a toggled word, or for every word with `FX_YALL`. -/
def fenceDraws (r : Regs) (xf : Bool) (acc : Word) : Half × Bool × Half × Word :=
  let acc1 := lcgStep r.lcgMul r.lcgInc acc
  let x := draw15 r.ctrl.n15sel acc1
  let toggle := fenceToggle r.fence x
  if xf then
    if r.ctrl.fxYall || toggle then
      let acc2 := lcgStep r.lcgMul r.lcgInc acc1
      (x.setWidth 16, toggle, (draw15 r.ctrl.n15sel acc2).setWidth 16, acc2)
    else (x.setWidth 16, toggle, 0, acc1)
  else (x.setWidth 16, toggle, x.setWidth 16, acc1)

/-- The word's transform, given its draws (42_fence.md R163): add and then XOR to scramble, XOR and then subtract to
descramble. -/
def fenceWord (dir : Direction) (x : Half) (toggle : Bool) (mask w : Half) : Half :=
  match dir with
  | .scramble => if toggle then (w + x) ^^^ mask else w + x
  | .descramble => if toggle then (w ^^^ mask) - x else w - x

/-- `count` words from address `a` up (42_fence.md R164). -/
def fenceWords (r : Regs) (dir : Direction) (xf : Bool) : (count : Nat) → (a : Nat) → Memory → Word → Memory × Word
  | 0, _, m, acc => (m, acc)
  | count + 1, a, m, acc =>
    let draws := fenceDraws r xf acc
    let w := fenceWord dir draws.1 draws.2.1 draws.2.2.1 (load16 r.ctrl.endian m a)
    fenceWords r dir xf count (a + 2) (store16 r.ctrl.endian m a w) draws.2.2.2

/-- `FENCE` (42_fence.md R164). -/
def execFence (dir : Direction) (xf : Bool) (s : State) : Outcome :=
  let r := s.regs
  if r.fence = 0 then .next (raiseError .cfg 0 s)
  else if r.len.toNat % 2 = 1 then .next (raiseError .len r.len s)
  else
    checkRegions (sourceRegion r) s
      (let result := fenceWords r dir xf (r.len.toNat / 2) r.addr.toNat s.mem r.lcgAcc
       .next (completeCommand { s with mem := result.1, regs := { r with lcgAcc := result.2 } }))

end Sys2Proof.Machine
end

