-- ==== Sys2Proof/Machine/Lcg.lean ====
section
/-! DEFINITION. NOP and the two draws of the generator (40_lcg.md). -/

namespace Sys2Proof.Machine

/-- `NOP` (40_lcg.md R120): the completion and nothing else. -/
def execNop (s : State) : Outcome := .next (completeCommand s)

/-- The end of a command that draws once: the new accumulator and the draw (40_lcg.md R124, R125). -/
def completeDraw (acc out : Word) (s : State) : State :=
  completeCommand { s with regs := { s.regs with lcgAcc := acc, lcgOut := out } }

/-- `LCG_NEXT15` (40_lcg.md R124). -/
def execLcgNext15 (s : State) : Outcome :=
  let acc := lcgStep s.regs.lcgMul s.regs.lcgInc s.regs.lcgAcc
  .next (completeDraw acc ((draw15 s.regs.ctrl.n15sel acc).setWidth 32) s)

/-- `LCG_NEXT16` (40_lcg.md R125). -/
def execLcgNext16 (s : State) : Outcome :=
  let acc := lcgStep s.regs.lcgMul s.regs.lcgInc s.regs.lcgAcc
  .next (completeDraw acc ((draw16 acc).setWidth 32) s)

end Sys2Proof.Machine
end

