-- ==== Sys2Proof/Machine/Rotxor.lean ====
section
/-! DEFINITION. The rotating-XOR byte cipher, ROTXOR (43_rotxor.md). -/

namespace Sys2Proof.Machine

/-- Which of the three table registers is active (43_rotxor.md R181). -/
inductive RotIndex where
  | i0
  | i1
  | i2
  deriving DecidableEq, Repr

/-- The working state of one ROTXOR pass (43_rotxor.md R181). -/
structure RotPass where
  w0 : Word
  w1 : Word
  w2 : Word
  active : RotIndex
  /-- Bytes since the last switch. -/
  cnt : Nat
  fudge : Nat
  acc : Word
  deriving DecidableEq, Repr

/-- The set-up of a pass (43_rotxor.md R181); `LCG_ACC` is not used. -/
def rotStart (r : Regs) : RotPass where
  w0 := r.rotSeed0
  w1 := r.rotSeed1
  w2 := r.rotSeed2
  active := .i0
  cnt := 0
  fudge := 0
  acc := r.rotSeed0

/-- `ROT_LEN[i]` (43_rotxor.md R183). -/
def rotLength (r : Regs) : RotIndex → Nat
  | .i0 => r.rotLen0.toNat
  | .i1 => r.rotLen1.toNat
  | .i2 => r.rotLen2.toNat

/-- The switch to the next register (43_rotxor.md R183): the accumulator is saved first, and a full cycle raises the
fudge. -/
def rotSwitch (p : RotPass) : RotPass :=
  match p.active with
  | .i0 => { p with w0 := p.acc, active := .i1, acc := p.w1, cnt := 0 }
  | .i1 => { p with w1 := p.acc, active := .i2, acc := p.w2, cnt := 0 }
  | .i2 => { p with w2 := p.acc, active := .i0, acc := p.w0, cnt := 0, fudge := p.fudge + 1 }

/-- The switch test (43_rotxor.md R183), its sum exact. -/
def rotSwitchTest (r : Regs) (p : RotPass) : RotPass :=
  if rotLength r p.active + p.fudge ≤ p.cnt then rotSwitch p else p

/-- The key of a byte from the draw of its LCG step (43_rotxor.md R182). -/
def rotKey (hi : Bool) (draw : Half) : Byte := if hi then draw.extractLsb' 8 8 else draw.extractLsb' 0 8

/-- One byte's draw and bookkeeping (43_rotxor.md R182, R183): its key and the pass after it. -/
def rotByte (r : Regs) (p : RotPass) : Byte × RotPass :=
  let acc := lcgStep r.lcgMul r.lcgInc p.acc
  (rotKey r.ctrl.rotHi (draw16 acc), rotSwitchTest r { p with acc := acc, cnt := p.cnt + 1 })

/-- `count` bytes from address `a` up (43_rotxor.md R182). -/
def rotBytes (r : Regs) : (count : Nat) → (a : Nat) → Memory → RotPass → Memory × RotPass
  | 0, _, m, p => (m, p)
  | count + 1, a, m, p =>
    let step := rotByte r p
    rotBytes r count (a + 1) (m.write a (m.read a ^^^ step.1)) step.2

/-- `ROT_STATE`'s value for an active index (10_state.md R37). -/
def rotIndexBits : RotIndex → BitVec 2
  | .i0 => 0
  | .i1 => 1
  | .i2 => 2

/-- The result registers of a pass (43_rotxor.md R184). -/
def rotResults (p : RotPass) (r : Regs) : Regs :=
  { r with
    lcgAcc := p.acc
    rotWork0 := p.w0
    rotWork1 := p.w1
    rotWork2 := p.w2
    rotState := rotIndexBits p.active
    rotCount := BitVec.ofNat 32 p.cnt
    rotFudge := BitVec.ofNat 32 p.fudge }

/-- `ROTXOR` (43_rotxor.md R185). -/
def execRotxor (s : State) : Outcome :=
  let r := s.regs
  checkRegions (sourceRegion r) s
    (let result := rotBytes r r.len.toNat r.addr.toNat s.mem (rotStart r)
     .next (completeCommand { s with mem := result.1, regs := rotResults result.2 r }))

end Sys2Proof.Machine
end

