-- ==== Sys2Proof/Machine/GlazeStream.lean ====
section
/-! DEFINITION. What the Glaze operations share (45_glaze.md): cursors and their checks, output, the back-reference copy,
fetching an operation from the bitstream, and the errors and completion of UNGLAZE. -/

namespace Sys2Proof.Machine

/-! ## The bitstream -/

/-- Bit `b` of the stream at `ADDR`, counted from the first bit of its first byte in reading order (45_glaze.md R235). -/
def streamBit (s : State) (b : Nat) : Bool :=
  (s.mem.read (s.regs.addr.toNat + b / 8)).getLsbD (if s.regs.ctrl.glzLsbf then b % 8 else 7 - b % 8)

/-- The bits from the bit cursor on, up to the end of the bitstream region and no more than the longest operation has
(log 19). -/
def upcomingBits (g : GlazeDecode) (s : State) : List Bool :=
  (List.range (min maxGlazeBits (g.bitEnd - g.bitPos))).map fun k => streamBit s (g.bitPos + k)

/-! ## Cursor checks (45_glaze.md R238, R239), in the order an operation makes them -/

/-- What an operation works on: memory and the cursors. -/
abbrev Decoding := Memory × GlazeDecode

/-- `need(n)` (45_glaze.md R239). -/
def need (n : Nat) (g : GlazeDecode) : Except ErrorCode Unit :=
  if g.pos + n > g.outLen then .error .glzOvf else .ok ()

/-- `getdict(n)` (45_glaze.md R238): the bytes, and the cursors after them. -/
def getDict (n : Nat) (s : State) (g : GlazeDecode) : Except ErrorCode (List Byte × GlazeDecode) :=
  if g.dictPos + n > g.dictEnd then .error .glzOvf
  else .ok (s.mem.readBytes (s.regs.addr.toNat + g.dictPos) n, { g with dictPos := g.dictPos + n })

/-- `getdict(1)` as a number: a distance byte (45_glaze.md R247, R248). -/
def getDictByte (s : State) (g : GlazeDecode) : Except ErrorCode (Nat × GlazeDecode) :=
  if g.dictPos + 1 > g.dictEnd then .error .glzOvf
  else .ok ((s.mem.read (s.regs.addr.toNat + g.dictPos)).toNat, { g with dictPos := g.dictPos + 1 })

/-- `getlt()` (45_glaze.md R238). -/
def getLt (s : State) (g : GlazeDecode) : Except ErrorCode (Nat × GlazeDecode) :=
  if g.ltPos + 1 > g.ltEnd then .error .glzOvf
  else .ok ((s.mem.read (s.regs.addr.toNat + g.ltPos)).toNat, { g with ltPos := g.ltPos + 1 })

/-! ## Output (45_glaze.md R240, R246) -/

/-- Bytes written at the output position (45_glaze.md R240). -/
def emit (bytes : List Byte) (s : State) (g : GlazeDecode) : Decoding :=
  (s.mem.writeBytes (s.regs.dst.toNat + g.pos) bytes, { g with pos := g.pos + bytes.length })

/-- `n` bytes copied one at a time, upwards, to address `a` from `dist` below (45_glaze.md R246). -/
def copyBytes (dist : Nat) : (n : Nat) → (a : Nat) → Memory → Memory
  | 0, _, m => m
  | n + 1, a, m => copyBytes dist n (a + 1) (m.write a (m.read (a - dist)))

/-- `Copy(dist, n)` (45_glaze.md R246). -/
def copyBack (dist n : Nat) (s : State) (g : GlazeDecode) : Except ErrorCode Decoding := do
  need n g
  if dist = 0 ∨ dist > g.pos then throw .glzDist
  pure (copyBytes dist n (s.regs.dst.toNat + g.pos) s.mem, { g with pos := g.pos + n })

/-- `n` dictionary bytes to the output, the output check before the dictionary check (45_glaze.md R243, R249, R252). -/
def emitLiteral (n : Nat) (s : State) (g : GlazeDecode) : Except ErrorCode Decoding := do
  need n g
  let (bytes, g) ← getDict n s g
  pure (emit bytes s g)

/-! ## The ends of UNGLAZE -/

/-- The result registers of UNGLAZE (45_glaze.md R250). -/
def glazeResults (outLen pos : Nat) (s : State) : State :=
  { s with regs := { s.regs with glzOutLen := BitVec.ofNat 32 outLen, glzPos := BitVec.ofNat 32 pos } }

/-- An error of the decode loop (45_glaze.md R250, 60_exceptions.md R284, R286): `ERRINFO` is the output position. -/
def raiseGlaze (code : ErrorCode) (g : GlazeDecode) (s : State) : State :=
  raiseError code (BitVec.ofNat 32 g.pos) (glazeResults g.outLen g.pos s)

/-- The completion of UNGLAZE (45_glaze.md R251). -/
def completeGlaze (g : GlazeDecode) (s : State) : State :=
  completeCommand (glazeResults g.outLen g.pos s)

/-- One operation's effect (45_glaze.md R242): `body` fetches operands and checks, and either raises, with nothing
written, or answers the memory and cursors after the operation. -/
def glazeOperation (body : State → GlazeDecode → Except ErrorCode Decoding) (s : State) : Outcome :=
  match s.glaze with
  | none => .fault .noGlazeStream
  | some g =>
    match body s g with
    | .error code => .next (raiseGlaze code g s)
    | .ok (m, g') => .next { s with mem := m, glaze := some g' }

/-! ## Fetching -/

/-- What the engine finds to do: an instruction to run, or a state in which it has none to run. -/
inductive Fetched where
  | run (i : Instr) (s : State)
  | ended (s : State)
  deriving DecidableEq, Repr

/-- The decode loop's turn up to the operation (45_glaze.md R241): done when the declared length is reached; else the
next operation from the bitstream, the bit cursor moved past it, or the error its bits raise (R235, R253). -/
def fetchGlaze (g : GlazeDecode) (s : State) : Fetched :=
  if g.outLen ≤ g.pos then .ended (completeGlaze g s)
  else
    match decodeGlaze (upcomingBits g s) with
    | .error .reservedOpcode => .ended (raiseGlaze .glzOp g s)
    | .error _ => .ended (raiseGlaze .glzOvf g s)
    | .ok (i, rest) =>
      .run i { s with glaze := some { g with bitPos := g.bitPos + ((upcomingBits g s).length - rest.length) } }

/-- The engine's turn up to the command (60_exceptions.md R281): idle, it stays as it is (R301); busy, it decodes `CMD`,
and a word that does not decode raises `ERR_CMD` (30_encoding.md R104). -/
def fetchCommand (s : State) : Fetched :=
  if s.regs.status.busy then
    match decodeCommand s.regs.cmd with
    | .ok i => .run i s
    | .error _ => .ended (raiseError .cmd s.regs.cmd s)
  else .ended s

/-- The engine's next instruction. -/
def fetch (s : State) : Fetched :=
  match s.glaze with
  | some g => fetchGlaze g s
  | none => fetchCommand s

end Sys2Proof.Machine
end

