-- ==== Sys2Proof/Machine/GlazeOps.lean ====
section
/-! DEFINITION. The seven Glaze operations (45_glaze.md R243 to R252). -/

namespace Sys2Proof.Machine

/-- `LIT` (45_glaze.md R243). -/
def execLit (s : State) : Outcome :=
  glazeOperation (emitLiteral 1) s

/-- `REF1` (45_glaze.md R244). -/
def execRef1 (d : Nat) (s : State) : Outcome :=
  glazeOperation (copyBack d 1) s

/-- `REF` (45_glaze.md R245). -/
def execRef (d l : Nat) (s : State) : Outcome :=
  glazeOperation (copyBack (d + l) (l + 1)) s

/-- `REFD` (45_glaze.md R247): the distance byte comes from the dictionary. -/
def execRefd (l : Nat) (s : State) : Outcome :=
  glazeOperation (fun s g => do
    let (d, g) ← getDictByte s g
    copyBack (d + l) (l + 1) s g) s

/-- `REFW` (45_glaze.md R248): the distance's low byte comes from the dictionary. -/
def execRefw (l dh : Nat) (s : State) : Outcome :=
  glazeOperation (fun s g => do
    let (dl, g) ← getDictByte s g
    copyBack (dh * 256 + dl + l) (l + 1) s g) s

/-- `LITS` (45_glaze.md R249). -/
def execLits (l : Nat) (s : State) : Outcome :=
  glazeOperation (emitLiteral (l + 8)) s

/-- `LITL` (45_glaze.md R252): the count comes from the length table. -/
def execLitl (s : State) : Outcome :=
  glazeOperation (fun s g => do
    let (l, g) ← getLt s g
    emitLiteral (l + 14) s g) s

/-- The dispatch of the decode loop (45_glaze.md R241). A command is no Glaze operation, and the decoder of format G
never answers one. -/
def runGlazeOp (i : Instr) (s : State) : Outcome :=
  match i with
  | .lit => execLit s
  | .ref1 d => execRef1 d s
  | .ref d l => execRef d l s
  | .refd l => execRefd l s
  | .refw l dh => execRefw l dh s
  | .lits l => execLits l s
  | .litl => execLitl s
  | .nop => .fault .noGlazeStream
  | .lcgNext15 => .fault .noGlazeStream
  | .lcgNext16 => .fault .noGlazeStream
  | .bitperm _ => .fault .noGlazeStream
  | .fence _ _ => .fault .noGlazeStream
  | .rotxor => .fault .noGlazeStream
  | .csum => .fault .noGlazeStream
  | .adler32 => .fault .noGlazeStream
  | .check _ _ _ => .fault .noGlazeStream
  | .unglaze => .fault .noGlazeStream

end Sys2Proof.Machine
end

