-- ==== Sys2Proof/Machine/Unglaze.lean ====
section
/-! DEFINITION. UNGLAZE: its checks, the stream header, and the decode loop (45_glaze.md R230 to R251). -/

namespace Sys2Proof.Machine

/-- The two regions share a byte (45_glaze.md R232), the sums exact. -/
def regionsOverlap (r : Regs) : Bool :=
  r.len ≠ 0 && r.dstCap ≠ 0 && r.addr.toNat < r.dst.toNat + r.dstCap.toNat && r.dst.toNat < r.addr.toNat + r.len.toNat

/-- The header validation (45_glaze.md R234, then R233), every sum exact. An error answers `GLZ_OUTLEN`'s value and
`ERRINFO`'s. -/
def glazeHeader (s : State) : Except (Nat × Nat) GlazeDecode :=
  let r := s.regs
  let length := r.len.toNat
  let field (p : Nat) : Nat := (load32 r.ctrl.endian s.mem (r.addr.toNat + p)).toNat
  if length < 8 then .error (0, 8)
  else
    let outLen := field 0
    let bsStart := 8
    let bsEnd := bsStart + field 4
    if bsEnd + 4 > length then .error (outLen, bsEnd + 4)
    else
      let dictStart := bsEnd + 4
      let dictEnd := dictStart + field bsEnd
      if dictEnd + 4 > length then .error (outLen, dictEnd + 4)
      else
        let ltStart := dictEnd + 4
        let ltEnd := ltStart + field dictEnd
        if ltEnd > length then .error (outLen, ltEnd)
        else if outLen > r.dstCap.toNat then .error (outLen, outLen)
        else
          .ok
            { outLen := outLen
              bitPos := 8 * bsStart
              bitEnd := 8 * bsEnd
              dictPos := dictStart
              dictEnd := dictEnd
              ltPos := ltStart
              ltEnd := ltEnd
              pos := 0 }

/-- The decode loop (45_glaze.md R241), `turns` turns of it at most: each turn fetches and runs one operation or ends the
command. -/
def glazeLoop : (turns : Nat) → State → Outcome
  | 0, s => .next s
  | turns + 1, s =>
    match s.glaze with
    | none => .next s
    | some g =>
      match fetchGlaze g s with
      | .ended s' => .next s'
      | .run i s' =>
        match runGlazeOp i s' with
        | .next s'' => glazeLoop turns s''
        | .fault f => .fault f
        | .refused r => .refused r

/-- `UNGLAZE` (45_glaze.md R251). Every operation that does not raise writes at least one output byte, so `outlen` turns
and one to end reach the end of the command (70_reset_and_hazards.md R339, log 19). -/
def execUnglaze (s : State) : Outcome :=
  let r := s.regs
  checkRegions (glazeRegions r) s
    (if regionsOverlap r then .next (raiseError .overlap r.dst s)
     else
       match glazeHeader s with
       | .error (outLen, info) => .next (raiseError .glzSize (BitVec.ofNat 32 info) (glazeResults outLen 0 s))
       | .ok g => glazeLoop (g.outLen + 1) { s with glaze := some g })

end Sys2Proof.Machine
end

