-- ==== Sys2Proof/Machine/Dispatch.lean ====
section
/-! DEFINITION. The meaning of every instruction, one arm per constructor. -/

namespace Sys2Proof.Machine

def exec (i : Instr) (s : State) : Host.Outcome State Fault Refusal :=
  match i with
  | .nop => Sys2Proof.Machine.execNop s
  | .lcgNext15 => Sys2Proof.Machine.execLcgNext15 s
  | .lcgNext16 => Sys2Proof.Machine.execLcgNext16 s
  | .bitperm dir => Sys2Proof.Machine.execBitperm dir s
  | .fence dir xf => Sys2Proof.Machine.execFence dir xf s
  | .rotxor => Sys2Proof.Machine.execRotxor s
  | .csum => Sys2Proof.Machine.execCsum s
  | .adler32 => Sys2Proof.Machine.execAdler32 s
  | .check cSum cXor cAdl => Sys2Proof.Machine.execCheck cSum cXor cAdl s
  | .unglaze => Sys2Proof.Machine.execUnglaze s
  | .lit => Sys2Proof.Machine.execLit s
  | .ref1 d => Sys2Proof.Machine.execRef1 d s
  | .ref d l => Sys2Proof.Machine.execRef d l s
  | .refd l => Sys2Proof.Machine.execRefd l s
  | .refw l dh => Sys2Proof.Machine.execRefw l dh s
  | .lits l => Sys2Proof.Machine.execLits l s
  | .litl => Sys2Proof.Machine.execLitl s

end Sys2Proof.Machine
end

