-- ==== Sys2Proof/Machine/HostPort.lean ====
section
/-! DEFINITION. What the host and the platform do to the block: register and buffer accesses (10_state.md R46 to R48,
20_memory.md R89), reset and power-on (70_reset_and_hazards.md R320 to R323). -/

namespace Sys2Proof.Machine

/-- A register write discarded because `BUSY` = 1 (10_state.md R46): it sets `CMD_OVR`, or `WR_BUSY`. -/
def discardWrite (name : RegName) (s : State) : State :=
  let t := s.regs.status
  { s with
    regs := { s.regs with status := if name = .cmd then { t with cmdOvr := true } else { t with wrBusy := true } } }

/-- A host write of `v` to a register that is not read-only (10_state.md R46). -/
def writeNamed (name : RegName) (v : Word) (s : State) : State :=
  if name = .status then returnFromError v s
  else if s.regs.status.busy then discardWrite name s
  else if name = .cmd then acceptCommand v s
  else { s with regs := storeRegister s.regs v name }

/-- A host register write of `v` at an offset (10_state.md R46): reserved offsets and read-only registers ignore it. -/
def writeOffset (offset : BitVec 12) (v : Word) (s : State) : State :=
  match registerAt offset with
  | none => s
  | some name => if readOnly name then s else writeNamed name v s

/-- A host read answers an unspecified 32-bit value (10_state.md R47, U5). -/
def readFreeWord (s : State) : State :=
  { s with readData := Config.freeWord s.freeCount, freeCount := s.freeCount + 1 }

/-- A host register read at an offset (10_state.md R47); reserved offsets read 0 (R42), also while busy (log 17). -/
def readOffset (offset : BitVec 12) (s : State) : State :=
  match registerAt offset with
  | none => { s with readData := 0 }
  | some name =>
    if s.regs.status.busy && !readableWhileBusy name then readFreeWord s
    else { s with readData := readRegister s.regs name }

/-- A register access has a meaning when it is 32 bits wide at a multiple of 4 (10_state.md R48). -/
def registerAccessOk (bytes : Nat) (offset : BitVec 12) : Bool := bytes = 4 && offset.toNat % 4 = 0

/-- A host write of a buffer byte (20_memory.md R89); in the running command's regions it spoils the command
(70_reset_and_hazards.md R331, log 11). -/
def hostWriteByte (a : Nat) (v : Byte) (s : State) : State :=
  if inRegions (runningRegions s) a then { s with spoiled := true } else { s with mem := s.mem.write a v }

/-- A host read of a buffer byte (20_memory.md R89); in the running command's regions it answers an unspecified value
(70_reset_and_hazards.md R331, U6). -/
def hostReadByte (a : Nat) (s : State) : State :=
  if inRegions (runningRegions s) a then
    { s with readData := (Config.freeByte s.freeCount).setWidth 32, freeCount := s.freeCount + 1 }
  else { s with readData := (s.mem.read a).setWidth 32 }

/-- The reset input with power held (70_reset_and_hazards.md R320 to R323): a running command is abandoned and the bytes of
its regions become unspecified; the registers take their reset values. -/
def resetBlock (s : State) : State :=
  let s := freeRegions (runningRegions s) s
  { s with regs := Regs.reset s.impl.lcgIncReset, glaze := none, spoiled := false }

/-- Power-on (70_reset_and_hazards.md R321): the registers take their reset values, and every byte of buffer memory is
unspecified. -/
def powerOnBlock (s : State) : State :=
  let s := freeBytesAt 0 s.impl.bufSize { s with mem := [] }
  { s with regs := Regs.reset s.impl.lcgIncReset, glaze := none, spoiled := false }

/-- One host operation. -/
def hostMove (op : HostOp) (s : State) : Outcome :=
  match op with
  | .writeReg bytes offset v =>
    if registerAccessOk bytes offset then .next (writeOffset offset v s) else .refused .badRegisterAccess
  | .readReg bytes offset =>
    if registerAccessOk bytes offset then .next (readOffset offset s) else .refused .badRegisterAccess
  | .writeByte a v =>
    if a.toNat < s.impl.bufSize then .next (hostWriteByte a.toNat v s) else .refused .outsideBuffer
  | .readByte a =>
    if a.toNat < s.impl.bufSize then .next (hostReadByte a.toNat s) else .refused .outsideBuffer
  | .reset => .next (resetBlock s)
  | .powerOn => .next (powerOnBlock s)

/-- The end of a command the host has spoiled (70_reset_and_hazards.md R331, log 11): every byte of the regions and every
result register of the command `s` was running become unspecified. -/
def endSpoiled (s t : State) : State :=
  if t.regs.status.busy then t
  else
    let t := freeRegions (runningRegions s) t
    let t := freeRegisters ((runningCommand s).elim [] resultRegisters) t
    { t with spoiled := false }

end Sys2Proof.Machine
end

