-- ==== Sys2Proof/Machine/Loader.lean ====
section
/-! DEFINITION. The state in which the next fetch finds a given opcode-table word (log 14). -/

namespace Sys2Proof.Machine

/-- A byte from its bits in bitstream order (45_glaze.md R235). -/
def packByte (lsbFirst : Bool) (bits : List Bool) : Byte :=
  (List.range 8).foldl (fun x k => putBit x (if lsbFirst then k else 7 - k) (bits.getD k false)) 0

/-- `count` bytes packed from a list of bits. -/
def packBits (lsbFirst : Bool) : (count : Nat) → List Bool → List Byte
  | 0, _ => []
  | count + 1, bits => packByte lsbFirst (bits.take 8) :: packBits lsbFirst count (bits.drop 8)

/-- The bytes of a 32-bit length field (20_memory.md R74). -/
def wordBytes (bigEndian : Bool) (v : Word) : List Byte :=
  let low := [v.extractLsb' 0 8, v.extractLsb' 8 8, v.extractLsb' 16 8, v.extractLsb' 24 8]
  if bigEndian then low.reverse else low

/-- A Glaze stream (45_glaze.md R230) from its declared length and its three regions. -/
def streamImage (bigEndian : Bool) (outLen : Word) (bitstream dict lt : List Byte) : List Byte :=
  wordBytes bigEndian outLen
    ++ wordBytes bigEndian (BitVec.ofNat 32 bitstream.length) ++ bitstream
    ++ wordBytes bigEndian (BitVec.ofNat 32 dict.length) ++ dict
    ++ wordBytes bigEndian (BitVec.ofNat 32 lt.length) ++ lt

/-- A command word accepted and about to run. -/
def loadCommand (v : Word) (s : State) : State :=
  { acceptCommand v s with glaze := none, spoiled := false, agenda := [] }

/-- An UNGLAZE about to decode the operation whose opcode bytecode is `w`: its stream stands at `ADDR`, with six bitstream
bytes that hold the operation's bits and then zeros, sixteen dictionary bytes and one length-table byte of zero, and sixteen
bytes of output to produce at `ADDR` + 64. -/
def loadGlazeOp (w : Nat) (s : State) : State :=
  let s := loadCommand 0x00000030 s
  let bitstream := packBits s.regs.ctrl.glzLsbf 6 (glazeTableBits w)
  let image := streamImage s.regs.ctrl.endian 16 bitstream (List.replicate 16 0) [0]
  { s with
    mem := s.mem.writeBytes s.regs.addr.toNat image
    regs :=
      { s.regs with len := BitVec.ofNat 32 image.length, dst := s.regs.addr + 64, dstCap := 16 }
    glaze :=
      some
        { outLen := 16
          bitPos := 64
          bitEnd := 112
          dictPos := 18
          dictEnd := 34
          ltPos := 38
          ltEnd := 39
          pos := 0 } }

end Sys2Proof.Machine
end

