-- ==== Sys2Proof/Machine/Step.lean ====
section
/-! DEFINITION. One step of the block: the next turn on the agenda is the host's or the engine's (log 7). -/

namespace Sys2Proof.Machine

/-- The engine's turn (00_scope.md R7, R9): it fetches and runs one instruction, or stays as it is when idle. -/
def engineTurn (s : State) : Outcome :=
  match fetch s with
  | .run i s' => exec i s'
  | .ended s' => .next s'

/-- The engine's turn on a command the host has spoiled (70_reset_and_hazards.md R331, log 11): it works on unspecified
region bytes, and leaves unspecified region bytes and results. -/
def spoiledTurn (s : State) : Outcome :=
  match engineTurn (freeRegions (runningRegions s) s) with
  | .next t => .next (endSpoiled s t)
  | .fault f => .fault f
  | .refused r => .refused r

/-- The engine moves. -/
def engineMove (s : State) : Outcome := if s.spoiled then spoiledTurn s else engineTurn s

/-- One step. -/
def step (s : State) : Host.Outcome State Fault Refusal :=
  match s.agenda with
  | [] => engineMove s
  | .engine :: rest => engineMove (s.withAgenda rest)
  | .host op :: rest => hostMove op (s.withAgenda rest)

/-- The state in which the next step fetches and runs the instruction of an opcode-table word (log 14): a command word
accepted in `CMD`, or a format G opcode at the bit cursor of an UNGLAZE that is decoding. -/
def State.withFetchWord (s : State) (nbits w : Nat) : State :=
  if 32 ≤ nbits then loadCommand (BitVec.ofNat 32 w) s else loadGlazeOp w s

end Sys2Proof.Machine
end

