-- ==== Sys2Proof/Safety.lean ====
section
/-! DEFINITION. The words claims are stated in: which states are sound, when a command is just accepted, which registers
the engine leaves alone, BITPERM's table, FENCE's draws and ROTXOR's segments as their rules write them, and the host's
literal Glaze encoder of 45_glaze.md R255. -/

namespace Sys2Proof.Machine

/-! ## Instructions -/

/-- The ten commands of format C (30_encoding.md R102). -/
def isCommand : Instr → Bool
  | .nop | .lcgNext15 | .lcgNext16 | .bitperm _ | .fence _ _ | .rotxor | .csum | .adler32 | .check _ _ _ | .unglaze => true
  | .lit | .ref1 _ | .ref _ _ | .refd _ | .refw _ _ | .lits _ | .litl => false

/-- The seven operations of format G (30_encoding.md R109). -/
def isGlazeOp (i : Instr) : Bool := !isCommand i

/-- Every command word of 30_encoding.md R111. -/
def commandWords : List Word :=
  [ 0x00000000, 0x00000001, 0x00000002, 0x00000010, 0x00000110, 0x00000011, 0x00000111, 0x00000211, 0x00000311
  , 0x00000012, 0x00000020, 0x00000021, 0x00000022, 0x00000122, 0x00000222, 0x00000322, 0x00000422, 0x00000522
  , 0x00000622, 0x00000722, 0x00000030 ]

/-! ## States -/

/-- The engine moves next, on a command the host has not spoiled. -/
abbrev EngineNext (s : State) : Prop := s.agenda = [] ∧ s.spoiled = false

/-- A command is running and has not begun: what an accepted `CMD` write leaves (60_exceptions.md R281). -/
abbrev Accepted (s : State) : Prop :=
  s.regs.status.busy = true ∧ s.regs.status.done = false ∧ s.regs.status.err = false ∧ s.regs.status.errCode = 0
    ∧ s.glaze = none

/-- UNGLAZE is decoding, with cursors `g`. -/
abbrev Decodes (s : State) (g : GlazeDecode) : Prop := s.glaze = some g

/-- The status after a successful completion (60_exceptions.md R282). -/
abbrev completed (t : Status) : Status := { t with busy := false, done := true }

/-- The status after an error with the given number (60_exceptions.md R284, R285). -/
abbrev failed (number : Byte) (t : Status) : Status :=
  { t with busy := false, done := true, err := true, errCode := number }

/-- `s` after a command that ends with the given registers but for `STATUS` and memory, successfully. -/
abbrev completesWith (s : State) (r : Regs) (m : Memory) : Outcome :=
  .next { s with mem := m, regs := { r with status := completed r.status }, glaze := none }

/-- `s` after a command that raises an error before it writes anything: only `STATUS` and `ERRINFO` change
(60_exceptions.md R284). -/
abbrev failsWith (s : State) (number : Byte) (info : Word) : Outcome :=
  .next { s with regs := { s.regs with errInfo := info, status := failed number s.regs.status }, glaze := none }

/-- `s` after an UNGLAZE that raises an error after its pre-checks (45_glaze.md R250): the two result registers are
written as well. -/
abbrev glazeFailsWith (s : State) (number : Byte) (info outLen pos : Word) : Outcome :=
  .next
    { s with
      regs :=
        { s.regs with glzOutLen := outLen, glzPos := pos, errInfo := info, status := failed number s.regs.status }
      glaze := none }

/-- Two memories read alike outside `n` bytes from `a`. -/
abbrev sameOutside (m m' : Memory) (a n : Nat) : Prop := ∀ b, ¬(a ≤ b ∧ b < a + n) → m'.read b = m.read b

/-- Two memories read alike. -/
abbrev sameMemory (m m' : Memory) : Prop := ∀ b, m'.read b = m.read b

/-- What every step keeps (the promises the spec makes about the block between commands): memory is canonical and inside
the buffer (20_memory.md R70); nothing of UNGLAZE's internal state stands (10_state.md R43); while busy, `DONE` and `ERR`
are 0 and `ERRCODE` is 0 whenever `ERR` is (10_state.md R26); `ERRCODE` is no reserved code (60_exceptions.md R285);
`LCG_OUT` holds a draw (40_lcg.md R124, R125); and only a running command that names a byte can be spoiled (log 11). -/
structure Sound (s : State) : Prop where
  memory_canonical : s.mem.wf
  memory_inside : s.mem.below s.impl.bufSize
  no_decode_left : s.glaze = none
  busy_flags : s.regs.status.busy = true → s.regs.status.done = false ∧ s.regs.status.err = false
  no_stale_code : s.regs.status.err = false → s.regs.status.errCode = 0
  code_assigned : s.regs.status.errCode.toNat ≤ 10
  out_is_draw : s.regs.lcgOut.toNat < 2 ^ 16
  spoiled_runs : s.spoiled = true → ∃ a, inRegions (runningRegions s) a = true

/-- What reset and power-on leave in a register (70_reset_and_hazards.md R320), given the parameters. -/
def resetValue (p : Params) : RegName → Word
  | .id => 0x47555354
  | .adler => 0x00000001
  | .lcgInc => p.lcgIncReset
  | _ => 0

/-! ## BITPERM's table and swaps, as 41_bitperm.md writes them -/

/-- `j` of table entry `i` of a slice of `n` bits (41_bitperm.md R143): the draw of the `i + 1`st LCG step modulo `size`,
which is `n - i` when entry `i` is drawn. -/
def tableIndex (c : Ctrl) (mul inc acc : Word) (n i : Nat) : Nat :=
  let a := lcgAfter mul inc (i + 1) acc
  let r : Nat :=
    if c.bpD16 then (a.extractLsb 31 16).toNat
    else if c.n15sel then (a.extractLsb 30 16).toNat
    else (a.extractLsb 31 17).toNat
  r % (n - i)

/-- `pool[k]` when entry `i` is drawn (41_bitperm.md R143): ascending before the first, and after each removal of
`pool[j]` from `size` elements either the last in its place or, with `BP_SHIFT`, every later one moved down. -/
def tablePool (c : Ctrl) (mul inc acc : Word) (n : Nat) : (i : Nat) → (k : Nat) → Nat
  | 0, k => k
  | i + 1, k =>
    let j := tableIndex c mul inc acc n i
    let size := n - i
    if c.bpShift then
      if j ≤ k ∧ k + 1 < size then tablePool c mul inc acc n i (k + 1) else tablePool c mul inc acc n i k
    else if k = j then tablePool c mul inc acc n i (size - 1)
    else tablePool c mul inc acc n i k

/-- The bits of a slice after `SwapBit(p, q)` (41_bitperm.md R145), as a function of the bit index. -/
def swapBits (bits : Nat → Bool) (pq : Nat × Nat) : Nat → Bool := fun b =>
  if b = pq.1 then bits pq.2 else if b = pq.2 then bits pq.1 else bits b

/-! ## FENCE's draws, as 42_fence.md R162 and R163 write them -/

/-- `next15()` from the accumulator it has updated, zero-extended to 16 bits (40_lcg.md R122). -/
def fenceDraw (r : Regs) (acc : Word) : Half :=
  if r.ctrl.n15sel then (acc.extractLsb 30 16).setWidth 16 else (acc.extractLsb 31 17).setWidth 16

/-- With `XF`, the accumulator before word `k` (42_fence.md R162): a word makes one step for `x`, and one more for `y` when
its toggle holds or `FX_YALL` is set. -/
def fenceAccAt (r : Regs) : (k : Nat) → Word
  | 0 => r.lcgAcc
  | k + 1 =>
    let acc1 := r.lcgMul * fenceAccAt r k + r.lcgInc
    if r.ctrl.fxYall ∨ r.fence.toNat ≤ (fenceDraw r acc1).toNat % (2 * r.fence.toNat) then r.lcgMul * acc1 + r.lcgInc
    else acc1

/-! ## ROTXOR's segments, as 43_rotxor.md R183 reads them -/

/-- The length in bytes of ROTXOR's `j`th segment, which register `j mod 3` keys in cycle `j / 3` (43_rotxor.md R183):
`ROT_LEN[i] + fudge`, or 1 where that is 0. -/
def segmentLength (r : Regs) (j : Nat) : Nat :=
  max 1 ([r.rotLen0.toNat, r.rotLen1.toNat, r.rotLen2.toNat].getD (j % 3) 0 + j / 3)

/-- The first byte of segment `j`, counted from the region's start. -/
def segmentStart (r : Regs) (j : Nat) : Nat := ((List.range j).map (segmentLength r)).sum

/-- The accumulator of register `i` after the segments before `j` that it keys, and `n` bytes more: it starts from its
seed and steps once a byte while it is active (43_rotxor.md R181, R182). -/
def rotAccAt (r : Regs) (i j n : Nat) : Word :=
  let before := (((List.range j).filter fun k => k % 3 = i).map (segmentLength r)).sum
  lcgAfter r.lcgMul r.lcgInc (before + n) ([r.rotSeed0, r.rotSeed1, r.rotSeed2].getD i 0)

/-! ## The host's literal encoder (45_glaze.md R255) -/

/-- The sizes of the `LITL` blocks for `n` bytes: 256 or what remains, while at least 14 remain. -/
def blockSizes : (fuel : Nat) → (n : Nat) → List Nat
  | 0, _ => []
  | fuel + 1, n => if 14 ≤ n then min 256 n :: blockSizes fuel (n - min 256 n) else []

/-- The bitstream of a literal-only stream for `n` bytes: one `LITL` code a block, then one `LIT` code a remaining
byte. -/
def literalBits (n : Nat) : List Bool :=
  (blockSizes n n).flatMap (fun _ => [false, false, true, true, true])
    ++ List.replicate (n - (blockSizes n n).sum) true

/-- The literal-only stream of an input (45_glaze.md R255). -/
def literalStream (bigEndian lsbFirst : Bool) (input : List Byte) : List Byte :=
  let bits := literalBits input.length
  streamImage bigEndian (BitVec.ofNat 32 input.length) (packBits lsbFirst ((bits.length + 7) / 8) bits) input
    ((blockSizes input.length input.length).map fun c => BitVec.ofNat 8 (c - 14))

end Sys2Proof.Machine
end

