-- ==== Sys2Proof/Certificates/Slice0/Obligations.lean ====
section
/-! DEFINITION. The statements for the provers, from the numbered rules of spec/. A statement about memory contents has the
canonical form as a premise; `SoundnessIsKept` states the invariant that supplies it. -/

open Sys2Proof Sys2Proof.Machine

/-! ## Encodings -/

/-- Command words and codes written out in 30_encoding.md R111 and R108 decode to what they stand for. -/
def Obligations.WrittenOutEncodingsDecode : Prop :=
  decodeCommand 0x00000000 = .ok .nop
  ∧ decodeCommand 0x00000002 = .ok .lcgNext16
  ∧ decodeCommand 0x00000110 = .ok (.bitperm .descramble)
  ∧ decodeCommand 0x00000211 = .ok (.fence .scramble true)
  ∧ decodeCommand 0x00000111 = .ok (.fence .descramble false)
  ∧ decodeCommand 0x00000012 = .ok .rotxor
  ∧ decodeCommand 0x00000122 = .ok (.check true false false)
  ∧ decodeCommand 0x00000422 = .ok (.check false false true)
  ∧ decodeCommand 0x00000030 = .ok .unglaze
  ∧ decodeGlaze [true] = .ok (.lit, [])
  ∧ decodeGlaze [false, true, true, true, false, true, false] = .ok (.ref 1 2, [])
  ∧ decodeGlaze
        [false, false, true, false, true, false, true, false, false, false, false, false, false, false, false, false]
      = .ok (.refw 2 0, [])

/-- Decoding a command's word gives the command back, and each command has one word (30_encoding.md R101 to R103). -/
def Obligations.CommandDecodeAndEncodeAgree : Prop :=
  (∀ i : Instr, isCommand i = true → ∃ w, encode i = .command w ∧ decodeCommand w = .ok i)
  ∧ ∀ (w : Word) (i : Instr), decodeCommand w = .ok i → isCommand i = true ∧ encode i = .command w

/-- Decoding a Glaze operation's code, whatever bits follow, gives the operation back and the bits that follow, and the code
has at most 45 bits; what the decoder answers is a well-formed operation whose code is exactly the bits it took. -/
def Obligations.GlazeDecodeAndEncodeAgree : Prop :=
  (∀ i : Instr, isGlazeOp i = true → i.wellFormed = true →
    ∃ bs, encode i = .bits bs ∧ bs.length ≤ maxGlazeBits ∧ ∀ rest, decodeGlaze (bs ++ rest) = .ok (i, rest))
  ∧ ∀ (bits rest : List Bool) (i : Instr), decodeGlaze bits = .ok (i, rest) →
      isGlazeOp i = true ∧ i.wellFormed = true ∧ ∃ bs, encode i = .bits bs ∧ bits = bs ++ rest

/-! ## Memory -/

/-- `Load16`, `Load32` and `Store16` take their bytes in the order `ENDIAN` selects (20_memory.md R74). -/
def Obligations.WordsFollowTheByteOrder : Prop :=
  (∀ (m : Memory) (a : Nat),
    (load16 false m a).toNat = (m.read a).toNat + (m.read (a + 1)).toNat * 2 ^ 8
    ∧ (load16 true m a).toNat = (m.read a).toNat * 2 ^ 8 + (m.read (a + 1)).toNat
    ∧ (load32 false m a).toNat =
        (m.read a).toNat + (m.read (a + 1)).toNat * 2 ^ 8 + (m.read (a + 2)).toNat * 2 ^ 16
          + (m.read (a + 3)).toNat * 2 ^ 24
    ∧ (load32 true m a).toNat =
        (m.read a).toNat * 2 ^ 24 + (m.read (a + 1)).toNat * 2 ^ 16 + (m.read (a + 2)).toNat * 2 ^ 8
          + (m.read (a + 3)).toNat)
  ∧ ∀ (m : Memory) (a : Nat) (v : Half), m.wf →
      ((store16 false m a v).read a).toNat = v.toNat % 2 ^ 8
      ∧ ((store16 false m a v).read (a + 1)).toNat = v.toNat / 2 ^ 8
      ∧ ((store16 true m a v).read a).toNat = v.toNat / 2 ^ 8
      ∧ ((store16 true m a v).read (a + 1)).toNat = v.toNat % 2 ^ 8
      ∧ ∀ e, sameOutside m (store16 e m a v) a 2

/-! ## The step -/

/-- The engine's step runs the command in `CMD`, on a state whose agenda, the model's own field (log 7), is empty or gives
the engine the turn; an idle block stays as it is (log 18). -/
def Obligations.StepRunsTheCommandInCmd : Prop :=
  ∀ (s : State) (i : Instr) (rest : List Turn), s.spoiled = false → s.glaze = none →
    (s.regs.status.busy = true → decodeCommand s.regs.cmd = .ok i →
      (s.agenda = [] → step s = exec i s)
      ∧ (s.agenda = .engine :: rest → step s = exec i { s with agenda := rest }))
    ∧ (s.regs.status.busy = false →
      (s.agenda = [] → step s = .next s)
      ∧ (s.agenda = .engine :: rest → step s = .next { s with agenda := rest }))

/-- The engine's step inside UNGLAZE runs the operation at the bit cursor, with the cursor moved past its code. That a step
from a state with cursors standing runs one operation is the model's choice (log 9), and so is that it is decoded from at most
45 bits (log 19); `UnglazeIteratesFetchAndExec` ties such steps to UNGLAZE. -/
def Obligations.StepRunsTheGlazeOperationAtTheCursor : Prop :=
  ∀ (s : State) (g : GlazeDecode) (i : Instr) (bs rest : List Bool), EngineNext s → Decodes s g → g.pos < g.outLen →
    isGlazeOp i = true → i.wellFormed = true → encode i = .bits bs → upcomingBits g s = bs ++ rest →
    step s = exec i { s with glaze := some { g with bitPos := g.bitPos + bs.length } }

/-- Exactly the words of 30_encoding.md R111 decode; any other word ends with `ERR_CMD` and changes nothing but `STATUS`
and `ERRINFO`. -/
def Obligations.IllegalCommandWordsRaiseErrCmd : Prop :=
  (∀ w : Word, (∃ i, decodeCommand w = .ok i) ↔ w ∈ commandWords)
  ∧ ∀ s : State, EngineNext s → s.glaze = none → s.regs.status.busy = true → s.regs.cmd ∉ commandWords →
      step s = failsWith s 1 s.regs.cmd

/-- A reserved bytecode in opcode position ends UNGLAZE with `ERR_GLZ_OP` before any operand is fetched (45_glaze.md R253).
The step from a state with cursors standing is the model's choice (log 9). -/
def Obligations.ReservedGlazeOpcodesRaise : Prop :=
  ∀ (s : State) (g : GlazeDecode) (v : Nat) (rest : List Bool), EngineNext s → Decodes s g → g.pos < g.outLen →
    v < 256 → (v = 0 ∨ 8 ≤ v) → upcomingBits g s = bytecodeCode v ++ rest →
    step s = glazeFailsWith s 9 (BitVec.ofNat 32 g.pos) (BitVec.ofNat 32 g.outLen) (BitVec.ofNat 32 g.pos)

/-- UNGLAZE ends when the declared length is reached, before any further bytecode is read (45_glaze.md R241, R250); before
that, a bitstream that ends inside a bytecode ends it with `ERR_GLZ_OVF` (R235): inside the code of an opcode, reserved ones
too, or inside the code of an operand, after the bytecodes of an opcode that has one. The step from a state with cursors
standing is the model's choice (log 9). -/
def Obligations.DecodingEndsAtTheLengthOrTheBitstream : Prop :=
  ∀ (s : State) (g : GlazeDecode), EngineNext s → Decodes s g →
    let outLen := BitVec.ofNat 32 g.outLen
    let pos := BitVec.ofNat 32 g.pos
    (g.outLen ≤ g.pos → step s = completesWith s { s.regs with glzOutLen := outLen, glzPos := pos } s.mem)
    ∧ ∀ (whole : List Nat) (v : Nat) (left missing : List Bool), g.pos < g.outLen →
        (whole = [] ∨ (∃ op ∈ [2, 3, 4, 5, 6], whole = [op]) ∨ ∃ op ∈ [3, 5], ∃ w < 256, whole = [op, w]) →
        v < 256 → bytecodeCode v = left ++ missing → missing ≠ [] →
        upcomingBits g s = whole.flatMap bytecodeCode ++ left →
        step s = glazeFailsWith s 8 pos outLen pos

/-! ## NOP and the generator -/

/-- `NOP` completes and changes nothing else; `LCG_NEXT15` and `LCG_NEXT16` make one LCG step, write `LCG_ACC`, and write the
draw to `LCG_OUT`: bits 31:17 or, with `N15SEL`, 30:16 of the new accumulator, and bits 31:16. -/
def Obligations.NopAndTheDrawsComplete : Prop :=
  decodeCommand 0x00000000 = .ok .nop ∧ decodeCommand 0x00000001 = .ok .lcgNext15
  ∧ decodeCommand 0x00000002 = .ok .lcgNext16
  ∧ ∀ s : State,
      let acc := s.regs.lcgMul * s.regs.lcgAcc + s.regs.lcgInc
      exec .nop s = completesWith s s.regs s.mem
      ∧ exec .lcgNext15 s =
          completesWith s
            { s.regs with
              lcgAcc := acc
              lcgOut :=
                if s.regs.ctrl.n15sel then (acc.extractLsb 30 16).setWidth 32 else (acc.extractLsb 31 17).setWidth 32 }
            s.mem
      ∧ exec .lcgNext16 s =
          completesWith s { s.regs with lcgAcc := acc, lcgOut := (acc.extractLsb 31 16).setWidth 32 } s.mem

/-! ## BITPERM -/

/-- An illegal `CHUNK` ends BITPERM with `ERR_CFG` before any other check, even when `LEN` = 0. -/
def Obligations.BitpermRejectsIllegalChunk : Prop :=
  ∀ (s : State) (dir : Direction),
    (¬∃ k, s.regs.chunk.toNat = 2 ^ k ∧ 2 ^ k ≤ s.impl.bpMaxChunk) →
    exec (.bitperm dir) s = failsWith s 2 s.regs.chunk

/-- BITPERM over a region that fits completes, advances the generator by exactly `8*LEN` steps, and changes no byte
outside the region. -/
def Obligations.BitpermCompletesAfterEightDrawsAByte : Prop :=
  ∀ (s : State) (dir : Direction) (k : Nat), s.regs.chunk.toNat = 2 ^ k → 2 ^ k ≤ s.impl.bpMaxChunk →
    (s.regs.len = 0 ∨ s.regs.addr.toNat + s.regs.len.toNat ≤ s.impl.bufSize) →
    ∃ m, sameOutside s.mem m s.regs.addr.toNat s.regs.len.toNat
      ∧ exec (.bitperm dir) s =
          completesWith s
            { s.regs with lcgAcc := lcgAfter s.regs.lcgMul s.regs.lcgInc (8 * s.regs.len.toNat) s.regs.lcgAcc } m

/-- A region of one command that does not fit ends it with `ERR_MEM` and its base, after the command's own checks. -/
def Obligations.RegionsThatDoNotFitRaiseErrMem : Prop :=
  ∀ s : State, s.regs.len ≠ 0 → s.impl.bufSize < s.regs.addr.toNat + s.regs.len.toNat →
    (∀ dir k, s.regs.chunk.toNat = 2 ^ k → 2 ^ k ≤ s.impl.bpMaxChunk →
        exec (.bitperm dir) s = failsWith s 4 s.regs.addr)
    ∧ (∀ dir xf, s.regs.fence ≠ 0 → s.regs.len.toNat % 2 = 0 → exec (.fence dir xf) s = failsWith s 4 s.regs.addr)
    ∧ exec .rotxor s = failsWith s 4 s.regs.addr
    ∧ (s.regs.len.toNat % 4 = 0 → exec .csum s = failsWith s 4 s.regs.addr)
    ∧ exec .adler32 s = failsWith s 4 s.regs.addr
    ∧ exec .unglaze s = failsWith s 4 s.regs.addr

/-- The table BITPERM builds is a permutation of the bit indices, whatever the draws and the removal, and takes one draw
an entry. Every entry follows the rule: entry `i` is `pool[j]`, `j` the draw modulo the pool's size, the pool having lost the
entries before it by either removal. So the first draw modulo `n` is the first entry, and the second draw modulo `n − 1` picks
the second among those left, in swap-with-last order or in ascending order. -/
def Obligations.TableHoldsEveryBitIndexOnce : Prop :=
  ∀ (c : Ctrl) (mul inc acc : Word) (n : Nat),
    let table := permutationTable c mul inc n acc
    let draw (a : Word) : Nat := if c.bpD16 then (draw16 a).toNat else (draw15 c.n15sel a).toNat
    let acc1 := mul * acc + inc
    let acc2 := mul * acc1 + inc
    let j1 := draw acc1 % n
    let j2 := draw acc2 % (n - 1)
    table.1.Perm (List.range n)
    ∧ table.2 = lcgAfter mul inc n acc
    ∧ (∀ i < n, table.1[i]? = some (tablePool c mul inc acc n i (tableIndex c mul inc acc n i)))
    ∧ (2 ≤ n →
        table.1[0]? = some j1
        ∧ table.1[1]? =
            some (if c.bpShift then (if j2 < j1 then j2 else j2 + 1) else (if j2 = j1 then n - 1 else j2)))

/-- What BITPERM does to the bits of one slice. With disjoint pairs it exchanges the two bits of each pair
`(t[2k], t[2k+1])` of the table; with `BP_SLIDE` it swaps the bits of `(t[k], t[k+1])` one pair after another, in order for
`DIR` = 0 and in reverse for `DIR` = 1. -/
def Obligations.BitpermExchangesThePairsOfASlice : Prop :=
  ∀ (s : State) (dir : Direction) (e : Nat), s.mem.wf → s.regs.chunk.toNat = 2 ^ e → 2 ^ e ≤ s.impl.bpMaxChunk →
    (s.regs.len = 0 ∨ s.regs.addr.toNat + s.regs.len.toNat ≤ s.impl.bufSize) →
    s.regs.len.toNat ≤ s.regs.chunk.toNat →
    let n := 8 * s.regs.len.toNat
    let t := (permutationTable s.regs.ctrl s.regs.lcgMul s.regs.lcgInc n s.regs.lcgAcc).1
    let bit (m : Memory) (b : Nat) : Bool := (m.read (s.regs.addr.toNat + b / 8)).getLsbD (b % 8)
    let neighbours := (List.range (n - 1)).map fun k => (t.getD k 0, t.getD (k + 1) 0)
    ∃ u, exec (.bitperm dir) s = .next u
      ∧ (s.regs.ctrl.bpSlide = false → ∀ k < n / 2,
          bit u.mem (t.getD (2 * k) 0) = bit s.mem (t.getD (2 * k + 1) 0)
          ∧ bit u.mem (t.getD (2 * k + 1) 0) = bit s.mem (t.getD (2 * k) 0))
      ∧ (s.regs.ctrl.bpSlide = true → ∀ b < n,
          bit u.mem b =
            (match dir with
              | .scramble => neighbours
              | .descramble => neighbours.reverse).foldl swapBits (bit s.mem) b)

/-- BITPERM over adjacent parts, the first a whole number of chunks, is BITPERM over the whole: slices are independent but
for the draws, which go on (41_bitperm.md R142). -/
def Obligations.BitpermSplitsAtAChunkBoundary : Prop :=
  ∀ (s : State) (dir : Direction) (e : Nat) (n1 n2 : Word), s.regs.chunk.toNat = 2 ^ e → 2 ^ e ≤ s.impl.bpMaxChunk →
    n1.toNat % s.regs.chunk.toNat = 0 → n1.toNat + n2.toNat = s.regs.len.toNat →
    s.regs.addr.toNat + s.regs.len.toNat ≤ s.impl.bufSize → s.regs.addr.toNat + n1.toNat < 2 ^ 32 →
    ∃ whole first second,
      exec (.bitperm dir) s = .next whole
      ∧ exec (.bitperm dir) { s with regs := { s.regs with len := n1 } } = .next first
      ∧ exec (.bitperm dir)
          { first with regs := { first.regs with addr := s.regs.addr + n1, len := n2 } } = .next second
      ∧ second.mem = whole.mem ∧ second.regs.lcgAcc = whole.regs.lcgAcc

/-- With disjoint pairs both directions compute the same function (41_bitperm.md R144). -/
def Obligations.DisjointPairsMakeDirectionsEqual : Prop :=
  ∀ s : State, s.mem.wf → s.regs.ctrl.bpSlide = false → exec (.bitperm .scramble) s = exec (.bitperm .descramble) s

/-- Descrambling from the same `LCG_ACC` restores what scrambling changed, whatever `CTRL` selects. -/
def Obligations.BitpermDescrambleUndoesScramble : Prop :=
  ∀ (s : State) (k : Nat), s.mem.wf → s.regs.chunk.toNat = 2 ^ k → 2 ^ k ≤ s.impl.bpMaxChunk →
    (s.regs.len = 0 ∨ s.regs.addr.toNat + s.regs.len.toNat ≤ s.impl.bufSize) →
    ∃ t u, exec (.bitperm .scramble) s = .next t
      ∧ exec (.bitperm .descramble) { t with regs := { t.regs with lcgAcc := s.regs.lcgAcc } } = .next u
      ∧ sameMemory s.mem u.mem

/-! ## FENCE -/

/-- FENCE's checks in their order: a fence of 0, an odd length, the region; past them any fence from 1 to 0xFFFF is
accepted. -/
def Obligations.FenceChecksInOrder : Prop :=
  ∀ (s : State) (dir : Direction) (xf : Bool),
    (s.regs.fence = 0 → exec (.fence dir xf) s = failsWith s 2 0)
    ∧ (s.regs.fence ≠ 0 → s.regs.len.toNat % 2 = 1 → exec (.fence dir xf) s = failsWith s 3 s.regs.len)
    ∧ (s.regs.fence ≠ 0 → s.regs.len.toNat % 2 = 0 → s.regs.len ≠ 0 →
        s.impl.bufSize < s.regs.addr.toNat + s.regs.len.toNat → exec (.fence dir xf) s = failsWith s 4 s.regs.addr)
    ∧ (s.regs.fence ≠ 0 → s.regs.len.toNat % 2 = 0 →
        (s.regs.len = 0 ∨ s.regs.addr.toNat + s.regs.len.toNat ≤ s.impl.bufSize) →
        ∃ acc m, exec (.fence dir xf) s = completesWith s { s.regs with lcgAcc := acc } m)

/-- FENCE over one word, draw by draw, for both directions, `XF`, `FX_YALL`, `N15SEL` and `ENDIAN`. -/
def Obligations.FenceTransformsAWord : Prop :=
  ∀ (s : State) (dir : Direction) (xf : Bool), s.mem.wf → s.regs.fence ≠ 0 → s.regs.len = 2 →
    s.regs.addr.toNat + 2 ≤ s.impl.bufSize →
    let F := s.regs.fence.toNat
    let next15 (acc : Word) : Half :=
      if s.regs.ctrl.n15sel then (acc.extractLsb 30 16).setWidth 16 else (acc.extractLsb 31 17).setWidth 16
    let acc1 := s.regs.lcgMul * s.regs.lcgAcc + s.regs.lcgInc
    let acc2 := s.regs.lcgMul * acc1 + s.regs.lcgInc
    let x := next15 acc1
    let toggle : Bool := F ≤ x.toNat % (2 * F)
    let drawsY : Bool := xf && (s.regs.ctrl.fxYall || toggle)
    let mask : Half := if xf then next15 acc2 else x
    let w := load16 s.regs.ctrl.endian s.mem s.regs.addr.toNat
    let w' : Half :=
      match dir with
      | .scramble => if toggle then (w + x) ^^^ mask else w + x
      | .descramble => if toggle then (w ^^^ mask) - x else w - x
    ∃ m, exec (.fence dir xf) s = completesWith s { s.regs with lcgAcc := if drawsY then acc2 else acc1 } m
      ∧ load16 s.regs.ctrl.endian m s.regs.addr.toNat = w'
      ∧ sameOutside s.mem m s.regs.addr.toNat 2

/-- FENCE without `XF` over any even region: word `k` is transformed with draw `k + 1`, `LEN/2` draws in all, and no byte
outside the region changes. -/
def Obligations.FenceTransformsEveryWordInOrder : Prop :=
  ∀ (s : State) (dir : Direction), s.mem.wf → s.regs.fence ≠ 0 → s.regs.len.toNat % 2 = 0 →
    (s.regs.len = 0 ∨ s.regs.addr.toNat + s.regs.len.toNat ≤ s.impl.bufSize) →
    let n := s.regs.len.toNat / 2
    ∃ m, exec (.fence dir false) s =
          completesWith s { s.regs with lcgAcc := lcgAfter s.regs.lcgMul s.regs.lcgInc n s.regs.lcgAcc } m
      ∧ sameOutside s.mem m s.regs.addr.toNat s.regs.len.toNat
      ∧ ∀ k < n,
          let x : Half :=
            (draw15 s.regs.ctrl.n15sel (lcgAfter s.regs.lcgMul s.regs.lcgInc (k + 1) s.regs.lcgAcc)).setWidth 16
          let w := load16 s.regs.ctrl.endian s.mem (s.regs.addr.toNat + 2 * k)
          let toggle : Bool := s.regs.fence.toNat ≤ x.toNat % (2 * s.regs.fence.toNat)
          load16 s.regs.ctrl.endian m (s.regs.addr.toNat + 2 * k) =
            match dir with
            | .scramble => if toggle then (w + x) ^^^ x else w + x
            | .descramble => if toggle then (w ^^^ x) - x else w - x

/-- FENCE with `XF` over any even region that fits: each word makes the draw `x` and, when it toggles or under `FX_YALL`,
the draw `y`, and the next word starts from the accumulator left; word `k` is added to or subtracted from `x` and, when it
toggles, XORed with `y`. The LCG steps are `LEN/2` plus the number of toggled words, or `LEN` under `FX_YALL`, and no byte
outside the region changes. -/
def Obligations.FenceWithExtraFudgeCompletes : Prop :=
  ∀ (s : State) (dir : Direction), s.regs.fence ≠ 0 → s.regs.len.toNat % 2 = 0 →
    (s.regs.len = 0 ∨ s.regs.addr.toNat + s.regs.len.toNat ≤ s.impl.bufSize) →
    let n := s.regs.len.toNat / 2
    let acc1 (k : Nat) : Word := s.regs.lcgMul * fenceAccAt s.regs k + s.regs.lcgInc
    let x (k : Nat) : Half := fenceDraw s.regs (acc1 k)
    let y (k : Nat) : Half := fenceDraw s.regs (s.regs.lcgMul * acc1 k + s.regs.lcgInc)
    let toggles (k : Nat) : Bool := s.regs.fence.toNat ≤ (x k).toNat % (2 * s.regs.fence.toNat)
    let secondDraws := if s.regs.ctrl.fxYall then n else ((List.range n).filter toggles).length
    ∃ m, exec (.fence dir true) s = completesWith s { s.regs with lcgAcc := fenceAccAt s.regs n } m
      ∧ fenceAccAt s.regs n = lcgAfter s.regs.lcgMul s.regs.lcgInc (n + secondDraws) s.regs.lcgAcc
      ∧ sameOutside s.mem m s.regs.addr.toNat s.regs.len.toNat
      ∧ (s.mem.wf → ∀ k < n,
          let w := load16 s.regs.ctrl.endian s.mem (s.regs.addr.toNat + 2 * k)
          load16 s.regs.ctrl.endian m (s.regs.addr.toNat + 2 * k) =
            match dir with
            | .scramble => if toggles k then (w + x k) ^^^ y k else w + x k
            | .descramble => if toggles k then (w ^^^ y k) - x k else w - x k)

/-- Descrambling from the same generator state restores what FENCE scrambled, with `XF` or without. -/
def Obligations.FenceDescrambleUndoesScramble : Prop :=
  ∀ (s : State) (xf : Bool), s.mem.wf → s.regs.fence ≠ 0 → s.regs.len.toNat % 2 = 0 →
    (s.regs.len = 0 ∨ s.regs.addr.toNat + s.regs.len.toNat ≤ s.impl.bufSize) →
    ∃ t u, exec (.fence .scramble xf) s = .next t
      ∧ exec (.fence .descramble xf) { t with regs := { t.regs with lcgAcc := s.regs.lcgAcc } } = .next u
      ∧ sameMemory s.mem u.mem

/-! ## ROTXOR -/

/-- ROTXOR over an empty region loads its result registers from the seeds (43_rotxor.md R184). -/
def Obligations.RotxorOfNothingReportsTheSeeds : Prop :=
  ∀ s : State, s.regs.len = 0 →
    exec .rotxor s =
      completesWith s
        { s.regs with
          lcgAcc := s.regs.rotSeed0
          rotWork0 := s.regs.rotSeed0
          rotWork1 := s.regs.rotSeed1
          rotWork2 := s.regs.rotSeed2
          rotState := 0
          rotCount := 0
          rotFudge := 0 }
        s.mem

/-- ROTXOR inside its first segment: each byte is XORed with eight bits of the next draw from the first seed. -/
def Obligations.RotxorFirstSegmentUsesTheFirstSeed : Prop :=
  ∀ s : State, s.mem.wf → s.regs.addr.toNat + s.regs.len.toNat ≤ s.impl.bufSize →
    s.regs.len.toNat < s.regs.rotLen0.toNat →
    let acc (k : Nat) : Word := lcgAfter s.regs.lcgMul s.regs.lcgInc k s.regs.rotSeed0
    ∃ m, exec .rotxor s =
        completesWith s
          { s.regs with
            lcgAcc := acc s.regs.len.toNat
            rotWork0 := s.regs.rotSeed0
            rotWork1 := s.regs.rotSeed1
            rotWork2 := s.regs.rotSeed2
            rotState := 0
            rotCount := s.regs.len
            rotFudge := 0 }
          m
      ∧ (∀ k < s.regs.len.toNat,
          m.read (s.regs.addr.toNat + k) =
            s.mem.read (s.regs.addr.toNat + k)
              ^^^ (if s.regs.ctrl.rotHi then (acc (k + 1)).extractLsb' 24 8 else (acc (k + 1)).extractLsb' 16 8))
      ∧ sameOutside s.mem m s.regs.addr.toNat s.regs.len.toNat

/-- ROTXOR over any region that fits, for any segment lengths: the region is cut into segments of `ROT_LEN[i] + fudge` bytes,
1 where that is 0, keyed by the three registers in turn, each going on from where its last segment left it, and `fudge` rising
with every cycle (43_rotxor.md R183). `o` bytes into segment `j` the result registers hold the active accumulator, each
register as last saved, `j mod 3`, `o` and `j / 3` (R184). So a full cycle of one-byte segments saves each register after one
draw, and raises the fudge. -/
def Obligations.RotxorCycleSavesEveryRegister : Prop :=
  (∀ s : State, s.mem.wf → (s.regs.len = 0 ∨ s.regs.addr.toNat + s.regs.len.toNat ≤ s.impl.bufSize) →
    let key (w : Word) : Byte := if s.regs.ctrl.rotHi then w.extractLsb' 24 8 else w.extractLsb' 16 8
    ∃ j o m, o < segmentLength s.regs j ∧ segmentStart s.regs j + o = s.regs.len.toNat
      ∧ exec .rotxor s =
          completesWith s
            { s.regs with
              lcgAcc := rotAccAt s.regs (j % 3) j o
              rotWork0 := rotAccAt s.regs 0 j 0
              rotWork1 := rotAccAt s.regs 1 j 0
              rotWork2 := rotAccAt s.regs 2 j 0
              rotState := BitVec.ofNat 2 (j % 3)
              rotCount := BitVec.ofNat 32 o
              rotFudge := BitVec.ofNat 32 (j / 3) }
            m
      ∧ (∀ j' o' : Nat, o' < segmentLength s.regs j' → segmentStart s.regs j' + o' < s.regs.len.toNat →
          let a := s.regs.addr.toNat + segmentStart s.regs j' + o'
          m.read a = s.mem.read a ^^^ key (rotAccAt s.regs (j' % 3) j' (o' + 1)))
      ∧ sameOutside s.mem m s.regs.addr.toNat s.regs.len.toNat)
  ∧ ∀ s : State, s.mem.wf → s.regs.len = 3 → s.regs.addr.toNat + 3 ≤ s.impl.bufSize →
    s.regs.rotLen0.toNat ≤ 1 → s.regs.rotLen1.toNat ≤ 1 → s.regs.rotLen2.toNat ≤ 1 →
    let next (w : Word) : Word := s.regs.lcgMul * w + s.regs.lcgInc
    let key (w : Word) : Byte := if s.regs.ctrl.rotHi then w.extractLsb' 24 8 else w.extractLsb' 16 8
    let a := s.regs.addr.toNat
    ∃ m, exec .rotxor s =
        completesWith s
          { s.regs with
            lcgAcc := next s.regs.rotSeed0
            rotWork0 := next s.regs.rotSeed0
            rotWork1 := next s.regs.rotSeed1
            rotWork2 := next s.regs.rotSeed2
            rotState := 0
            rotCount := 0
            rotFudge := 1 }
          m
      ∧ m.read a = s.mem.read a ^^^ key (next s.regs.rotSeed0)
      ∧ m.read (a + 1) = s.mem.read (a + 1) ^^^ key (next s.regs.rotSeed1)
      ∧ m.read (a + 2) = s.mem.read (a + 2) ^^^ key (next s.regs.rotSeed2)
      ∧ sameOutside s.mem m a 3

/-- ROTXOR completes over any region that fits, changing no byte outside it, and a second ROTXOR with the seeds left in
place restores the region. -/
def Obligations.RotxorIsItsOwnInverse : Prop :=
  ∀ s : State, s.mem.wf → (s.regs.len = 0 ∨ s.regs.addr.toNat + s.regs.len.toNat ≤ s.impl.bufSize) →
    ∃ t u, exec .rotxor s = .next t ∧ t.regs.status = completed s.regs.status ∧ t.regs.errInfo = s.regs.errInfo
      ∧ sameOutside s.mem t.mem s.regs.addr.toNat s.regs.len.toNat
      ∧ exec .rotxor t = .next u ∧ sameMemory s.mem u.mem

/-! ## Checksums -/

/-- CSUM: the length check, and otherwise both accumulators over the region's words, memory only read. -/
def Obligations.CsumAccumulatesOverTheWords : Prop :=
  ∀ s : State,
    (s.regs.len.toNat % 4 ≠ 0 → exec .csum s = failsWith s 3 s.regs.len)
    ∧ (s.regs.len.toNat % 4 = 0 → (s.regs.len = 0 ∨ s.regs.addr.toNat + s.regs.len.toNat ≤ s.impl.bufSize) →
        let words :=
          (List.range (s.regs.len.toNat / 4)).map fun k =>
            load32 s.regs.ctrl.endian s.mem (s.regs.addr.toNat + 4 * k)
        exec .csum s =
          completesWith s
            { s.regs with
              csumSum := s.regs.csumSum - words.foldr (· + ·) 0
              csumXor := words.foldr (fun w x => x ^^^ ~~~w) s.regs.csumXor }
            s.mem)

/-- CSUM over two adjacent parts is CSUM over the whole. -/
def Obligations.CsumSplitsIntoAdjacentParts : Prop :=
  ∀ (s : State) (n1 n2 : Word), n1.toNat % 4 = 0 → n2.toNat % 4 = 0 → n1.toNat + n2.toNat = s.regs.len.toNat →
    s.regs.addr.toNat + s.regs.len.toNat ≤ s.impl.bufSize → s.regs.addr.toNat + n1.toNat < 2 ^ 32 →
    ∃ whole first second,
      exec .csum s = .next whole
      ∧ exec .csum { s with regs := { s.regs with len := n1 } } = .next first
      ∧ exec .csum { first with regs := { first.regs with addr := s.regs.addr + n1, len := n2 } } = .next second
      ∧ second.regs.csumSum = whole.regs.csumSum ∧ second.regs.csumXor = whole.regs.csumXor

/-- ADLER32 over any region that fits: both sums modulo 65521, byte by byte, and an empty region keeps `ADLER`. -/
def Obligations.Adler32SumsTheBytes : Prop :=
  ∀ s : State, (s.regs.len = 0 ∨ s.regs.addr.toNat + s.regs.len.toNat ≤ s.impl.bufSize) →
    let bytes := (List.range s.regs.len.toNat).map fun k => (s.mem.read (s.regs.addr.toNat + k)).toNat
    let start : Nat × Nat := (s.regs.adler.toNat % 2 ^ 16, s.regs.adler.toNat / 2 ^ 16)
    let result :=
      bytes.foldl (fun (ab : Nat × Nat) v => ((ab.1 + v) % 65521, (ab.2 + (ab.1 + v) % 65521) % 65521)) start
    exec .adler32 s =
      completesWith s { s.regs with adler := BitVec.ofNat 32 (result.2 * 2 ^ 16 + result.1) } s.mem

/-- CHECK, for each of its eight words, reports every selected comparison that fails, or completes. -/
def Obligations.CheckReportsEveryMismatch : Prop :=
  ∀ (s : State) (cSum cXor cAdl : Bool),
    let flags := cSum.toNat + 2 * cXor.toNat + 4 * cAdl.toNat
    let failedSum : Bool := cSum && decide (s.regs.csumSum ≠ s.regs.expSum)
    let failedXor : Bool := cXor && decide (s.regs.csumXor ≠ s.regs.expXor)
    let failedAdl : Bool := cAdl && decide (s.regs.adler ≠ s.regs.expAdler)
    decodeCommand (BitVec.ofNat 32 (0x22 + 2 ^ 8 * flags)) = .ok (.check cSum cXor cAdl)
    ∧ exec (.check cSum cXor cAdl) s =
      if failedSum || failedXor || failedAdl then
        failsWith s 6 (BitVec.ofNat 32 (failedSum.toNat + 2 * failedXor.toNat + 4 * failedAdl.toNat))
      else completesWith s s.regs s.mem

/-! ## UNGLAZE -/

/-- UNGLAZE's checks before it reads a byte: both regions, then their overlap; its result registers keep their values. -/
def Obligations.UnglazeChecksItsRegionsFirst : Prop :=
  ∀ s : State,
    let r := s.regs
    let srcFits := r.len = 0 ∨ r.addr.toNat + r.len.toNat ≤ s.impl.bufSize
    let dstFits := r.dstCap = 0 ∨ r.dst.toNat + r.dstCap.toNat ≤ s.impl.bufSize
    (¬srcFits → exec .unglaze s = failsWith s 4 r.addr)
    ∧ (srcFits → ¬dstFits → exec .unglaze s = failsWith s 4 r.dst)
    ∧ (srcFits → dstFits → r.len ≠ 0 → r.dstCap ≠ 0 → r.addr.toNat < r.dst.toNat + r.dstCap.toNat →
        r.dst.toNat < r.addr.toNat + r.len.toNat → exec .unglaze s = failsWith s 5 r.dst)

/-- UNGLAZE's header validation, cumulative and exact, and then the destination's capacity; past it, no size error. -/
def Obligations.UnglazeValidatesItsHeader : Prop :=
  ∀ s : State,
    let r := s.regs
    let L := r.len.toNat
    let field (p : Nat) : Nat := (load32 r.ctrl.endian s.mem (r.addr.toNat + p)).toNat
    let outLen := field 0
    let bsEnd := 8 + field 4
    let dictEnd := bsEnd + 4 + field bsEnd
    let ltEnd := dictEnd + 4 + field dictEnd
    let fails (o info : Nat) : Prop := exec .unglaze s = glazeFailsWith s 7 (BitVec.ofNat 32 info) (BitVec.ofNat 32 o) 0
    Accepted s →
    (r.len = 0 ∨ r.addr.toNat + L ≤ s.impl.bufSize) →
    (r.dstCap = 0 ∨ r.dst.toNat + r.dstCap.toNat ≤ s.impl.bufSize) →
    (r.len = 0 ∨ r.dstCap = 0 ∨ r.dst.toNat + r.dstCap.toNat ≤ r.addr.toNat ∨ r.addr.toNat + L ≤ r.dst.toNat) →
    if L < 8 then fails 0 8
    else if L < bsEnd + 4 then fails outLen (bsEnd + 4)
    else if L < dictEnd + 4 then fails outLen (dictEnd + 4)
    else if L < ltEnd then fails outLen ltEnd
    else if r.dstCap.toNat < outLen then fails outLen outLen
    else ∃ t, exec .unglaze s = .next t ∧ t.regs.glzOutLen = BitVec.ofNat 32 outLen ∧ t.regs.status.errCode ≠ 7

/-- UNGLAZE always ends, in a success with the whole declared output or in one of its errors, and nothing of its internal
state stays. -/
def Obligations.UnglazeAlwaysEnds : Prop :=
  ∀ s : State, Accepted s →
    ∃ t, exec .unglaze s = .next t
      ∧ t.regs.status.busy = false ∧ t.regs.status.done = true ∧ t.glaze = none
      ∧ (t.regs.status.err = false → t.regs.status.errCode = 0 ∧ t.regs.glzPos = t.regs.glzOutLen)
      ∧ (t.regs.status.err = true → t.regs.status.errCode.toNat ∈ [4, 5, 7, 8, 9, 10])

/-- UNGLAZE writes only the declared output: no byte outside `DST .. DST + outlen − 1` changes, in success or error. -/
def Obligations.UnglazeWritesOnlyTheDeclaredOutput : Prop :=
  ∀ s t : State, exec .unglaze s = .next t →
    sameOutside s.mem t.mem s.regs.dst.toNat
        (min s.regs.dstCap.toNat (load32 s.regs.ctrl.endian s.mem s.regs.addr.toNat).toNat)
    ∧ ∀ k < s.regs.len.toNat, t.mem.read (s.regs.addr.toNat + k) = s.mem.read (s.regs.addr.toNat + k)

/-- A literal-only stream decodes to its input, in either byte order and bit order: UNGLAZE completes with the input at
`DST`. -/
def Obligations.UnglazeDecodesLiteralStreams : Prop :=
  ∀ (s : State) (input : List Byte), s.mem.wf →
    let image := literalStream s.regs.ctrl.endian s.regs.ctrl.glzLsbf input
    s.regs.len.toNat = image.length →
    (∀ k < image.length, s.mem.read (s.regs.addr.toNat + k) = image.getD k 0) →
    s.regs.addr.toNat + image.length ≤ s.impl.bufSize →
    input.length ≤ s.regs.dstCap.toNat → s.regs.dst.toNat + s.regs.dstCap.toNat ≤ s.impl.bufSize →
    (s.regs.dst.toNat + s.regs.dstCap.toNat ≤ s.regs.addr.toNat
      ∨ s.regs.addr.toNat + image.length ≤ s.regs.dst.toNat) →
    ∃ m, exec .unglaze s =
        completesWith s
          { s.regs with glzOutLen := BitVec.ofNat 32 input.length, glzPos := BitVec.ofNat 32 input.length } m
      ∧ (∀ k < input.length, m.read (s.regs.dst.toNat + k) = input.getD k 0)
      ∧ sameOutside s.mem m s.regs.dst.toNat input.length

/-! ## The Glaze operations -/

/-- `LIT`, `LITS` and `LITL`, over cursors standing in the state (log 9), copy their dictionary bytes to the output and change
no other byte. -/
def Obligations.GlazeLiteralsEmitDictionaryBytes : Prop :=
  ∀ (s : State) (g : GlazeDecode), Decodes s g → s.mem.wf →
    let emits (i : Instr) (n : Nat) (g' : GlazeDecode) : Prop :=
      g.pos + n ≤ g.outLen → g.dictPos + n ≤ g.dictEnd →
      ∃ m, exec i s = .next { s with mem := m, glaze := some { g' with dictPos := g.dictPos + n, pos := g.pos + n } }
        ∧ (∀ k < n, m.read (s.regs.dst.toNat + g.pos + k) = s.mem.read (s.regs.addr.toNat + g.dictPos + k))
        ∧ sameOutside s.mem m (s.regs.dst.toNat + g.pos) n
    emits .lit 1 g
    ∧ (∀ l, emits (.lits l) (l + 8) g)
    ∧ (g.ltPos < g.ltEnd →
        emits .litl ((s.mem.read (s.regs.addr.toNat + g.ltPos)).toNat + 14) { g with ltPos := g.ltPos + 1 })

/-- The back-references, over cursors standing in the state (log 9), copy upwards, a byte at a time: each output byte equals
the one `dist` before it in the new output, so a distance below the count repeats. Nothing else changes. -/
def Obligations.GlazeReferencesCopyEarlierOutput : Prop :=
  ∀ (s : State) (g : GlazeDecode), Decodes s g → s.mem.wf →
    let copies (i : Instr) (dist n : Nat) (g' : GlazeDecode) : Prop :=
      g.pos + n ≤ g.outLen → 1 ≤ dist → dist ≤ g.pos →
      ∃ m, exec i s = .next { s with mem := m, glaze := some { g' with pos := g.pos + n } }
        ∧ (∀ k < n, m.read (s.regs.dst.toNat + g.pos + k) = m.read (s.regs.dst.toNat + g.pos + k - dist))
        ∧ sameOutside s.mem m (s.regs.dst.toNat + g.pos) n
    let dictByte := (s.mem.read (s.regs.addr.toNat + g.dictPos)).toNat
    (∀ d, copies (.ref1 d) d 1 g)
    ∧ (∀ d l, copies (.ref d l) (d + l) (l + 1) g)
    ∧ (∀ l, g.dictPos < g.dictEnd → copies (.refd l) (dictByte + l) (l + 1) { g with dictPos := g.dictPos + 1 })
    ∧ ∀ l dh, g.dictPos < g.dictEnd →
        copies (.refw l dh) (dh * 256 + dictByte + l) (l + 1) { g with dictPos := g.dictPos + 1 }

/-- The errors of the Glaze operations, over cursors standing in the state (log 9), in the order of their checks, with no
output byte written: an exhausted dictionary or length table and an output past the declared length raise `ERR_GLZ_OVF`, a
distance of 0 or before the first output byte raises `ERR_GLZ_DIST`. -/
def Obligations.GlazeOperationsCheckBeforeTheyWrite : Prop :=
  ∀ (s : State) (g : GlazeDecode), Decodes s g →
    let raises (i : Instr) (number : Byte) : Prop :=
      exec i s = glazeFailsWith s number (BitVec.ofNat 32 g.pos) (BitVec.ofNat 32 g.outLen) (BitVec.ofNat 32 g.pos)
    let dictByte := (s.mem.read (s.regs.addr.toNat + g.dictPos)).toNat
    let ltByte := (s.mem.read (s.regs.addr.toNat + g.ltPos)).toNat
    let literalRaises (i : Instr) (n : Nat) : Prop :=
      (g.outLen < g.pos + n ∨ g.dictEnd < g.dictPos + n) → raises i 8
    let copyRaises (i : Instr) (dist n : Nat) : Prop :=
      (g.outLen < g.pos + n → raises i 8)
      ∧ (g.pos + n ≤ g.outLen → (dist = 0 ∨ g.pos < dist) → raises i 10)
    literalRaises .lit 1
    ∧ (∀ l, literalRaises (.lits l) (l + 8))
    ∧ (g.ltEnd ≤ g.ltPos → raises .litl 8)
    ∧ (g.ltPos < g.ltEnd → literalRaises .litl (ltByte + 14))
    ∧ (∀ d, copyRaises (.ref1 d) d 1)
    ∧ (∀ d l, copyRaises (.ref d l) (d + l) (l + 1))
    ∧ (∀ l, g.dictEnd ≤ g.dictPos → raises (.refd l) 8)
    ∧ (∀ l, g.dictPos < g.dictEnd → copyRaises (.refd l) (dictByte + l) (l + 1))
    ∧ (∀ l dh, g.dictEnd ≤ g.dictPos → raises (.refw l dh) 8)
    ∧ ∀ l dh, g.dictPos < g.dictEnd → copyRaises (.refw l dh) (dh * 256 + dictByte + l) (l + 1)

/-- Bit `b` of the stream is bit 7 − b mod 8 of byte b / 8, or bit b mod 8 with `GLZ_LSBF` (45_glaze.md R235), and the
decoder sees the bits from the cursor to the end of the bitstream region, up to the longest operation (log 19). -/
def Obligations.BitstreamIsReadInItsBitOrder : Prop :=
  ∀ (s : State) (g : GlazeDecode) (k : Nat), k < maxGlazeBits →
    let b := g.bitPos + k
    let byte := s.mem.read (s.regs.addr.toNat + b / 8)
    (upcomingBits g s)[k]? =
      if b < g.bitEnd then some (byte.getLsbD (if s.regs.ctrl.glzLsbf then b % 8 else 7 - b % 8)) else none

/-! ## All commands -/

/-- Every command ends in one step, with `BUSY` = 0 and `DONE` = 1, the sticky flags as they were, and, when it succeeds,
`ERRINFO` as it was and `ERRCODE` 0. -/
def Obligations.EveryCommandEnds : Prop :=
  ∀ (i : Instr) (s : State), isCommand i = true → Accepted s →
    ∃ t, exec i s = .next t ∧ t.regs.status.busy = false ∧ t.regs.status.done = true ∧ t.glaze = none
      ∧ t.regs.status.cmdOvr = s.regs.status.cmdOvr ∧ t.regs.status.wrBusy = s.regs.status.wrBusy
      ∧ (t.regs.status.err = false → t.regs.errInfo = s.regs.errInfo ∧ t.regs.status.errCode = 0)

/-- A command writes no register but its own results, `STATUS` and `ERRINFO` (10_state.md R45); a Glaze operation none but
UNGLAZE's. So the registers R21 marks "never" are never written. -/
def Obligations.CommandsWriteOnlyTheirResults : Prop :=
  ∀ (i : Instr) (s t : State) (name : RegName), exec i s = .next t → name ∉ resultRegisters i → name ≠ .status →
    name ≠ .errInfo → readRegister t.regs name = readRegister s.regs name

/-- A command touches no buffer byte outside its regions, and writes none at all unless it is BITPERM, FENCE, ROTXOR or
UNGLAZE. -/
def Obligations.CommandsStayInTheirRegions : Prop :=
  ∀ (i : Instr) (s t : State), isCommand i = true → exec i s = .next t →
    (∀ a, inRegions (regionsOf i s.regs) a = false → t.mem.read a = s.mem.read a)
    ∧ (i ∈ [.nop, .lcgNext15, .lcgNext16, .csum, .adler32] ∨ (∃ a b c, i = .check a b c) → t.mem = s.mem)

/-- An error of any command but UNGLAZE leaves memory and every register except `STATUS` and `ERRINFO` unchanged. -/
def Obligations.FailedCommandsChangeNothingElse : Prop :=
  ∀ (i : Instr) (s t : State), isCommand i = true → i ≠ .unglaze → s.regs.status.err = false →
    exec i s = .next t → t.regs.status.err = true →
    ∃ number, number ∈ [2, 3, 4, 6] ∧ exec i s = failsWith s (BitVec.ofNat 8 number) t.regs.errInfo

/-! ## The host -/

/-- A host write of an accepted `CMD` word starts the command: `CMD` holds it, `BUSY` is set, `DONE`, `ERR` and `ERRCODE`
are cleared, nothing else changes. -/
def Obligations.CmdWriteStartsACommand : Prop :=
  ∀ (s : State) (v : Word) (rest : List Turn), s.regs.status.busy = false →
    s.agenda = .host (.writeReg 4 0x00C v) :: rest →
    step s =
      .next
        { s with
          agenda := rest
          regs :=
            { s.regs with
              cmd := v
              status := { s.regs.status with busy := true, done := false, err := false, errCode := 0 } } }

/-- A host write to `STATUS` clears the flags whose bits are 1, `ERRCODE` with `ERR`, busy or not. -/
def Obligations.StatusWritesClearFlags : Prop :=
  ∀ (s : State) (v : Word) (rest : List Turn), s.agenda = .host (.writeReg 4 0x008 v) :: rest →
    let t := s.regs.status
    step s =
      .next
        { s with
          agenda := rest
          regs :=
            { s.regs with
              status :=
                { busy := t.busy
                  done := if v.getLsbD 1 then false else t.done
                  err := if v.getLsbD 2 then false else t.err
                  errCode := if v.getLsbD 2 then 0 else t.errCode
                  cmdOvr := if v.getLsbD 3 then false else t.cmdOvr
                  wrBusy := if v.getLsbD 4 then false else t.wrBusy } } }

/-- While busy, a host write to a register that is neither read-only nor `STATUS` is discarded and sets its flag:
`CMD_OVR` for `CMD`, `WR_BUSY` for another. -/
def Obligations.WritesWhileBusyAreDiscarded : Prop :=
  ∀ (s : State) (offset : BitVec 12) (name : RegName) (v : Word) (rest : List Turn), s.regs.status.busy = true →
    registerAt offset = some name → readOnly name = false → name ≠ .status →
    s.agenda = .host (.writeReg 4 offset v) :: rest →
    step s =
      .next
        { s with
          agenda := rest
          regs :=
            { s.regs with
              status :=
                if name = .cmd then { s.regs.status with cmdOvr := true } else { s.regs.status with wrBusy := true } } }

/-- Reserved offsets read as 0 and ignore writes; the read-only registers ignore writes, and `ID` reads 0x47555354; busy or
not, and with no status bit set. That reserved offsets read 0 also while busy is the reading of log 17. -/
def Obligations.ReservedAndReadOnlyOffsetsIgnoreWrites : Prop :=
  ∀ (s : State) (offset : BitVec 12) (v : Word) (rest : List Turn), offset.toNat % 4 = 0 →
    ((0x08C ≤ offset.toNat
        ∨ offset.toNat ∈ [0x000, 0x010, 0x020, 0x054, 0x058, 0x05C, 0x060, 0x064, 0x068, 0x084, 0x088]) →
      s.agenda = .host (.writeReg 4 offset v) :: rest → step s = .next { s with agenda := rest })
    ∧ (0x08C ≤ offset.toNat →
      s.agenda = .host (.readReg 4 offset) :: rest → step s = .next { s with agenda := rest, readData := 0 })
    ∧ (offset = 0x000 →
      s.agenda = .host (.readReg 4 offset) :: rest → step s = .next { s with agenda := rest, readData := 0x47555354 })

/-- While idle, a value written to a register and read back is the value, less the bits the register does not store, and
the write changes no other register. -/
def Obligations.RegistersReadBackWhatWasWritten : Prop :=
  ∀ (s : State) (offset : BitVec 12) (name : RegName) (v : Word) (rest : List Turn), s.regs.status.busy = false →
    registerAt offset = some name → readOnly name = false → name ≠ .status → name ≠ .cmd →
    s.agenda = .host (.writeReg 4 offset v) :: .host (.readReg 4 offset) :: rest →
    ∃ t u, step s = .next t ∧ step t = .next u
      ∧ (∀ other, other ≠ name → readRegister t.regs other = readRegister s.regs other)
      ∧ u.regs = t.regs ∧ t.mem = s.mem ∧ u.mem = s.mem ∧ u.agenda = rest
      ∧ u.readData = if name = .ctrl then v &&& 0x000003FF else if name = .fence then v &&& 0x0000FFFF else v

/-- A host read changes nothing but the value it answers: the register's own value while idle and for `ID`, `CTRL`,
`STATUS` and `CMD`, some value (free, log 6) for another register while busy. -/
def Obligations.RegisterReadsHaveNoSideEffect : Prop :=
  ∀ (s : State) (offset : BitVec 12) (name : RegName) (rest : List Turn), registerAt offset = some name →
    s.agenda = .host (.readReg 4 offset) :: rest →
    ∃ value count, step s = .next { s with agenda := rest, readData := value, freeCount := count }
      ∧ (s.regs.status.busy = false ∨ name ∈ [.id, .ctrl, .status, .cmd] →
          value = readRegister s.regs name ∧ count = s.freeCount)

/-- `STATUS` and `CTRL` read with each field at its bit and reserved bits 0. -/
def Obligations.StatusAndCtrlReadFieldByField : Prop :=
  ∀ r : Regs,
    (readRegister r .status).toNat =
        r.status.busy.toNat + 2 * r.status.done.toNat + 4 * r.status.err.toNat + 8 * r.status.cmdOvr.toNat
          + 16 * r.status.wrBusy.toNat + 2 ^ 8 * r.status.errCode.toNat
    ∧ (readRegister r .ctrl).toNat =
        r.ctrl.endian.toNat + 2 * r.ctrl.ieDone.toNat + 4 * r.ctrl.ieErr.toNat + 8 * r.ctrl.n15sel.toNat
          + 16 * r.ctrl.bpD16.toNat + 32 * r.ctrl.bpShift.toNat + 64 * r.ctrl.bpSlide.toNat
          + 128 * r.ctrl.fxYall.toNat + 256 * r.ctrl.rotHi.toNat + 512 * r.ctrl.glzLsbf.toNat

/-- Register accesses of another width or at a misaligned offset, and buffer accesses outside the buffer, are refused. The
names of the refusals are the model's (log 13). -/
def Obligations.MeaninglessHostAccessesAreRefused : Prop :=
  ∀ (s : State) (rest : List Turn),
    (∀ (bytes : Nat) (offset : BitVec 12) (v : Word), (bytes ≠ 4 ∨ offset.toNat % 4 ≠ 0) →
      (s.agenda = .host (.writeReg bytes offset v) :: rest ∨ s.agenda = .host (.readReg bytes offset) :: rest) →
      step s = .refused .badRegisterAccess)
    ∧ ∀ (a : Word) (b : Byte), s.impl.bufSize ≤ a.toNat →
        (s.agenda = .host (.writeByte a b) :: rest ∨ s.agenda = .host (.readByte a) :: rest) →
        step s = .refused .outsideBuffer

/-- The host's buffer accesses are plain memory at any byte outside the running command's regions. At a byte inside them a
write stores nothing and marks the command spoiled, the model's own field (log 11), whose end
is `SpoiledCommandsTouchOnlyTheirRegions`; a read changes only the answer, which is some byte (free, log 6). -/
def Obligations.HostBytesReadBackWhatWasWritten : Prop :=
  ∀ (s : State) (a : Word) (v : Byte) (rest : List Turn), a.toNat < s.impl.bufSize →
    (s.mem.wf → inRegions (runningRegions s) a.toNat = false →
      s.agenda = .host (.writeByte a v) :: .host (.readByte a) :: rest →
      ∃ m, m.read a.toNat = v ∧ (∀ b, b ≠ a.toNat → m.read b = s.mem.read b)
        ∧ step s = .next { s with mem := m, agenda := .host (.readByte a) :: rest }
        ∧ step { s with mem := m, agenda := .host (.readByte a) :: rest } =
            .next { s with mem := m, agenda := rest, readData := v.setWidth 32 })
    ∧ (inRegions (runningRegions s) a.toNat = true →
      (s.agenda = .host (.writeByte a v) :: rest → step s = .next { s with agenda := rest, spoiled := true })
      ∧ (s.agenda = .host (.readByte a) :: rest →
        ∃ value count, value.toNat < 2 ^ 8
          ∧ step s = .next { s with agenda := rest, readData := value, freeCount := count }))

/-- A host write into the running command's regions leaves bytes outside them, and registers that are no result of the
command, to the command: the step that ends it changes no such byte and no such register (70_reset_and_hazards.md R331, as
log 11 reads it). -/
def Obligations.SpoiledCommandsTouchOnlyTheirRegions : Prop :=
  ∀ (s t : State) (i : Instr), s.agenda = [] → s.spoiled = true → s.glaze = none → s.regs.status.busy = true →
    decodeCommand s.regs.cmd = .ok i → step s = .next t →
    (∀ a, inRegions (regionsOf i s.regs) a = false → t.mem.read a = s.mem.read a)
    ∧ (∀ name, name ∉ resultRegisters i → name ≠ .status → name ≠ .errInfo →
        readRegister t.regs name = readRegister s.regs name)
    ∧ t.spoiled = false ∧ t.regs.status.busy = false ∧ t.regs.status.done = true

/-- The reset input gives every register its reset value and deasserts `IRQ`, so that an unseeded generator steps to
`LCG_INC` and BITPERM and FENCE fail; it leaves buffer memory alone but for the regions of a command it abandons. The
state the machine starts from has the same register values. -/
def Obligations.ResetRestoresTheRegisters : Prop :=
  (∀ name, readRegister State.reset.regs name = resetValue State.reset.impl name)
  ∧ ∀ (s : State) (rest : List Turn), s.agenda = .host .reset :: rest →
      ∃ t, step s = .next t
        ∧ (∀ name, readRegister t.regs name = resetValue s.impl name)
        ∧ t.regs.status.busy = false ∧ t.glaze = none ∧ irq t.regs = false ∧ t.agenda = rest
        ∧ (∀ a, inRegions (runningRegions s) a = false → t.mem.read a = s.mem.read a)
        ∧ (s.regs.status.busy = false → t.mem = s.mem)
        ∧ (∀ acc, lcgStep t.regs.lcgMul t.regs.lcgInc acc = t.regs.lcgInc)
        ∧ (∀ dir, exec (.bitperm dir) t = failsWith t 2 0) ∧ ∀ dir xf, exec (.fence dir xf) t = failsWith t 2 0

/-- The interrupt level through a command: after it ends, `IRQ` is `IE_DONE`, or with an error also `IE_ERR`; the next
accepted command deasserts it. -/
def Obligations.InterruptFollowsCompletionAndError : Prop :=
  (∀ (i : Instr) (s t : State), isCommand i = true → Accepted s → exec i s = .next t →
    irq t.regs = (s.regs.ctrl.ieDone || (t.regs.status.err && s.regs.ctrl.ieErr)))
  ∧ ∀ (v : Word) (s : State), irq (acceptCommand v s).regs = false

/-! ## Invariants -/

/-- The reset state is sound. So is what power-on leaves, from any state: every register at its reset value, `IRQ`
deasserted, nothing running, and each byte of the buffer unspecified, that is the next of the free bytes (log 6). That power-on
is an operation of its own and gives the registers their reset values is the reading of log 4. -/
def Obligations.ResetStateIsSound : Prop :=
  Sound State.reset
  ∧ ∀ (s : State) (rest : List Turn), s.agenda = .host .powerOn :: rest →
      ∃ t, step s = .next t ∧ Sound t
        ∧ (∀ name, readRegister t.regs name = resetValue s.impl name)
        ∧ t.regs.status.busy = false ∧ irq t.regs = false ∧ t.spoiled = false
        ∧ (∀ a < s.impl.bufSize, t.mem.read a = Config.freeByte (s.freeCount + a))
        ∧ t.freeCount = s.freeCount + s.impl.bufSize ∧ t.impl = s.impl ∧ t.agenda = rest
        ∧ t.readData = s.readData

/-- Every step keeps the state sound: a host access, a reset, a power-on, a command, a spoiled command. And from a sound
state the engine neither faults nor refuses. Of what soundness says, `spoiled_runs` is the model's own (log 11). -/
def Obligations.SoundnessIsKept : Prop :=
  (∀ s t : State, Sound s → step s = .next t → Sound t)
  ∧ ∀ s : State, Sound s → (s.agenda = [] ∨ ∃ rest, s.agenda = .engine :: rest) → ∃ t, step s = .next t

/-- No step changes the implementation's parameters (log 1), and a step takes at most the first turn off the agenda, the
model's own field (log 7). -/
def Obligations.StepsKeepTheImplementation : Prop :=
  ∀ s t : State, step s = .next t → t.impl = s.impl ∧ t.agenda = s.agenda.tail

/-! ## UNGLAZE as its operations -/

/-- Past its checks, UNGLAZE is the iteration of fetching an operation and running it: from the cursors of the header
(45_glaze.md R234), turn after turn, until a turn ends the command and the cursors are gone; after at most `outlen + 1` turns
UNGLAZE ends in the very state that this ends in (R241). The turns are what the engine's steps do in states with cursors
standing, which is the model's choice (logs 9 and 19). -/
def Obligations.UnglazeIteratesFetchAndExec : Prop :=
  ∀ s : State,
    let r := s.regs
    let field (p : Nat) : Nat := (load32 r.ctrl.endian s.mem (r.addr.toNat + p)).toNat
    let bsEnd := 8 + field 4
    let dictEnd := bsEnd + 4 + field bsEnd
    let ltEnd := dictEnd + 4 + field dictEnd
    (r.len = 0 ∨ r.addr.toNat + r.len.toNat ≤ s.impl.bufSize) →
    (r.dstCap = 0 ∨ r.dst.toNat + r.dstCap.toNat ≤ s.impl.bufSize) →
    (r.len = 0 ∨ r.dstCap = 0 ∨ r.dst.toNat + r.dstCap.toNat ≤ r.addr.toNat
      ∨ r.addr.toNat + r.len.toNat ≤ r.dst.toNat) →
    8 ≤ r.len.toNat → bsEnd + 4 ≤ r.len.toNat → dictEnd + 4 ≤ r.len.toNat → ltEnd ≤ r.len.toNat →
    field 0 ≤ r.dstCap.toNat →
    ∃ (turns : Nat) (state : Nat → State), turns ≤ field 0 + 1
      ∧ state 0 =
          { s with
            glaze :=
              some
                { outLen := field 0
                  bitPos := 64
                  bitEnd := 8 * bsEnd
                  dictPos := bsEnd + 4
                  dictEnd := dictEnd
                  ltPos := dictEnd + 4
                  ltEnd := ltEnd
                  pos := 0 } }
      ∧ (∀ k < turns,
          ((∃ i u, fetch (state k) = .run i u ∧ isGlazeOp i = true ∧ exec i u = .next (state (k + 1)))
            ∨ (fetch (state k) = .ended (state (k + 1)) ∧ k + 1 = turns))
          ∧ (state k).glaze ≠ none
          ∧ (EngineNext s → step (state k) = .next (state (k + 1))))
      ∧ (state turns).glaze = none
      ∧ exec .unglaze s = .next (state turns)
end

