-- ==== Sys2Proof/Laws/State.lean ====
section
/-! SUPPORT. One lemma per field and named update of the state, and per field and shared ending of a command, each true by
rfl, so that no proof unfolds a record update. -/

namespace Sys2Proof.Machine

/-! ## The named updates of State -/

@[simp] theorem State.withRegs_impl (s : State) (v : Regs) : (s.withRegs v).impl = s.impl := rfl
@[simp] theorem State.withRegs_regs (s : State) (v : Regs) : (s.withRegs v).regs = v := rfl
@[simp] theorem State.withRegs_mem (s : State) (v : Regs) : (s.withRegs v).mem = s.mem := rfl
@[simp] theorem State.withRegs_glaze (s : State) (v : Regs) : (s.withRegs v).glaze = s.glaze := rfl
@[simp] theorem State.withRegs_spoiled (s : State) (v : Regs) : (s.withRegs v).spoiled = s.spoiled := rfl
@[simp] theorem State.withRegs_freeCount (s : State) (v : Regs) : (s.withRegs v).freeCount = s.freeCount := rfl
@[simp] theorem State.withRegs_readData (s : State) (v : Regs) : (s.withRegs v).readData = s.readData := rfl
@[simp] theorem State.withRegs_agenda (s : State) (v : Regs) : (s.withRegs v).agenda = s.agenda := rfl
@[simp] theorem State.withMem_impl (s : State) (v : Memory) : (s.withMem v).impl = s.impl := rfl
@[simp] theorem State.withMem_regs (s : State) (v : Memory) : (s.withMem v).regs = s.regs := rfl
@[simp] theorem State.withMem_mem (s : State) (v : Memory) : (s.withMem v).mem = v := rfl
@[simp] theorem State.withMem_glaze (s : State) (v : Memory) : (s.withMem v).glaze = s.glaze := rfl
@[simp] theorem State.withMem_spoiled (s : State) (v : Memory) : (s.withMem v).spoiled = s.spoiled := rfl
@[simp] theorem State.withMem_freeCount (s : State) (v : Memory) : (s.withMem v).freeCount = s.freeCount := rfl
@[simp] theorem State.withMem_readData (s : State) (v : Memory) : (s.withMem v).readData = s.readData := rfl
@[simp] theorem State.withMem_agenda (s : State) (v : Memory) : (s.withMem v).agenda = s.agenda := rfl
@[simp] theorem State.withGlaze_impl (s : State) (v : Option GlazeDecode) : (s.withGlaze v).impl = s.impl := rfl
@[simp] theorem State.withGlaze_regs (s : State) (v : Option GlazeDecode) : (s.withGlaze v).regs = s.regs := rfl
@[simp] theorem State.withGlaze_mem (s : State) (v : Option GlazeDecode) : (s.withGlaze v).mem = s.mem := rfl
@[simp] theorem State.withGlaze_glaze (s : State) (v : Option GlazeDecode) : (s.withGlaze v).glaze = v := rfl
@[simp] theorem State.withGlaze_spoiled (s : State) (v : Option GlazeDecode) : (s.withGlaze v).spoiled = s.spoiled := rfl
@[simp] theorem State.withGlaze_freeCount (s : State) (v : Option GlazeDecode) : (s.withGlaze v).freeCount = s.freeCount := rfl
@[simp] theorem State.withGlaze_readData (s : State) (v : Option GlazeDecode) : (s.withGlaze v).readData = s.readData := rfl
@[simp] theorem State.withGlaze_agenda (s : State) (v : Option GlazeDecode) : (s.withGlaze v).agenda = s.agenda := rfl
@[simp] theorem State.withSpoiled_impl (s : State) (v : Bool) : (s.withSpoiled v).impl = s.impl := rfl
@[simp] theorem State.withSpoiled_regs (s : State) (v : Bool) : (s.withSpoiled v).regs = s.regs := rfl
@[simp] theorem State.withSpoiled_mem (s : State) (v : Bool) : (s.withSpoiled v).mem = s.mem := rfl
@[simp] theorem State.withSpoiled_glaze (s : State) (v : Bool) : (s.withSpoiled v).glaze = s.glaze := rfl
@[simp] theorem State.withSpoiled_spoiled (s : State) (v : Bool) : (s.withSpoiled v).spoiled = v := rfl
@[simp] theorem State.withSpoiled_freeCount (s : State) (v : Bool) : (s.withSpoiled v).freeCount = s.freeCount := rfl
@[simp] theorem State.withSpoiled_readData (s : State) (v : Bool) : (s.withSpoiled v).readData = s.readData := rfl
@[simp] theorem State.withSpoiled_agenda (s : State) (v : Bool) : (s.withSpoiled v).agenda = s.agenda := rfl
@[simp] theorem State.withFreeCount_impl (s : State) (v : Nat) : (s.withFreeCount v).impl = s.impl := rfl
@[simp] theorem State.withFreeCount_regs (s : State) (v : Nat) : (s.withFreeCount v).regs = s.regs := rfl
@[simp] theorem State.withFreeCount_mem (s : State) (v : Nat) : (s.withFreeCount v).mem = s.mem := rfl
@[simp] theorem State.withFreeCount_glaze (s : State) (v : Nat) : (s.withFreeCount v).glaze = s.glaze := rfl
@[simp] theorem State.withFreeCount_spoiled (s : State) (v : Nat) : (s.withFreeCount v).spoiled = s.spoiled := rfl
@[simp] theorem State.withFreeCount_freeCount (s : State) (v : Nat) : (s.withFreeCount v).freeCount = v := rfl
@[simp] theorem State.withFreeCount_readData (s : State) (v : Nat) : (s.withFreeCount v).readData = s.readData := rfl
@[simp] theorem State.withFreeCount_agenda (s : State) (v : Nat) : (s.withFreeCount v).agenda = s.agenda := rfl
@[simp] theorem State.withReadData_impl (s : State) (v : Word) : (s.withReadData v).impl = s.impl := rfl
@[simp] theorem State.withReadData_regs (s : State) (v : Word) : (s.withReadData v).regs = s.regs := rfl
@[simp] theorem State.withReadData_mem (s : State) (v : Word) : (s.withReadData v).mem = s.mem := rfl
@[simp] theorem State.withReadData_glaze (s : State) (v : Word) : (s.withReadData v).glaze = s.glaze := rfl
@[simp] theorem State.withReadData_spoiled (s : State) (v : Word) : (s.withReadData v).spoiled = s.spoiled := rfl
@[simp] theorem State.withReadData_freeCount (s : State) (v : Word) : (s.withReadData v).freeCount = s.freeCount := rfl
@[simp] theorem State.withReadData_readData (s : State) (v : Word) : (s.withReadData v).readData = v := rfl
@[simp] theorem State.withReadData_agenda (s : State) (v : Word) : (s.withReadData v).agenda = s.agenda := rfl
@[simp] theorem State.withAgenda_impl (s : State) (v : List Turn) : (s.withAgenda v).impl = s.impl := rfl
@[simp] theorem State.withAgenda_regs (s : State) (v : List Turn) : (s.withAgenda v).regs = s.regs := rfl
@[simp] theorem State.withAgenda_mem (s : State) (v : List Turn) : (s.withAgenda v).mem = s.mem := rfl
@[simp] theorem State.withAgenda_glaze (s : State) (v : List Turn) : (s.withAgenda v).glaze = s.glaze := rfl
@[simp] theorem State.withAgenda_spoiled (s : State) (v : List Turn) : (s.withAgenda v).spoiled = s.spoiled := rfl
@[simp] theorem State.withAgenda_freeCount (s : State) (v : List Turn) : (s.withAgenda v).freeCount = s.freeCount := rfl
@[simp] theorem State.withAgenda_readData (s : State) (v : List Turn) : (s.withAgenda v).readData = s.readData := rfl
@[simp] theorem State.withAgenda_agenda (s : State) (v : List Turn) : (s.withAgenda v).agenda = v := rfl

/-! ## Accepting, completing, failing, and the return from an error -/

@[simp] theorem acceptCommand_impl (v : Word) (s : State) : (acceptCommand v s).impl = s.impl := rfl
@[simp] theorem acceptCommand_mem (v : Word) (s : State) : (acceptCommand v s).mem = s.mem := rfl
@[simp] theorem acceptCommand_glaze (v : Word) (s : State) : (acceptCommand v s).glaze = s.glaze := rfl
@[simp] theorem acceptCommand_spoiled (v : Word) (s : State) : (acceptCommand v s).spoiled = s.spoiled := rfl
@[simp] theorem acceptCommand_freeCount (v : Word) (s : State) : (acceptCommand v s).freeCount = s.freeCount := rfl
@[simp] theorem acceptCommand_readData (v : Word) (s : State) : (acceptCommand v s).readData = s.readData := rfl
@[simp] theorem acceptCommand_agenda (v : Word) (s : State) : (acceptCommand v s).agenda = s.agenda := rfl
@[simp] theorem completeCommand_impl (s : State) : (completeCommand s).impl = s.impl := rfl
@[simp] theorem completeCommand_mem (s : State) : (completeCommand s).mem = s.mem := rfl
@[simp] theorem completeCommand_glaze (s : State) : (completeCommand s).glaze = none := rfl
@[simp] theorem completeCommand_spoiled (s : State) : (completeCommand s).spoiled = s.spoiled := rfl
@[simp] theorem completeCommand_freeCount (s : State) : (completeCommand s).freeCount = s.freeCount := rfl
@[simp] theorem completeCommand_readData (s : State) : (completeCommand s).readData = s.readData := rfl
@[simp] theorem completeCommand_agenda (s : State) : (completeCommand s).agenda = s.agenda := rfl
@[simp] theorem raiseError_impl (c : ErrorCode) (v : Word) (s : State) : (raiseError c v s).impl = s.impl := rfl
@[simp] theorem raiseError_mem (c : ErrorCode) (v : Word) (s : State) : (raiseError c v s).mem = s.mem := rfl
@[simp] theorem raiseError_glaze (c : ErrorCode) (v : Word) (s : State) : (raiseError c v s).glaze = none := rfl
@[simp] theorem raiseError_spoiled (c : ErrorCode) (v : Word) (s : State) : (raiseError c v s).spoiled = s.spoiled := rfl
@[simp] theorem raiseError_freeCount (c : ErrorCode) (v : Word) (s : State) : (raiseError c v s).freeCount = s.freeCount := rfl
@[simp] theorem raiseError_readData (c : ErrorCode) (v : Word) (s : State) : (raiseError c v s).readData = s.readData := rfl
@[simp] theorem raiseError_agenda (c : ErrorCode) (v : Word) (s : State) : (raiseError c v s).agenda = s.agenda := rfl
@[simp] theorem returnFromError_impl (v : Word) (s : State) : (returnFromError v s).impl = s.impl := rfl
@[simp] theorem returnFromError_mem (v : Word) (s : State) : (returnFromError v s).mem = s.mem := rfl
@[simp] theorem returnFromError_glaze (v : Word) (s : State) : (returnFromError v s).glaze = s.glaze := rfl
@[simp] theorem returnFromError_spoiled (v : Word) (s : State) : (returnFromError v s).spoiled = s.spoiled := rfl
@[simp] theorem returnFromError_freeCount (v : Word) (s : State) : (returnFromError v s).freeCount = s.freeCount := rfl
@[simp] theorem returnFromError_readData (v : Word) (s : State) : (returnFromError v s).readData = s.readData := rfl
@[simp] theorem returnFromError_agenda (v : Word) (s : State) : (returnFromError v s).agenda = s.agenda := rfl
@[simp] theorem glazeResults_impl (n p : Nat) (s : State) : (glazeResults n p s).impl = s.impl := rfl
@[simp] theorem glazeResults_mem (n p : Nat) (s : State) : (glazeResults n p s).mem = s.mem := rfl
@[simp] theorem glazeResults_glaze (n p : Nat) (s : State) : (glazeResults n p s).glaze = s.glaze := rfl
@[simp] theorem glazeResults_spoiled (n p : Nat) (s : State) : (glazeResults n p s).spoiled = s.spoiled := rfl
@[simp] theorem glazeResults_freeCount (n p : Nat) (s : State) : (glazeResults n p s).freeCount = s.freeCount := rfl
@[simp] theorem glazeResults_readData (n p : Nat) (s : State) : (glazeResults n p s).readData = s.readData := rfl
@[simp] theorem glazeResults_agenda (n p : Nat) (s : State) : (glazeResults n p s).agenda = s.agenda := rfl

@[simp] theorem acceptCommand_regs (v : Word) (s : State) :
    (acceptCommand v s).regs = { s.regs with cmd := v, status := statusStart s.regs.status } := rfl
@[simp] theorem completeCommand_regs (s : State) :
    (completeCommand s).regs = { s.regs with status := statusComplete s.regs.status } := rfl
@[simp] theorem raiseError_regs (c : ErrorCode) (v : Word) (s : State) :
    (raiseError c v s).regs = { s.regs with errInfo := v, status := statusError c s.regs.status } := rfl
@[simp] theorem returnFromError_regs (v : Word) (s : State) :
    (returnFromError v s).regs = { s.regs with status := statusClear v s.regs.status } := rfl
@[simp] theorem glazeResults_regs (n p : Nat) (s : State) :
    (glazeResults n p s).regs = { s.regs with glzOutLen := BitVec.ofNat 32 n, glzPos := BitVec.ofNat 32 p } := rfl

/-! ## The status flags -/

@[simp] theorem statusStart_busy (t : Status) : (statusStart t).busy = true := rfl
@[simp] theorem statusStart_done (t : Status) : (statusStart t).done = false := rfl
@[simp] theorem statusStart_err (t : Status) : (statusStart t).err = false := rfl
@[simp] theorem statusStart_cmdOvr (t : Status) : (statusStart t).cmdOvr = t.cmdOvr := rfl
@[simp] theorem statusStart_wrBusy (t : Status) : (statusStart t).wrBusy = t.wrBusy := rfl
@[simp] theorem statusStart_errCode (t : Status) : (statusStart t).errCode = 0 := rfl
@[simp] theorem statusComplete_busy (t : Status) : (statusComplete t).busy = false := rfl
@[simp] theorem statusComplete_done (t : Status) : (statusComplete t).done = true := rfl
@[simp] theorem statusComplete_err (t : Status) : (statusComplete t).err = t.err := rfl
@[simp] theorem statusComplete_cmdOvr (t : Status) : (statusComplete t).cmdOvr = t.cmdOvr := rfl
@[simp] theorem statusComplete_wrBusy (t : Status) : (statusComplete t).wrBusy = t.wrBusy := rfl
@[simp] theorem statusComplete_errCode (t : Status) : (statusComplete t).errCode = t.errCode := rfl
@[simp] theorem statusError_busy (c : ErrorCode) (t : Status) : (statusError c t).busy = false := rfl
@[simp] theorem statusError_done (c : ErrorCode) (t : Status) : (statusError c t).done = true := rfl
@[simp] theorem statusError_err (c : ErrorCode) (t : Status) : (statusError c t).err = true := rfl
@[simp] theorem statusError_cmdOvr (c : ErrorCode) (t : Status) : (statusError c t).cmdOvr = t.cmdOvr := rfl
@[simp] theorem statusError_wrBusy (c : ErrorCode) (t : Status) : (statusError c t).wrBusy = t.wrBusy := rfl
@[simp] theorem statusError_errCode (c : ErrorCode) (t : Status) : (statusError c t).errCode = errorNumber c := rfl
@[simp] theorem statusClear_busy (v : Word) (t : Status) : (statusClear v t).busy = t.busy := rfl

/-- The numbered endings of the claims' vocabulary are the model's. -/
theorem failsWith_eq (s : State) (c : ErrorCode) (info : Word) :
    failsWith s (errorNumber c) info = .next (raiseError c info s) := rfl

theorem completesWith_eq (s : State) (r : Regs) (m : Memory) :
    completesWith s r m = .next (completeCommand { s with mem := m, regs := r }) := rfl

end Sys2Proof.Machine
end

