-- ==== Sys2Proof/Laws/Memory.lean ====
section
/-! SUPPORT. The laws of buffer memory: a read after a write, the canonical form, the bounds, and what the multi-byte
operations over memory leave alone. -/

namespace Sys2Proof.Machine

/-! ## One byte -/

@[simp] theorem Memory.read_nil (a : Nat) : Memory.read [] a = 0 := rfl

theorem Memory.read_cons (b : Nat) (v : Byte) (m : Memory) (a : Nat) :
    Memory.read ((b, v) :: m) a = if b = a then v else Memory.read m a := rfl

/-- A write changes no other byte, whatever the memory. -/
theorem Memory.read_write_other (m : Memory) {a b : Nat} (v : Byte) (h : b ≠ a) :
    (m.write a v).read b = m.read b := by
  induction m with
  | nil => simp only [Memory.write]; split <;> simp [Memory.read, Ne.symm h]
  | cons c m ih =>
    obtain ⟨c, w⟩ := c
    simp only [Memory.write]
    split
    · split <;> simp [Memory.read, Ne.symm h]
    · split
      · subst a; split <;> simp [Memory.read, Ne.symm h]
      · simp [Memory.read, ih]

/-- An address below every listed one reads as unlisted. -/
theorem Memory.read_of_lt (m : Memory) (a : Nat) (h : ∀ c ∈ m, a < c.1) : m.read a = unlistedByte := by
  induction m with
  | nil => rfl
  | cons c m ih =>
    obtain ⟨c, w⟩ := c
    have h1 : a < c := h (c, w) (by simp)
    rw [Memory.read_cons, if_neg (Nat.ne_of_gt h1)]
    exact ih fun d hd => h d (by simp [hd])

theorem Memory.wf_cons {c : Host.Cell} {m : Memory} :
    Memory.wf (c :: m) ↔ (∀ d ∈ m, c.1 < d.1) ∧ c.2 ≠ unlistedByte ∧ m.wf := by
  simp only [Memory.wf, List.pairwise_cons, List.mem_cons, forall_eq_or_imp]
  tauto

/-- A byte of canonical memory reads as the value last written to it. -/
theorem Memory.read_write_same (m : Memory) (a : Nat) (v : Byte) (h : m.wf) : (m.write a v).read a = v := by
  induction m with
  | nil => simp only [Memory.write]; split <;> simp_all [Memory.read]
  | cons c m ih =>
    obtain ⟨c, w⟩ := c
    obtain ⟨hlt, -, hm⟩ := Memory.wf_cons.1 h
    simp only [Memory.write]
    split
    · rename_i hac
      split
      · rename_i hv
        rw [Memory.read_of_lt, hv]
        intro d hd
        rcases List.mem_cons.1 hd with rfl | hd
        · exact hac
        · exact lt_trans hac (hlt d hd)
      · simp [Memory.read]
    · split
      · rename_i _ hac
        subst hac
        split
        · rename_i hv
          rw [Memory.read_of_lt _ _ hlt, hv]
        · simp [Memory.read]
      · rename_i _ hac
        simp [Memory.read, Ne.symm hac, ih hm]

/-- A read after a write, in one line. -/
theorem Memory.read_write (m : Memory) (a b : Nat) (v : Byte) (h : m.wf) :
    (m.write a v).read b = if b = a then v else m.read b := by
  split
  · rename_i hb; subst hb; exact m.read_write_same b v h
  · rename_i hb; exact m.read_write_other v hb

/-- Every entry after a write was there before, or is the new one, which differs from an unlisted byte. -/
theorem Memory.mem_write (m : Memory) (a : Nat) (v : Byte) (c : Host.Cell) (h : c ∈ m.write a v) :
    c ∈ m ∨ (c = (a, v) ∧ v ≠ unlistedByte) := by
  induction m with
  | nil => simp only [Memory.write] at h; split at h <;> simp_all
  | cons d m ih =>
    obtain ⟨d, w⟩ := d
    simp only [Memory.write] at h
    split at h
    · split at h
      · exact .inl h
      · rcases List.mem_cons.1 h with h | h
        · exact .inr ⟨h, ‹_›⟩
        · exact .inl h
    · split at h
      · split at h
        · exact .inl (List.mem_cons_of_mem _ h)
        · rcases List.mem_cons.1 h with h | h
          · exact .inr ⟨h, ‹_›⟩
          · exact .inl (List.mem_cons_of_mem _ h)
      · rcases List.mem_cons.1 h with h | h
        · exact .inl (by simp [h])
        · exact (ih h).imp (List.mem_cons_of_mem _) id

/-- A write keeps the canonical form. -/
theorem Memory.write_wf (m : Memory) (a : Nat) (v : Byte) (h : m.wf) : (m.write a v).wf := by
  induction m with
  | nil => simp only [Memory.write]; split <;> simp_all [Memory.wf]
  | cons c m ih =>
    obtain ⟨c, w⟩ := c
    obtain ⟨hlt, hw, hm⟩ := Memory.wf_cons.1 h
    simp only [Memory.write]
    split
    · rename_i hac
      split
      · exact h
      · refine Memory.wf_cons.2 ⟨fun d hd => ?_, ‹_›, h⟩
        rcases List.mem_cons.1 hd with rfl | hd
        · exact hac
        · exact lt_trans hac (hlt d hd)
    · split
      · rename_i _ hac
        subst hac
        split
        · exact hm
        · exact Memory.wf_cons.2 ⟨hlt, ‹_›, hm⟩
      · rename_i h1 h2
        refine Memory.wf_cons.2 ⟨fun d hd => ?_, hw, ih hm⟩
        rcases Memory.mem_write m a v d hd with hd | ⟨rfl, -⟩
        · exact hlt d hd
        · show c < a
          omega

/-- A write inside the buffer keeps memory inside the buffer. -/
theorem Memory.write_below (m : Memory) (a : Nat) (v : Byte) (size : Nat) (ha : a < size) (h : m.below size) :
    (m.write a v).below size := fun c hc => by
  rcases Memory.mem_write m a v c hc with hc | ⟨rfl, -⟩
  · exact h c hc
  · exact ha

/-- Canonical memories that read alike are equal data. -/
theorem Memory.eq_of_read_eq (m m' : Memory) (h : m.wf) (h' : m'.wf) (hr : sameMemory m m') : m' = m := by
  induction m generalizing m' with
  | nil =>
    cases m' with
    | nil => rfl
    | cons c m' =>
      have := hr c.1
      simp only [Memory.read_cons c.1 c.2, if_true, Memory.read_nil] at this
      exact absurd this (Memory.wf_cons.1 h').2.1
  | cons c m ih =>
    obtain ⟨hlt, hc, hm⟩ := Memory.wf_cons.1 h
    cases m' with
    | nil =>
      have := hr c.1
      simp only [Memory.read_cons c.1 c.2, if_true, Memory.read_nil] at this
      exact absurd this.symm hc
    | cons d m' =>
      obtain ⟨hlt', hd, hm'⟩ := Memory.wf_cons.1 h'
      have hc1 : Memory.read (c :: m) c.1 = c.2 := by simp [Memory.read]
      have hd1 : Memory.read (d :: m') d.1 = d.2 := by simp [Memory.read]
      have hcd : c.1 = d.1 := by
        rcases Nat.lt_trichotomy c.1 d.1 with hl | hl | hl
        · have := hr c.1
          rw [Memory.read_of_lt, hc1] at this
          · exact absurd this.symm hc
          · intro e he
            rcases List.mem_cons.1 he with rfl | he
            · exact hl
            · exact lt_trans hl (hlt' e he)
        · exact hl
        · have := hr d.1
          rw [hd1, Memory.read_of_lt] at this
          · exact absurd this hd
          · intro e he
            rcases List.mem_cons.1 he with rfl | he
            · exact hl
            · exact lt_trans hl (hlt e he)
      have hv : c = d := by
        have := hr c.1
        rw [hc1, hcd, hd1] at this
        exact Prod.ext hcd this.symm
      subst hv
      congr 1
      refine ih m' hm hm' fun b => ?_
      by_cases hb : b = c.1
      · subst hb
        rw [Memory.read_of_lt m' c.1 hlt', Memory.read_of_lt m c.1 hlt]
      · have := hr b
        simpa [Memory.read, Ne.symm hb] using this

/-! ## Bytes in a row -/

theorem Memory.writeBytes_wf (vs : List Byte) (m : Memory) (a : Nat) (h : m.wf) : (m.writeBytes a vs).wf := by
  induction vs generalizing m a with
  | nil => exact h
  | cons v vs ih => exact ih _ _ (Memory.write_wf m a v h)

theorem Memory.writeBytes_below (vs : List Byte) (m : Memory) (a size : Nat) (ha : a + vs.length ≤ size)
    (h : m.below size) : (m.writeBytes a vs).below size := by
  induction vs generalizing m a with
  | nil => exact h
  | cons v vs ih =>
    simp only [List.length_cons] at ha
    exact ih _ _ (by omega) (Memory.write_below m a v size (by omega) h)

theorem Memory.read_writeBytes_outside (vs : List Byte) (m : Memory) (a b : Nat)
    (hb : ¬(a ≤ b ∧ b < a + vs.length)) : (m.writeBytes a vs).read b = m.read b := by
  induction vs generalizing m a with
  | nil => rfl
  | cons v vs ih =>
    simp only [List.length_cons] at hb
    rw [Memory.writeBytes, ih _ _ (by omega), Memory.read_write_other _ _ (by omega)]

/-- Bytes written in a row read back in their places. -/
theorem Memory.read_writeBytes_inside (vs : List Byte) (m : Memory) (a k : Nat) (h : m.wf) (hk : k < vs.length) :
    (m.writeBytes a vs).read (a + k) = vs.getD k 0 := by
  induction vs generalizing m a k with
  | nil => simp at hk
  | cons v vs ih =>
    cases k with
    | zero =>
      rw [Memory.writeBytes, Memory.read_writeBytes_outside _ _ _ _ (by omega), Nat.add_zero,
        Memory.read_write_same _ _ _ h]
      rfl
    | succ k =>
      simp only [List.length_cons] at hk
      rw [Memory.writeBytes, show a + (k + 1) = (a + 1) + k by omega, ih _ _ _ (Memory.write_wf m a v h) (by omega)]
      rfl

@[simp] theorem Memory.readBytes_length (m : Memory) (a n : Nat) : (m.readBytes a n).length = n := by
  simp [Memory.readBytes]

theorem Memory.readBytes_getD (m : Memory) (a n k : Nat) (h : k < n) : (m.readBytes a n).getD k 0 = m.read (a + k) := by
  simp [Memory.readBytes, List.getD_eq_getElem?_getD, h]

theorem store16_wf (e : Bool) (m : Memory) (a : Nat) (v : Half) (h : m.wf) : (store16 e m a v).wf := by
  simp only [store16]; split <;> exact Memory.write_wf _ _ _ (Memory.write_wf _ _ _ h)

theorem store16_below (e : Bool) (m : Memory) (a : Nat) (v : Half) (size : Nat) (ha : a + 2 ≤ size) (h : m.below size) :
    (store16 e m a v).below size := by
  simp only [store16]
  split <;> exact Memory.write_below _ _ _ _ (by omega) (Memory.write_below _ _ _ _ (by omega) h)

theorem store16_outside (e : Bool) (m : Memory) (a : Nat) (v : Half) : sameOutside m (store16 e m a v) a 2 := by
  intro b hb
  simp only [store16]
  split <;> rw [Memory.read_write_other _ _ (by omega), Memory.read_write_other _ _ (by omega)]

/-! ## Unspecified bytes -/

theorem fillFree_wf (n k a : Nat) (m : Memory) (h : m.wf) : (fillFree n k a m).wf := by
  induction n generalizing k a m with
  | zero => exact h
  | succ n ih => exact ih _ _ _ (Memory.write_wf m a _ h)

theorem fillFree_below (n k a : Nat) (m : Memory) (size : Nat) (ha : n = 0 ∨ a + n ≤ size) (h : m.below size) :
    (fillFree n k a m).below size := by
  induction n generalizing k a m with
  | zero => exact h
  | succ n ih => exact ih _ _ _ (by omega) (Memory.write_below m a _ size (by omega) h)

theorem fillFree_outside (n k a : Nat) (m : Memory) : sameOutside m (fillFree n k a m) a n := by
  induction n generalizing k a m with
  | zero => exact fun _ _ => rfl
  | succ n ih =>
    intro b hb
    rw [fillFree, ih _ _ _ b (by omega), Memory.read_write_other _ _ (by omega)]

/-- The `b`th byte of a filling is the `b`th free byte. -/
theorem fillFree_inside (n k a : Nat) (m : Memory) (b : Nat) (hb : b < n) (h : m.wf) :
    (fillFree n k a m).read (a + b) = Config.freeByte (k + b) := by
  induction n generalizing k a m b with
  | zero => omega
  | succ n ih =>
    cases b with
    | zero =>
      have later := fillFree_outside n (k + 1) (a + 1) (m.write a (Config.freeByte k)) a (by omega)
      exact later.trans (Memory.read_write_same m a _ h)
    | succ b =>
      have := ih (k + 1) (a + 1) (m.write a (Config.freeByte k)) b (by omega) (Memory.write_wf m a _ h)
      rw [fillFree, show a + (b + 1) = a + 1 + b by omega, show k + (b + 1) = k + 1 + b by omega, this]

/-! ## The back-reference copy -/

theorem copyBytes_wf (dist n a : Nat) (m : Memory) (h : m.wf) : (copyBytes dist n a m).wf := by
  induction n generalizing a m with
  | zero => exact h
  | succ n ih => exact ih _ _ (Memory.write_wf m a _ h)

theorem copyBytes_below (dist n a : Nat) (m : Memory) (size : Nat) (ha : a + n ≤ size) (h : m.below size) :
    (copyBytes dist n a m).below size := by
  induction n generalizing a m with
  | zero => exact h
  | succ n ih => exact ih _ _ (by omega) (Memory.write_below m a _ size (by omega) h)

theorem copyBytes_outside (dist n a : Nat) (m : Memory) : sameOutside m (copyBytes dist n a m) a n := by
  induction n generalizing a m with
  | zero => exact fun _ _ => rfl
  | succ n ih =>
    intro b hb
    rw [copyBytes, ih _ _ b (by omega), Memory.read_write_other _ _ (by omega)]

end Sys2Proof.Machine
end

