-- ==== Sys2Proof/Laws/Ops.lean ====
section
/-! SUPPORT. One lemma per shared operation that says once what it can do: the generator, the region check, unspecified
values, the register map, the Glaze operations' checks, and what each transform leaves alone in memory. -/

namespace Sys2Proof.Machine

/-! ## The generator -/

@[simp] theorem lcgAfter_zero (mul inc acc : Word) : lcgAfter mul inc 0 acc = acc := rfl

theorem lcgAfter_succ (mul inc : Word) (n : Nat) (acc : Word) :
    lcgAfter mul inc (n + 1) acc = lcgAfter mul inc n (lcgStep mul inc acc) := rfl

/-- Draws go on where the previous ones stopped. -/
theorem lcgAfter_add (mul inc : Word) (m n : Nat) (acc : Word) :
    lcgAfter mul inc (m + n) acc = lcgAfter mul inc n (lcgAfter mul inc m acc) := by
  induction m generalizing acc with
  | zero => simp
  | succ m ih => rw [Nat.succ_add, lcgAfter_succ, ih, lcgAfter_succ]

theorem lcgAfter_last (mul inc : Word) (n : Nat) (acc : Word) :
    lcgAfter mul inc (n + 1) acc = lcgStep mul inc (lcgAfter mul inc n acc) := lcgAfter_add mul inc n 1 acc

/-! ## Regions -/

theorem regionFits_iff (p : Params) (region : Word × Word) :
    regionFits p region = true ↔ region.2 = 0 ∨ region.1.toNat + region.2.toNat ≤ p.bufSize := by
  simp [regionFits]

/-- The region check either lets the command go on, every region fitting, or raises `ERR_MEM` with a base. -/
theorem checkRegions_cases (regions : List (Word × Word)) (s : State) (body : Outcome) :
    (checkRegions regions s body = body ∧ ∀ region ∈ regions, regionFits s.impl region = true)
    ∨ ∃ region ∈ regions, regionFits s.impl region = false
        ∧ checkRegions regions s body = .next (raiseError .mem region.1 s) := by
  induction regions with
  | nil => exact .inl ⟨rfl, by simp⟩
  | cons region rest ih =>
    rw [checkRegions]
    split
    · rename_i hfit
      rcases ih with ⟨h1, h2⟩ | ⟨bad, hm, hb, h3⟩
      · exact .inl ⟨h1, by simpa [hfit] using h2⟩
      · exact .inr ⟨bad, List.mem_cons_of_mem _ hm, hb, h3⟩
    · exact .inr ⟨region, by simp, by simpa using ‹¬regionFits s.impl region = true›, rfl⟩

theorem checkRegions_fit (regions : List (Word × Word)) (s : State) (body : Outcome)
    (h : ∀ region ∈ regions, regionFits s.impl region = true) : checkRegions regions s body = body := by
  rcases checkRegions_cases regions s body with ⟨h1, -⟩ | ⟨region, hm, hb, -⟩
  · exact h1
  · rw [h region hm] at hb; exact absurd hb (by simp)

theorem checkRegions_source (s : State) (body : Outcome)
    (h : s.regs.len = 0 ∨ s.regs.addr.toNat + s.regs.len.toNat ≤ s.impl.bufSize) :
    checkRegions (sourceRegion s.regs) s body = body := by
  refine checkRegions_fit _ _ _ fun region hm => ?_
  simp only [sourceRegion, List.mem_singleton] at hm
  subst hm
  exact (regionFits_iff _ _).2 h

theorem checkRegions_source_bad (s : State) (body : Outcome) (h0 : s.regs.len ≠ 0)
    (h : s.impl.bufSize < s.regs.addr.toNat + s.regs.len.toNat) :
    checkRegions (sourceRegion s.regs) s body = .next (raiseError .mem s.regs.addr s) := by
  have hf : ¬regionFits s.impl (s.regs.addr, s.regs.len) = true := by
    rw [regionFits_iff]; rintro (h1 | h1)
    · exact h0 h1
    · exact absurd h1 (by simpa using h)
  simp [sourceRegion, checkRegions, hf]

theorem inRegions_nil (a : Nat) : inRegions [] a = false := rfl

theorem inRegions_cons (base length : Word) (rest : List (Word × Word)) (a : Nat) :
    inRegions ((base, length) :: rest) a = true ↔
      (base.toNat ≤ a ∧ a < base.toNat + length.toNat) ∨ inRegions rest a = true := by
  simp [inRegions]

/-! ## Unspecified values -/

theorem freeBytesAt_frame (a n : Nat) (s : State) :
    (freeBytesAt a n s).impl = s.impl ∧ (freeBytesAt a n s).regs = s.regs ∧ (freeBytesAt a n s).glaze = s.glaze
      ∧ (freeBytesAt a n s).spoiled = s.spoiled ∧ (freeBytesAt a n s).readData = s.readData
      ∧ (freeBytesAt a n s).agenda = s.agenda := ⟨rfl, rfl, rfl, rfl, rfl, rfl⟩

theorem freeBytesAt_wf (a n : Nat) (s : State) (h : s.mem.wf) : (freeBytesAt a n s).mem.wf := fillFree_wf _ _ _ _ h

theorem freeBytesAt_below (a n : Nat) (s : State) (h : s.mem.below s.impl.bufSize) :
    (freeBytesAt a n s).mem.below s.impl.bufSize := fillFree_below _ _ _ _ _ (by omega) h

theorem freeBytesAt_outside (a n : Nat) (s : State) : sameOutside s.mem (freeBytesAt a n s).mem a n := fun b hb =>
  fillFree_outside _ _ _ _ b (by omega)

/-- Freeing regions changes memory and the count of free values, nothing else. -/
theorem freeRegions_frame (regions : List (Word × Word)) (s : State) :
    (freeRegions regions s).impl = s.impl ∧ (freeRegions regions s).regs = s.regs
      ∧ (freeRegions regions s).glaze = s.glaze ∧ (freeRegions regions s).spoiled = s.spoiled
      ∧ (freeRegions regions s).readData = s.readData ∧ (freeRegions regions s).agenda = s.agenda := by
  induction regions generalizing s with
  | nil => exact ⟨rfl, rfl, rfl, rfl, rfl, rfl⟩
  | cons region rest ih => exact ih (freeBytesAt region.1.toNat region.2.toNat s)

theorem freeRegions_wf (regions : List (Word × Word)) (s : State) (h : s.mem.wf) : (freeRegions regions s).mem.wf := by
  induction regions generalizing s with
  | nil => exact h
  | cons region rest ih => exact ih _ (freeBytesAt_wf _ _ s h)

theorem freeRegions_below (regions : List (Word × Word)) (s : State) (h : s.mem.below s.impl.bufSize) :
    (freeRegions regions s).mem.below s.impl.bufSize := by
  induction regions generalizing s with
  | nil => exact h
  | cons region rest ih => exact ih _ (freeBytesAt_below _ _ s h)

theorem freeRegions_outside (regions : List (Word × Word)) (s : State) (a : Nat) (h : inRegions regions a = false) :
    (freeRegions regions s).mem.read a = s.mem.read a := by
  induction regions generalizing s with
  | nil => rfl
  | cons region rest ih =>
    obtain ⟨base, length⟩ := region
    have h' : ¬((base.toNat ≤ a ∧ a < base.toNat + length.toNat) ∨ inRegions rest a = true) := by
      rw [← inRegions_cons]; simp [h]
    rw [not_or] at h'
    rw [freeRegions, ih _ (by simpa using h'.2)]
    exact freeBytesAt_outside _ _ s a h'.1

/-! ## The register map -/

/-- Storing to a register leaves every other one. -/
theorem readRegister_storeRegister (r : Regs) (v : Word) (name other : RegName) (h : other ≠ name) :
    readRegister (storeRegister r v name) other = readRegister r other := by
  cases name <;> cases other <;> first | rfl | exact absurd rfl h

/-- Freeing registers changes those registers and the count of free values, nothing else. -/
theorem freeRegisters_frame (names : List RegName) (s : State) :
    (freeRegisters names s).impl = s.impl ∧ (freeRegisters names s).mem = s.mem
      ∧ (freeRegisters names s).glaze = s.glaze ∧ (freeRegisters names s).spoiled = s.spoiled
      ∧ (freeRegisters names s).readData = s.readData ∧ (freeRegisters names s).agenda = s.agenda := by
  induction names generalizing s with
  | nil => exact ⟨rfl, rfl, rfl, rfl, rfl, rfl⟩
  | cons name rest ih =>
    exact ih { s with
      regs := storeRegister s.regs (Config.freeWord s.freeCount) name, freeCount := s.freeCount + 1 }

theorem readRegister_freeRegisters (names : List RegName) (s : State) (other : RegName) (h : other ∉ names) :
    readRegister (freeRegisters names s).regs other = readRegister s.regs other := by
  induction names generalizing s with
  | nil => rfl
  | cons name rest ih =>
    rw [List.mem_cons, not_or] at h
    rw [freeRegisters, ih _ h.2]
    exact readRegister_storeRegister _ _ _ _ h.1

theorem storeRegister_status (r : Regs) (v : Word) (name : RegName) (h : name ≠ .status) :
    (storeRegister r v name).status = r.status := by
  cases name <;> first | rfl | exact absurd rfl h

theorem freeRegisters_status (names : List RegName) (s : State) (h : RegName.status ∉ names) :
    (freeRegisters names s).regs.status = s.regs.status := by
  induction names generalizing s with
  | nil => rfl
  | cons name rest ih =>
    rw [List.mem_cons, not_or] at h
    rw [freeRegisters, ih _ h.2]
    exact storeRegister_status _ _ _ (Ne.symm h.1)

theorem status_not_result (i : Instr) : RegName.status ∉ resultRegisters i := by
  cases i <;> simp [resultRegisters]

/-! ## The transforms leave memory outside their region alone -/

theorem fenceWords_wf (r : Regs) (dir : Direction) (xf : Bool) (count a : Nat) (m : Memory) (acc : Word) (h : m.wf) :
    (fenceWords r dir xf count a m acc).1.wf := by
  induction count generalizing a m acc with
  | zero => exact h
  | succ count ih => exact ih _ _ _ (store16_wf _ _ _ _ h)

theorem fenceWords_below (r : Regs) (dir : Direction) (xf : Bool) (count a : Nat) (m : Memory) (acc : Word)
    (size : Nat) (ha : count = 0 ∨ a + 2 * count ≤ size) (h : m.below size) :
    (fenceWords r dir xf count a m acc).1.below size := by
  induction count generalizing a m acc with
  | zero => exact h
  | succ count ih => exact ih _ _ _ (by omega) (store16_below _ _ _ _ _ (by omega) h)

theorem fenceWords_outside (r : Regs) (dir : Direction) (xf : Bool) (count a : Nat) (m : Memory) (acc : Word) :
    sameOutside m (fenceWords r dir xf count a m acc).1 a (2 * count) := by
  induction count generalizing a m acc with
  | zero => exact fun _ _ => rfl
  | succ count ih =>
    intro b hb
    rw [fenceWords, ih _ _ _ b (by omega), store16_outside _ _ _ _ b (by omega)]

theorem rotBytes_wf (r : Regs) (count a : Nat) (m : Memory) (p : RotPass) (h : m.wf) :
    (rotBytes r count a m p).1.wf := by
  induction count generalizing a m p with
  | zero => exact h
  | succ count ih => exact ih _ _ _ (Memory.write_wf _ _ _ h)

theorem rotBytes_below (r : Regs) (count a : Nat) (m : Memory) (p : RotPass) (size : Nat)
    (ha : count = 0 ∨ a + count ≤ size) (h : m.below size) : (rotBytes r count a m p).1.below size := by
  induction count generalizing a m p with
  | zero => exact h
  | succ count ih => exact ih _ _ _ (by omega) (Memory.write_below _ _ _ _ (by omega) h)

theorem rotBytes_outside (r : Regs) (count a : Nat) (m : Memory) (p : RotPass) :
    sameOutside m (rotBytes r count a m p).1 a count := by
  induction count generalizing a m p with
  | zero => exact fun _ _ => rfl
  | succ count ih =>
    intro b hb
    rw [rotBytes, ih _ _ _ b (by omega), Memory.read_write_other _ _ (by omega)]

theorem setSliceBit_wf (m : Memory) (base b : Nat) (v : Bool) (h : m.wf) : (setSliceBit m base b v).wf :=
  Memory.write_wf _ _ _ h

theorem swapBit_wf (base : Nat) (m : Memory) (pq : Nat × Nat) (h : m.wf) : (swapBit base m pq).wf :=
  setSliceBit_wf _ _ _ _ (setSliceBit_wf _ _ _ _ h)

theorem swapBit_outside (base : Nat) (m : Memory) (pq : Nat × Nat) (n : Nat) (hp : pq.1 < 8 * n) (hq : pq.2 < 8 * n) :
    sameOutside m (swapBit base m pq) base n := by
  intro b hb
  simp only [swapBit, setSliceBit]
  rw [Memory.read_write_other _ _ (by omega), Memory.read_write_other _ _ (by omega)]

theorem foldl_swapBit_wf (base : Nat) (pairs : List (Nat × Nat)) (m : Memory) (h : m.wf) :
    (pairs.foldl (swapBit base) m).wf := by
  induction pairs generalizing m with
  | nil => exact h
  | cons pq pairs ih => exact ih _ (swapBit_wf base m pq h)

theorem foldl_swapBit_outside (base : Nat) (pairs : List (Nat × Nat)) (m : Memory) (n : Nat)
    (hp : ∀ pq ∈ pairs, pq.1 < 8 * n ∧ pq.2 < 8 * n) : sameOutside m (pairs.foldl (swapBit base) m) base n := by
  induction pairs generalizing m with
  | nil => exact fun _ _ => rfl
  | cons pq pairs ih =>
    intro b hb
    obtain ⟨h1, h2⟩ := hp pq (by simp)
    rw [List.foldl_cons, ih _ (fun x hx => hp x (by simp [hx])) b hb, swapBit_outside base m pq n h1 h2 b hb]

/-- The pairs of a table are made of its entries. -/
theorem mem_disjointPairs (t : List Nat) (pq : Nat × Nat) (h : pq ∈ disjointPairs t) : pq.1 ∈ t ∧ pq.2 ∈ t := by
  induction t using disjointPairs.induct with
  | case1 p q rest ih =>
    rcases List.mem_cons.1 h with rfl | h
    · simp
    · exact ⟨by simp [(ih h).1], by simp [(ih h).2]⟩
  | case2 t ht =>
    rw [disjointPairs] at h
    · simp at h
    · exact ht

theorem mem_swapPairs (slide : Bool) (t : List Nat) (pq : Nat × Nat) (h : pq ∈ swapPairs slide t) :
    pq.1 ∈ t ∧ pq.2 ∈ t := by
  cases slide with
  | false => exact mem_disjointPairs t pq h
  | true =>
    have := List.of_mem_zip (a := pq.1) (b := pq.2) (by simpa [swapPairs] using h)
    exact ⟨this.1, List.mem_of_mem_tail this.2⟩

theorem swapWalk_wf (slide : Bool) (dir : Direction) (t : List Nat) (base : Nat) (m : Memory) (h : m.wf) :
    (swapWalk slide dir t base m).wf := by
  cases dir <;> exact foldl_swapBit_wf _ _ _ h

theorem swapWalk_outside (slide : Bool) (dir : Direction) (t : List Nat) (base : Nat) (m : Memory) (n : Nat)
    (ht : ∀ b ∈ t, b < 8 * n) : sameOutside m (swapWalk slide dir t base m) base n := by
  have hp : ∀ pq ∈ swapPairs slide t, pq.1 < 8 * n ∧ pq.2 < 8 * n := fun pq h =>
    ⟨ht _ (mem_swapPairs slide t pq h).1, ht _ (mem_swapPairs slide t pq h).2⟩
  cases dir with
  | scramble => exact foldl_swapBit_outside _ _ _ _ hp
  | descramble => exact foldl_swapBit_outside _ _ _ _ fun pq h => hp pq (List.mem_reverse.1 h)

theorem bitpermSlices_wf (r : Regs) (dir : Direction) (count off : Nat) (m : Memory) (acc : Word) (h : m.wf) :
    (bitpermSlices r dir count off m acc).1.wf := by
  induction count generalizing off m acc with
  | zero => exact h
  | succ count ih => exact ih _ _ _ (swapWalk_wf _ _ _ _ _ h)

/-! ## The Glaze operations' checks -/

theorem need_eq (n : Nat) (g : GlazeDecode) :
    need n g = if g.pos + n ≤ g.outLen then .ok () else .error .glzOvf := by
  simp only [need]; split <;> split <;> first | rfl | omega

/-- `Copy` in one line: its checks in order, then its effect (45_glaze.md R246). -/
theorem copyBack_eq (dist n : Nat) (s : State) (g : GlazeDecode) :
    copyBack dist n s g =
      if g.outLen < g.pos + n then .error .glzOvf
      else if dist = 0 ∨ dist > g.pos then .error .glzDist
      else .ok (copyBytes dist n (s.regs.dst.toNat + g.pos) s.mem, { g with pos := g.pos + n }) := by
  simp only [copyBack, need, gt_iff_lt]
  split
  · rfl
  · split <;> rfl

/-- A literal operation in one line (45_glaze.md R243). -/
theorem emitLiteral_eq (n : Nat) (s : State) (g : GlazeDecode) :
    emitLiteral n s g =
      if g.outLen < g.pos + n ∨ g.dictEnd < g.dictPos + n then .error .glzOvf
      else
        .ok
          (s.mem.writeBytes (s.regs.dst.toNat + g.pos) (s.mem.readBytes (s.regs.addr.toNat + g.dictPos) n),
            { g with dictPos := g.dictPos + n, pos := g.pos + n }) := by
  simp only [emitLiteral, need, getDict, gt_iff_lt]
  by_cases h1 : g.outLen < g.pos + n
  · simp only [h1, true_or, if_true]; rfl
  · by_cases h2 : g.dictEnd < g.dictPos + n
    · simp only [h1, h2, false_or, if_true, if_false]; rfl
    · simp only [h1, h2, or_self, if_false, emit, Memory.readBytes_length, bind, Except.bind, pure, Except.pure]

theorem getDictByte_eq (s : State) (g : GlazeDecode) :
    getDictByte s g =
      if g.dictPos < g.dictEnd then
        .ok ((s.mem.read (s.regs.addr.toNat + g.dictPos)).toNat, { g with dictPos := g.dictPos + 1 })
      else .error .glzOvf := by
  simp only [getDictByte]; split <;> split <;> first | rfl | omega

theorem getLt_eq (s : State) (g : GlazeDecode) :
    getLt s g =
      if g.ltPos < g.ltEnd then
        .ok ((s.mem.read (s.regs.addr.toNat + g.ltPos)).toNat, { g with ltPos := g.ltPos + 1 })
      else .error .glzOvf := by
  simp only [getLt]; split <;> split <;> first | rfl | omega

/-- An operation's effect once its body is known. -/
theorem glazeOperation_some (body : State → GlazeDecode → Except ErrorCode Decoding) (s : State) (g : GlazeDecode)
    (h : s.glaze = some g) :
    glazeOperation body s =
      match body s g with
      | .error code => .next (raiseGlaze code g s)
      | .ok (m, g') => .next { s with mem := m, glaze := some g' } := by
  rcases hb : body s g with _ | ⟨_, _⟩ <;> simp only [glazeOperation, h, hb]

/-- Without a stream a Glaze operation faults (log 10). -/
theorem glazeOperation_none (body : State → GlazeDecode → Except ErrorCode Decoding) (s : State) (h : s.glaze = none) :
    glazeOperation body s = .fault .noGlazeStream := by
  simp only [glazeOperation, h]

theorem raiseGlaze_eq (c : ErrorCode) (g : GlazeDecode) (s : State) :
    .next (raiseGlaze c g s) =
      glazeFailsWith s (errorNumber c) (BitVec.ofNat 32 g.pos) (BitVec.ofNat 32 g.outLen) (BitVec.ofNat 32 g.pos) := rfl

/-! ## The rules' own forms (Safety.lean) -/

/-- FENCE's draw as its rule writes it is the model's draw. -/
theorem fenceDraw_eq (r : Regs) (acc : Word) : fenceDraw r acc = (draw15 r.ctrl.n15sel acc).setWidth 16 := by
  unfold fenceDraw draw15
  split <;> rfl

@[simp] theorem fenceAccAt_zero (r : Regs) : fenceAccAt r 0 = r.lcgAcc := rfl

/-- An entry's index is within its pool. -/
theorem tableIndex_lt (c : Ctrl) (mul inc acc : Word) {n i : Nat} (h : i < n) : tableIndex c mul inc acc n i < n - i :=
  Nat.mod_lt _ (by omega)

/-- The draw of an entry is the model's draw from the accumulator after its step. -/
theorem tableIndex_eq (c : Ctrl) (mul inc acc : Word) (n i : Nat) :
    tableIndex c mul inc acc n i = tableDraw c (lcgAfter mul inc (i + 1) acc) % (n - i) := by
  unfold tableIndex tableDraw draw15 draw16
  split
  · rfl
  · split <;> rfl

theorem segmentLength_pos (r : Regs) (j : Nat) : 0 < segmentLength r j := by unfold segmentLength; omega

@[simp] theorem segmentStart_zero (r : Regs) : segmentStart r 0 = 0 := rfl

theorem segmentStart_succ (r : Regs) (j : Nat) : segmentStart r (j + 1) = segmentStart r j + segmentLength r j := by
  simp [segmentStart, List.range_succ]

/-- A register steps once for every byte it keys. -/
theorem rotAccAt_step (r : Regs) (i j n : Nat) :
    rotAccAt r i j (n + 1) = lcgStep r.lcgMul r.lcgInc (rotAccAt r i j n) := lcgAfter_last _ _ _ _

/-- After its segment the active register has stepped once for every byte of it. -/
theorem rotAccAt_active (r : Regs) (j n : Nat) :
    rotAccAt r (j % 3) (j + 1) n = rotAccAt r (j % 3) j (segmentLength r j + n) := by
  simp [rotAccAt, List.range_succ, List.filter_append, Nat.add_assoc]

/-- A segment leaves the other registers as they were. -/
theorem rotAccAt_other (r : Regs) (i j n : Nat) (h : j % 3 ≠ i) : rotAccAt r i (j + 1) n = rotAccAt r i j n := by
  simp [rotAccAt, List.range_succ, List.filter_append, h]

end Sys2Proof.Machine
end

