-- ==== Sys2Proof/Laws/Step.lean ====
section
/-! SUPPORT. What one step can do, said once: whose turn it was, what the engine fetched, what each Glaze operation and the
decode loop can end in, and what each command ends in. -/

namespace Sys2Proof.Machine

/-! ## The turn -/

/-- A step that answers a next state was the engine's, with an empty agenda or its turn on it, or the host's. -/
theorem step_cases {s t : State} (h : step s = .next t) :
    (s.agenda = [] ∧ engineMove s = .next t)
    ∨ (∃ rest, s.agenda = .engine :: rest ∧ engineMove (s.withAgenda rest) = .next t)
    ∨ ∃ op rest, s.agenda = .host op :: rest ∧ hostMove op (s.withAgenda rest) = .next t := by
  unfold step at h
  split at h
  · exact .inl ⟨‹_›, h⟩
  · exact .inr (.inl ⟨_, ‹_›, h⟩)
  · exact .inr (.inr ⟨_, _, ‹_›, h⟩)

/-- The engine's move: plain, or on a spoiled command between two unspecified fillings of its regions. -/
theorem engineMove_cases {s t : State} (h : engineMove s = .next t) :
    (s.spoiled = false ∧ engineTurn s = .next t)
    ∨ (s.spoiled = true ∧ ∃ u, engineTurn (freeRegions (runningRegions s) s) = .next u ∧ t = endSpoiled s u) := by
  unfold engineMove at h
  split at h
  · unfold spoiledTurn at h
    split at h
    · injection h with h
      exact .inr ⟨‹_›, _, ‹_›, h.symm⟩
    · cases h
    · cases h
  · exact .inl ⟨by simpa using ‹¬s.spoiled = true›, h⟩

/-- The engine's turn with no stream being decoded: idle, a word that does not decode, or a command. -/
theorem engineTurn_command (s : State) (h : s.glaze = none) :
    (s.regs.status.busy = false ∧ engineTurn s = .next s)
    ∨ (s.regs.status.busy = true ∧ (∃ e, decodeCommand s.regs.cmd = .error e)
        ∧ engineTurn s = .next (raiseError .cmd s.regs.cmd s))
    ∨ (s.regs.status.busy = true ∧ ∃ i, decodeCommand s.regs.cmd = .ok i ∧ engineTurn s = exec i s) := by
  cases hb : s.regs.status.busy with
  | false => exact .inl ⟨rfl, by simp [engineTurn, fetch, h, fetchCommand, hb]⟩
  | true =>
    refine .inr ?_
    cases hd : decodeCommand s.regs.cmd with
    | error e => exact .inl ⟨rfl, ⟨e, rfl⟩, by simp [engineTurn, fetch, h, fetchCommand, hb, hd]⟩
    | ok i => exact .inr ⟨rfl, i, rfl, by simp [engineTurn, fetch, h, fetchCommand, hb, hd]⟩

/-- The decode loop's turn: the declared length reached, bits that do not decode, or an operation. -/
theorem fetchGlaze_cases (g : GlazeDecode) (s : State) :
    (g.outLen ≤ g.pos ∧ fetchGlaze g s = .ended (completeGlaze g s))
    ∨ (g.pos < g.outLen ∧ ∃ c, (c = .glzOp ∨ c = .glzOvf) ∧ fetchGlaze g s = .ended (raiseGlaze c g s))
    ∨ (g.pos < g.outLen ∧ ∃ i rest, decodeGlaze (upcomingBits g s) = .ok (i, rest)
        ∧ fetchGlaze g s =
            .run i
              { s with glaze := some { g with bitPos := g.bitPos + ((upcomingBits g s).length - rest.length) } }) := by
  unfold fetchGlaze
  split
  · exact .inl ⟨‹_›, rfl⟩
  · have hlt : g.pos < g.outLen := by omega
    split
    · exact .inr (.inl ⟨hlt, _, .inl rfl, rfl⟩)
    · exact .inr (.inl ⟨hlt, _, .inr rfl, rfl⟩)
    · exact .inr (.inr ⟨hlt, _, _, ‹_›, rfl⟩)

/-! ## Decoding answers the right kind of instruction -/

theorem commandRow_isCommand (op allowed : Byte) (build : Byte → Instr) (f : Byte)
    (h : commandRow op = some (allowed, build)) : isCommand (build f) = true := by
  unfold commandRow at h
  repeat' first
    | (split at h; · (simp only [Option.some.injEq, Prod.mk.injEq] at h; obtain ⟨-, rfl⟩ := h; rfl))
  cases h

/-- A command word never decodes to a Glaze operation. -/
theorem decodeCommand_isCommand {w : Word} {i : Instr} (h : decodeCommand w = .ok i) : isCommand i = true := by
  unfold decodeCommand at h
  dsimp only at h
  split at h
  · cases h
  · split at h
    · cases h
    · split at h
      · cases h
      · injection h with h
        subst h
        exact commandRow_isCommand _ _ _ _ ‹_›

theorem withBytecode_ok {bits : List Bool} {k : Nat → List Bool → Except Reject (Instr × List Bool)}
    {r : Instr × List Bool} (h : withBytecode bits k = .ok r) :
    ∃ v rest, getBytecode bits = some (v, rest) ∧ k v rest = .ok r := by
  unfold withBytecode at h
  split at h
  · cases h
  · exact ⟨_, _, ‹_›, h⟩

/-- A Glaze bitstream never decodes to a command. -/
theorem decodeGlaze_isGlazeOp {bits rest : List Bool} {i : Instr} (h : decodeGlaze bits = .ok (i, rest)) :
    isGlazeOp i = true := by
  unfold decodeGlaze at h
  obtain ⟨op, r, -, h⟩ := withBytecode_ok h
  split at h
  · cases h; rfl
  · obtain ⟨_, _, -, h⟩ := withBytecode_ok h; cases h; rfl
  · obtain ⟨_, _, -, h⟩ := withBytecode_ok h; obtain ⟨_, _, -, h⟩ := withBytecode_ok h; cases h; rfl
  · obtain ⟨_, _, -, h⟩ := withBytecode_ok h; cases h; rfl
  · obtain ⟨_, _, -, h⟩ := withBytecode_ok h; obtain ⟨_, _, -, h⟩ := withBytecode_ok h; cases h; rfl
  · obtain ⟨_, _, -, h⟩ := withBytecode_ok h; cases h; rfl
  · cases h; rfl
  · cases h

/-! ## The Glaze operations -/

/-- The decode loop runs the operations that exec runs. -/
theorem runGlazeOp_eq_exec (i : Instr) (s : State) (h : isGlazeOp i = true) : runGlazeOp i s = exec i s := by
  cases i <;> first | rfl | simp [isGlazeOp, isCommand] at h

/-- What an operation's success leaves: output grown by `n` bytes at the output position, within the declared length. -/
structure OutputGrew (s : State) (g : GlazeDecode) (m : Memory) (g' : GlazeDecode) : Prop where
  grows : g.pos < g'.pos
  bounded : g'.pos ≤ g.outLen
  outLen : g'.outLen = g.outLen
  bitPos : g'.bitPos = g.bitPos
  bitEnd : g'.bitEnd = g.bitEnd
  outside : sameOutside s.mem m (s.regs.dst.toNat + g.pos) (g'.pos - g.pos)
  wf : s.mem.wf → m.wf
  below : ∀ size, s.regs.dst.toNat + g.outLen ≤ size → s.mem.below size → m.below size

theorem copyBack_cases (dist n : Nat) (s : State) (g : GlazeDecode) (hn : 0 < n) :
    (∃ c, (c = .glzOvf ∨ c = .glzDist) ∧ copyBack dist n s g = .error c)
    ∨ ∃ m g', copyBack dist n s g = .ok (m, g') ∧ OutputGrew s g m g' := by
  rw [copyBack_eq]
  split
  · exact .inl ⟨_, .inl rfl, rfl⟩
  · split
    · exact .inl ⟨_, .inr rfl, rfl⟩
    · refine .inr ⟨_, _, rfl, ⟨?_, ?_, rfl, rfl, rfl, ?_, copyBytes_wf _ _ _ _, fun size hs =>
        copyBytes_below _ _ _ _ size ?_⟩⟩
      · show g.pos < g.pos + n; omega
      · show g.pos + n ≤ g.outLen; omega
      · rw [show g.pos + n - g.pos = n by omega]; exact copyBytes_outside _ _ _ _
      · omega

theorem emitLiteral_cases (n : Nat) (s : State) (g : GlazeDecode) (hn : 0 < n) :
    emitLiteral n s g = .error .glzOvf
    ∨ ∃ m g', emitLiteral n s g = .ok (m, g') ∧ OutputGrew s g m g' := by
  rw [emitLiteral_eq]
  split
  · exact .inl rfl
  · refine .inr ⟨_, _, rfl, ⟨?_, ?_, rfl, rfl, rfl, ?_, Memory.writeBytes_wf _ _ _, fun size hs =>
      Memory.writeBytes_below _ _ _ size ?_⟩⟩
    · show g.pos < g.pos + n; omega
    · show g.pos + n ≤ g.outLen; omega
    · rw [show g.pos + n - g.pos = n by omega]
      intro b hb
      exact Memory.read_writeBytes_outside _ _ _ _ (by simpa using hb)
    · simp; omega

theorem glazeOperation_cases (body : State → GlazeDecode → Except ErrorCode Decoding) (s : State) (g : GlazeDecode)
    (hg : s.glaze = some g)
    (hb : (∃ c, (c = .glzOvf ∨ c = .glzDist) ∧ body s g = .error c)
      ∨ ∃ m g', body s g = .ok (m, g') ∧ OutputGrew s g m g') :
    (∃ c, (c = .glzOvf ∨ c = .glzDist) ∧ glazeOperation body s = .next (raiseGlaze c g s))
    ∨ ∃ m g', glazeOperation body s = .next { s with mem := m, glaze := some g' } ∧ OutputGrew s g m g' := by
  rw [glazeOperation_some body s g hg]
  rcases hb with ⟨c, hc, hb⟩ | ⟨m, g', hb, ho⟩
  · exact .inl ⟨c, hc, by rw [hb]⟩
  · exact .inr ⟨m, g', by rw [hb], ho⟩

/-- A Glaze operation inside UNGLAZE raises, with nothing written, or grows the output. -/
theorem execGlaze_cases (i : Instr) (s : State) (g : GlazeDecode) (hi : isGlazeOp i = true) (hg : s.glaze = some g) :
    (∃ c, (c = .glzOvf ∨ c = .glzDist) ∧ exec i s = .next (raiseGlaze c g s))
    ∨ ∃ m g', exec i s = .next { s with mem := m, glaze := some g' } ∧ OutputGrew s g m g' := by
  have literal (n : Nat) (g0 : GlazeDecode) (hn : 0 < n) (hp : g0.pos = g.pos) (ho : g0.outLen = g.outLen)
      (h1 : g0.bitPos = g.bitPos) (h2 : g0.bitEnd = g.bitEnd) :
      (∃ c, (c = ErrorCode.glzOvf ∨ c = .glzDist) ∧ emitLiteral n s g0 = .error c)
      ∨ ∃ m g', emitLiteral n s g0 = .ok (m, g') ∧ OutputGrew s g m g' := by
    rcases emitLiteral_cases n s g0 hn with h | ⟨m, g', h, a, b, c, d, e, f, w, z⟩
    · exact .inl ⟨_, .inl rfl, h⟩
    · exact .inr ⟨m, g', h, hp ▸ a, ho ▸ b, ho ▸ c, h1 ▸ d, h2 ▸ e, hp ▸ f, w, ho ▸ z⟩
  have copy (dist n : Nat) (g0 : GlazeDecode) (hn : 0 < n) (hp : g0.pos = g.pos) (ho : g0.outLen = g.outLen)
      (h1 : g0.bitPos = g.bitPos) (h2 : g0.bitEnd = g.bitEnd) :
      (∃ c, (c = ErrorCode.glzOvf ∨ c = .glzDist) ∧ copyBack dist n s g0 = .error c)
      ∨ ∃ m g', copyBack dist n s g0 = .ok (m, g') ∧ OutputGrew s g m g' := by
    rcases copyBack_cases dist n s g0 hn with h | ⟨m, g', h, a, b, c, d, e, f, w, z⟩
    · exact .inl h
    · exact .inr ⟨m, g', h, hp ▸ a, ho ▸ b, ho ▸ c, h1 ▸ d, h2 ▸ e, hp ▸ f, w, ho ▸ z⟩
  cases i with
  | lit => exact glazeOperation_cases _ s g hg (literal 1 g (by omega) rfl rfl rfl rfl)
  | ref1 d => exact glazeOperation_cases _ s g hg (copy d 1 g (by omega) rfl rfl rfl rfl)
  | ref d l => exact glazeOperation_cases _ s g hg (copy (d + l) (l + 1) g (by omega) rfl rfl rfl rfl)
  | lits l => exact glazeOperation_cases _ s g hg (literal (l + 8) g (by omega) rfl rfl rfl rfl)
  | refd l =>
    simp only [exec, execRefd]
    refine glazeOperation_cases _ s g hg ?_
    simp only [getDictByte_eq]
    split
    · exact copy _ (l + 1) { g with dictPos := g.dictPos + 1 } (by omega) rfl rfl rfl rfl
    · exact .inl ⟨_, .inl rfl, rfl⟩
  | refw l dh =>
    simp only [exec, execRefw]
    refine glazeOperation_cases _ s g hg ?_
    simp only [getDictByte_eq]
    split
    · exact copy _ (l + 1) { g with dictPos := g.dictPos + 1 } (by omega) rfl rfl rfl rfl
    · exact .inl ⟨_, .inl rfl, rfl⟩
  | litl =>
    simp only [exec, execLitl]
    refine glazeOperation_cases _ s g hg ?_
    simp only [getLt_eq]
    split
    · exact literal _ { g with ltPos := g.ltPos + 1 } (by omega) rfl rfl rfl rfl
    · exact .inl ⟨_, .inl rfl, rfl⟩
  | _ => simp [isGlazeOp, isCommand] at hi

/-! ## The decode loop -/

/-- What the decode loop, started at output position `g.pos`, ends in: a success at the declared length or an error of
decoding, the output written between the two positions and nothing else. -/
structure LoopEnded (s : State) (g : GlazeDecode) (t : State) (m : Memory) (pos : Nat) : Prop where
  from_start : g.pos ≤ pos
  bounded : pos ≤ max g.pos g.outLen
  outside : sameOutside s.mem m (s.regs.dst.toNat + g.pos) (pos - g.pos)
  wf : s.mem.wf → m.wf
  below : ∀ size, s.regs.dst.toNat + g.outLen ≤ size → s.mem.below size → m.below size
  ends :
    (t = completeCommand (glazeResults g.outLen pos { s with mem := m }) ∧ g.outLen ≤ pos)
    ∨ ∃ c, (c = .glzOp ∨ c = .glzOvf ∨ c = .glzDist)
        ∧ t = raiseError c (BitVec.ofNat 32 pos) (glazeResults g.outLen pos { s with mem := m })

/-- With a turn for every output byte still to come and one to end, the loop ends. -/
theorem glazeLoop_ends (turns : Nat) (s : State) (g : GlazeDecode) (hg : s.glaze = some g)
    (ht : g.outLen - g.pos < turns) : ∃ t m pos, glazeLoop turns s = .next t ∧ LoopEnded s g t m pos := by
  induction turns generalizing s g with
  | zero => omega
  | succ turns ih =>
    simp only [glazeLoop, hg]
    rcases fetchGlaze_cases g s with ⟨hp, hf⟩ | ⟨-, c, hc, hf⟩ | ⟨hp, i, rest, hd, hf⟩
    · rw [hf]
      refine ⟨_, s.mem, g.pos, rfl, le_refl _, by omega, fun _ _ => rfl, id, fun _ _ => id, .inl ⟨rfl, hp⟩⟩
    · rw [hf]
      exact ⟨_, s.mem, g.pos, rfl, le_refl _, by omega, fun _ _ => rfl, id, fun _ _ => id,
        .inr ⟨c, by tauto, rfl⟩⟩
    · rw [hf]
      dsimp only
      have hop := decodeGlaze_isGlazeOp hd
      rw [runGlazeOp_eq_exec _ _ hop]
      generalize hb : g.bitPos + ((upcomingBits g s).length - rest.length) = bp
      rcases execGlaze_cases i { s with glaze := some { g with bitPos := bp } } { g with bitPos := bp } hop rfl with
        ⟨c, hc, hx⟩ | ⟨m, g', hx, grows, bounded, hol, -, -, outside, wf, below⟩
      · rw [hx]
        cases turns with
        | zero => exact ⟨_, s.mem, g.pos, rfl, le_refl _, by omega, fun _ _ => rfl, id, fun _ _ => id,
            .inr ⟨c, by tauto, rfl⟩⟩
        | succ turns => exact ⟨_, s.mem, g.pos, rfl, le_refl _, by omega, fun _ _ => rfl, id, fun _ _ => id,
            .inr ⟨c, by tauto, rfl⟩⟩
      · rw [hx]
        have hol' : g'.outLen = g.outLen := hol
        have grows' : g.pos < g'.pos := grows
        have bounded' : g'.pos ≤ g.outLen := bounded
        obtain ⟨t, m', pos, hl, a, b, c, d, e, f⟩ := ih { s with mem := m, glaze := some g' } g' rfl (by omega)
        refine ⟨t, m', pos, hl, by omega, by omega, ?_, fun h => d (wf h), fun size hs h =>
          e size (by rw [hol']; exact hs) (below size hs h), ?_⟩
        · intro b' hb'
          have h1 := c b'
          have h2 := outside b'
          dsimp only at h1 h2
          rw [h1 (by omega), h2 (by omega)]
        · rw [hol'] at f
          exact f

/-! ## What an instruction and a host move never change -/

/-- Two states agree on the parameters, the agenda and the model's own fields. -/
structure SameModelFields (s t : State) : Prop where
  impl : t.impl = s.impl
  spoiled : t.spoiled = s.spoiled
  freeCount : t.freeCount = s.freeCount
  readData : t.readData = s.readData
  agenda : t.agenda = s.agenda

theorem checkRegions_next {regions : List (Word × Word)} {s t : State} {body : Outcome}
    (h : checkRegions regions s body = .next t) :
    (body = .next t ∧ ∀ region ∈ regions, regionFits s.impl region = true)
    ∨ ∃ region ∈ regions, t = raiseError .mem region.1 s := by
  rcases checkRegions_cases regions s body with ⟨h1, h2⟩ | ⟨region, hm, -, h1⟩
  · exact .inl ⟨h1 ▸ h, h2⟩
  · rw [h1] at h
    exact .inr ⟨region, hm, by injection h with h; exact h.symm⟩

/-- UNGLAZE ends in an error before its loop, with memory as it was, or in what its loop ends in. -/
theorem execUnglaze_cases (s : State) :
    (∃ c info, (c = .mem ∨ c = .overlap) ∧ execUnglaze s = .next (raiseError c info s))
    ∨ (∃ outLen info, glazeHeader s = .error (outLen, info)
        ∧ execUnglaze s = .next (raiseError .glzSize (BitVec.ofNat 32 info) (glazeResults outLen 0 s)))
    ∨ ∃ g t m pos, glazeHeader s = .ok g ∧ regionsOverlap s.regs = false
        ∧ (∀ region ∈ glazeRegions s.regs, regionFits s.impl region = true)
        ∧ execUnglaze s = .next t ∧ LoopEnded { s with glaze := some g } g t m pos := by
  unfold execUnglaze
  dsimp only
  generalize hb : (if regionsOverlap s.regs = true then Host.Outcome.next (raiseError .overlap s.regs.dst s) else _) = body
  rcases checkRegions_cases (glazeRegions s.regs) s body with ⟨h1, hfit⟩ | ⟨region, -, -, h1⟩
  · rw [h1, ← hb]
    cases ho : regionsOverlap s.regs with
    | true => exact .inl ⟨.overlap, _, .inr rfl, if_pos rfl⟩
    | false =>
      rw [if_neg (by simp)]
      cases hh : glazeHeader s with
      | error e => exact .inr (.inl ⟨e.1, e.2, rfl, rfl⟩)
      | ok g =>
        obtain ⟨t, m, pos, hl, he⟩ := glazeLoop_ends (g.outLen + 1) { s with glaze := some g } g rfl (by omega)
        exact .inr (.inr ⟨g, t, m, pos, rfl, rfl, hfit, hl, he⟩)
  · exact .inl ⟨.mem, region.1, .inl rfl, h1⟩

/-- No instruction changes the parameters, the agenda or the model's own fields. -/
theorem exec_frame {i : Instr} {s t : State} (h : exec i s = .next t) : SameModelFields s t := by
  have done {u : State} (h : (Host.Outcome.next u : Outcome) = .next t) (hu : SameModelFields s u) :
      SameModelFields s t := by injection h with h; exact h ▸ hu
  have glaze (hi : isGlazeOp i = true) : SameModelFields s t := by
    cases hg : s.glaze with
    | none =>
      cases i <;> first
        | (simp [isGlazeOp, isCommand] at hi; done)
        | (simp only [exec, execLit, execRef1, execRef, execRefd, execRefw, execLits, execLitl,
            glazeOperation_none _ s hg] at h; cases h)
    | some g =>
      rcases execGlaze_cases i s g hi hg with ⟨c, -, hx⟩ | ⟨m, g', hx, -⟩
      · exact done (hx.symm.trans h) ⟨rfl, rfl, rfl, rfl, rfl⟩
      · exact done (hx.symm.trans h) ⟨rfl, rfl, rfl, rfl, rfl⟩
  have region {regions : List (Word × Word)} {u : State} (h : checkRegions regions s (.next u) = .next t)
      (hu : SameModelFields s u) : SameModelFields s t := by
    rcases checkRegions_next h with ⟨h, -⟩ | ⟨r, -, rfl⟩
    · exact done h hu
    · exact ⟨rfl, rfl, rfl, rfl, rfl⟩
  cases i with
  | nop => exact done h ⟨rfl, rfl, rfl, rfl, rfl⟩
  | lcgNext15 => exact done h ⟨rfl, rfl, rfl, rfl, rfl⟩
  | lcgNext16 => exact done h ⟨rfl, rfl, rfl, rfl, rfl⟩
  | bitperm dir =>
    simp only [exec, execBitperm] at h
    split at h
    · exact region h ⟨rfl, rfl, rfl, rfl, rfl⟩
    · exact done h ⟨rfl, rfl, rfl, rfl, rfl⟩
  | fence dir xf =>
    simp only [exec, execFence] at h
    split at h
    · exact done h ⟨rfl, rfl, rfl, rfl, rfl⟩
    · split at h
      · exact done h ⟨rfl, rfl, rfl, rfl, rfl⟩
      · exact region h ⟨rfl, rfl, rfl, rfl, rfl⟩
  | rotxor => exact region h ⟨rfl, rfl, rfl, rfl, rfl⟩
  | csum =>
    simp only [exec, execCsum] at h
    split at h
    · exact done h ⟨rfl, rfl, rfl, rfl, rfl⟩
    · exact region h ⟨rfl, rfl, rfl, rfl, rfl⟩
  | adler32 => exact region h ⟨rfl, rfl, rfl, rfl, rfl⟩
  | check cSum cXor cAdl =>
    simp only [exec, execCheck] at h
    split at h <;> exact done h ⟨rfl, rfl, rfl, rfl, rfl⟩
  | unglaze =>
    rcases execUnglaze_cases s with ⟨c, info, -, hx⟩ | ⟨outLen, info, -, hx⟩ | ⟨g, u, m, pos, -, -, -, hx, he⟩
    · exact done (hx.symm.trans h) ⟨rfl, rfl, rfl, rfl, rfl⟩
    · exact done (hx.symm.trans h) ⟨rfl, rfl, rfl, rfl, rfl⟩
    · refine done (hx.symm.trans h) ?_
      rcases he.ends with ⟨rfl, -⟩ | ⟨c, -, rfl⟩ <;> exact ⟨rfl, rfl, rfl, rfl, rfl⟩
  | lit => exact glaze rfl
  | ref1 d => exact glaze rfl
  | ref d l => exact glaze rfl
  | refd l => exact glaze rfl
  | refw l dh => exact glaze rfl
  | lits l => exact glaze rfl
  | litl => exact glaze rfl

/-- What a host register write can do: nothing, or change registers. -/
theorem writeOffset_frame (offset : BitVec 12) (v : Word) (s : State) :
    SameModelFields s (writeOffset offset v s) ∧ (writeOffset offset v s).mem = s.mem
      ∧ (writeOffset offset v s).glaze = s.glaze := by
  unfold writeOffset
  split
  · exact ⟨⟨rfl, rfl, rfl, rfl, rfl⟩, rfl, rfl⟩
  · split
    · exact ⟨⟨rfl, rfl, rfl, rfl, rfl⟩, rfl, rfl⟩
    · unfold writeNamed
      split
      · exact ⟨⟨rfl, rfl, rfl, rfl, rfl⟩, rfl, rfl⟩
      · split
        · exact ⟨⟨rfl, rfl, rfl, rfl, rfl⟩, rfl, rfl⟩
        · split <;> exact ⟨⟨rfl, rfl, rfl, rfl, rfl⟩, rfl, rfl⟩

/-- A host register read changes the answer and at most the count of free values. -/
theorem readOffset_frame (offset : BitVec 12) (s : State) :
    ∃ value count, readOffset offset s = { s with readData := value, freeCount := count } := by
  unfold readOffset
  split
  · exact ⟨0, s.freeCount, rfl⟩
  · split
    · exact ⟨_, _, rfl⟩
    · exact ⟨_, s.freeCount, rfl⟩

end Sys2Proof.Machine
end

