-- ==== Sys2Proof/Laws/PerInstr.lean ====
section
/-! SUPPORT. The family of statements made for each instruction: how long its encoding is. -/

namespace Sys2Proof.Laws

/-- A bytecode's code is 1 to 15 bits long (30_encoding.md R108). -/
theorem bytecodeCode_length (v : Nat) (h : isBytecode v = true) : (bytecodeCode v).length ≤ 15 := by
  have hv : v < 2 ^ 8 := by simpa [isBytecode] using h
  unfold bytecodeCode
  split
  · simp
  · rename_i h0
    have := (Nat.log2_lt h0).2 hv
    simp only [List.length_append, List.length_replicate, bitsMsbFirst, List.length_map, List.length_reverse,
      List.length_range]
    omega

/-- A command is one word with zero reserved bits (30_encoding.md R101, R107); a well-formed Glaze operation is one to
three bytecodes, so at most 45 bits (R108, R109). -/
def EncodedSize.Statement (i : Instr) : Prop :=
  i.wellFormed = true →
    match encode i with
    | .command w => Machine.isCommand i = true ∧ w.toNat < 2 ^ 16
    | .bits bs => Machine.isGlazeOp i = true ∧ bs.length ≤ maxGlazeBits

theorem commandWord_lt (op flags : Byte) : (commandWord op flags).toNat < 2 ^ 16 := by
  have h : ((0 : Half) ++ flags ++ op).toNat < 2 ^ 16 := by
    rw [BitVec.toNat_append, BitVec.toNat_append]
    simp only [BitVec.ofNat_eq_ofNat, BitVec.toNat_ofNat, Nat.zero_mod, Nat.zero_shiftLeft, Nat.zero_or]
    have := op.isLt
    exact Nat.or_lt_two_pow (by rw [Nat.shiftLeft_eq]; omega) (by omega)
  exact h

theorem EncodedSize.nop : EncodedSize.Statement .nop := fun _ => ⟨rfl, commandWord_lt _ _⟩
theorem EncodedSize.lcgNext15 : EncodedSize.Statement .lcgNext15 := fun _ => ⟨rfl, commandWord_lt _ _⟩
theorem EncodedSize.lcgNext16 : EncodedSize.Statement .lcgNext16 := fun _ => ⟨rfl, commandWord_lt _ _⟩
theorem EncodedSize.bitperm (dir : Direction) : EncodedSize.Statement (.bitperm dir) := fun _ =>
  ⟨rfl, commandWord_lt _ _⟩
theorem EncodedSize.fence (dir : Direction) (xf : Bool) : EncodedSize.Statement (.fence dir xf) := fun _ =>
  ⟨rfl, commandWord_lt _ _⟩
theorem EncodedSize.rotxor : EncodedSize.Statement .rotxor := fun _ => ⟨rfl, commandWord_lt _ _⟩
theorem EncodedSize.csum : EncodedSize.Statement .csum := fun _ => ⟨rfl, commandWord_lt _ _⟩
theorem EncodedSize.adler32 : EncodedSize.Statement .adler32 := fun _ => ⟨rfl, commandWord_lt _ _⟩
theorem EncodedSize.check (cSum cXor cAdl : Bool) : EncodedSize.Statement (.check cSum cXor cAdl) := fun _ =>
  ⟨rfl, commandWord_lt _ _⟩
theorem EncodedSize.unglaze : EncodedSize.Statement .unglaze := fun _ => ⟨rfl, commandWord_lt _ _⟩

/-- One bitstream operand after an opcode. -/
theorem one_operand (op v : Nat) (hop : isBytecode op = true) (h : isBytecode v = true) :
    (bytecodeCode op ++ bytecodeCode v).length ≤ maxGlazeBits := by
  have h1 := bytecodeCode_length op hop
  have h2 := bytecodeCode_length v h
  rw [List.length_append, maxGlazeBits]
  omega

/-- Two bitstream operands after an opcode. -/
theorem two_operands (op v w : Nat) (hop : isBytecode op = true) (hv : isBytecode v = true) (hw : isBytecode w = true) :
    (bytecodeCode op ++ bytecodeCode v ++ bytecodeCode w).length ≤ maxGlazeBits := by
  have h1 := bytecodeCode_length op hop
  have h2 := bytecodeCode_length v hv
  have h3 := bytecodeCode_length w hw
  rw [List.length_append, List.length_append, maxGlazeBits]
  omega

theorem EncodedSize.lit : EncodedSize.Statement .lit := fun _ =>
  ⟨rfl, le_trans (bytecodeCode_length 1 rfl) (by decide)⟩
theorem EncodedSize.ref1 (d : Nat) : EncodedSize.Statement (.ref1 d) := fun h => ⟨rfl, one_operand 2 d rfl h⟩
theorem EncodedSize.ref (d l : Nat) : EncodedSize.Statement (.ref d l) := fun h =>
  have h := (Bool.and_eq_true _ _).mp h
  ⟨rfl, two_operands 3 d l rfl h.1 h.2⟩
theorem EncodedSize.refd (l : Nat) : EncodedSize.Statement (.refd l) := fun h => ⟨rfl, one_operand 4 l rfl h⟩
theorem EncodedSize.refw (l dh : Nat) : EncodedSize.Statement (.refw l dh) := fun h =>
  have h := (Bool.and_eq_true _ _).mp h
  ⟨rfl, two_operands 5 l dh rfl h.1 h.2⟩
theorem EncodedSize.lits (l : Nat) : EncodedSize.Statement (.lits l) := fun h => ⟨rfl, one_operand 6 l rfl h⟩
theorem EncodedSize.litl : EncodedSize.Statement .litl := fun _ =>
  ⟨rfl, le_trans (bytecodeCode_length 7 rfl) (by decide)⟩

end Sys2Proof.Laws
end

