-- ==== Sys2Proof/Tests/Slice0.lean ====
section
/-! SUPPORT. Tests: well-formedness refusals, words and codes written out from 30_encoding.md, one step each on the
vectors of 95_test_vectors.md, and for every statement with hypotheses a state that meets them. -/

namespace Sys2Proof.Tests

open Sys2Proof Sys2Proof.Machine

set_option Elab.async false

/-! ## Well-formedness: an ill-formed term for each check -/

theorem test_wf_ref1 : (Instr.ref1 256).wellFormed = false := by decide
theorem test_wf_ref_d : (Instr.ref 256 0).wellFormed = false := by decide
theorem test_wf_ref_l : (Instr.ref 0 256).wellFormed = false := by decide
theorem test_wf_refd : (Instr.refd 256).wellFormed = false := by decide
theorem test_wf_refw_l : (Instr.refw 256 0).wellFormed = false := by decide
theorem test_wf_refw_dh : (Instr.refw 0 256).wellFormed = false := by decide
theorem test_wf_lits : (Instr.lits 256).wellFormed = false := by decide
theorem test_wf_largest :
    [Instr.ref1 255, .ref 255 255, .refd 255, .refw 255 255, .lits 255, .lit, .litl, .nop].all Instr.wellFormed
      = true := by decide

/-! ## Decoding: words and codes written out from the spec -/

/-- The words of 30_encoding.md R111, each with what it stands for. -/
theorem test_decode_command_words :
    [0x00000000#32, 0x00000001, 0x00000002, 0x00000010, 0x00000110, 0x00000011, 0x00000111, 0x00000211, 0x00000311,
      0x00000012, 0x00000020, 0x00000021, 0x00000022, 0x00000122, 0x00000222, 0x00000422, 0x00000722,
      0x00000030].map (fun v => (decodeCommand v).toOption)
    = [some .nop, some .lcgNext15, some .lcgNext16, some (.bitperm .scramble), some (.bitperm .descramble),
      some (.fence .scramble false), some (.fence .descramble false), some (.fence .scramble true),
      some (.fence .descramble true), some .rotxor, some .csum, some .adler32, some (.check false false false),
      some (.check true false false), some (.check false true false), some (.check false false true),
      some (.check true true true), some .unglaze] := by decide +kernel

/-- V-D1 to V-D8: the illegal words, each with its reason. -/
theorem test_decode_illegal_words :
    [0x00010000#32, 0x00000003, 0x00000100, 0x00000210, 0x00000411, 0x00000822, 0x00000130,
      0x000000FF].map decodeCommand
    = [.error .reservedBits, .error .unassignedOp, .error .flagNotAllowed, .error .flagNotAllowed,
      .error .flagNotAllowed, .error .flagNotAllowed, .error .flagNotAllowed, .error .unassignedOp] := by decide +kernel

/-- The operations' codes from 30_encoding.md R108 and R109: `1`; `010 010` (REF1 d=2); `011 1 010` (REF d=1 l=2);
`00100 010` (REFD l=2); `00101 010 00000000` (REFW l=2 dh=0); `00110 1` (LITS l=1); `00111`. -/
theorem test_decode_glaze_codes :
    [ [true]
    , [false, true, false, false, true, false]
    , [false, true, true, true, false, true, false]
    , [false, false, true, false, false, false, true, false]
    , [false, false, true, false, true, false, true, false, false, false, false, false, false, false, false, false]
    , [false, false, true, true, false, true]
    , [false, false, true, true, true] ].map (fun bs => (decodeGlaze bs).toOption)
    = [some (.lit, []), some (.ref1 2, []), some (.ref 1 2, []), some (.refd 2, []), some (.refw 2 0, []),
      some (.lits 1, []), some (.litl, [])] := by decide +kernel

/-- Reserved opcodes 0x00 (`00000000`) and 0x08 (`0001000`), and a code cut short. -/
theorem test_decode_glaze_rejects :
    decodeGlaze (List.replicate 8 false) = .error .reservedOpcode
    ∧ decodeGlaze [false, false, false, true, false, false, false] = .error .reservedOpcode
    ∧ decodeGlaze [false, true] = .error .bitstreamEnd
    ∧ decodeGlaze [false, true, false] = .error .bitstreamEnd := by
  decide +kernel

/-- The longest code: the value 0x80 takes seven zeros, a one and seven more bits. -/
theorem test_bytecode_128 :
    getBytecode (List.replicate 7 false ++ [true] ++ List.replicate 7 false ++ [true]) = some (128, [true]) := by
  decide +kernel

/-- Every row of the opcode table decodes to its own instruction. -/
theorem test_table_rows :
    [0x00, 0x01, 0x02, 0x10, 0x11, 0x12, 0x20, 0x21, 0x22, 0x30].map (decodeTableWord 32)
      = [some .nop, some .lcgNext15, some .lcgNext16, some (.bitperm .scramble), some (.fence .scramble false),
        some .rotxor, some .csum, some .adler32, some (.check false false false), some .unglaze]
    ∧ [1, 2, 3, 4, 5, 6, 7].map (decodeTableWord 8)
      = [some .lit, some (.ref1 0), some (.ref 0 0), some (.refd 0), some (.refw 0 0), some (.lits 0), some .litl] := by
  decide +kernel

/-! ## A small state -/

/-- The registers most vectors start from: the test multiplier and increment of 95_test_vectors.md, and `ADDR` 0x100. -/
def baseRegs : Regs :=
  { Regs.reset 0 with lcgMul := 0x41C64E6D, lcgInc := 0x00003039, lcgAcc := 0x00000001, addr := 0x00000100 }

/-- An idle block with `BUF_SIZE` 0x10000 and `BP_MAX_CHUNK` 0x100, its bytes written from 0x100 up. -/
def idle (r : Regs) (bytes : List Byte) : State :=
  { impl := { bufLast := 0xFFFF, chunkScale := 0, lcgIncReset := 0 }
    regs := r
    mem := Memory.writeBytes [] 0x100 bytes
    glaze := none
    spoiled := false
    freeCount := 0
    readData := 0
    agenda := [] }

/-- The same block with the command word `v` accepted. -/
def running (v : Word) (r : Regs) (bytes : List Byte) : State := acceptCommand v (idle r bytes)

/-- The outcome is a next state with this `STATUS`, these registers and these bytes from `a` up. -/
def leaves (o : Outcome) (status : Word) (registers : List (RegName × Word)) (a : Nat) (bytes : List Byte) : Bool :=
  match o with
  | .next t =>
    readRegister t.regs .status = status && registers.all (fun nv => readRegister t.regs nv.1 = nv.2)
      && t.mem.readBytes a bytes.length = bytes
  | .fault _ => false
  | .refused _ => false

/-- The outcome is a next state. -/
def goesOn (o : Outcome) : Bool :=
  match o with
  | .next _ => true
  | .fault _ => false
  | .refused _ => false

theorem exists_next {o : Outcome} (h : goesOn o = true) : ∃ t, o = .next t := by
  cases o <;> simp_all [goesOn]

/-! ## Commands, one step each (95_test_vectors.md) -/

/-- 40_lcg.md R120, the example. -/
theorem test_nop :
    leaves (step (running 0x00000000 baseRegs []))
      0x00000002 [(.lcgAcc, 0x00000001), (.lcgOut, 0)] 0x100 [] = true := by decide +kernel

/-- V-L1. -/
theorem test_lcgNext15 :
    leaves (step (running 0x00000001 baseRegs []))
      0x00000002 [(.lcgAcc, 0x41C67EA6), (.lcgOut, 0x000020E3)] 0x100 [] = true := by decide +kernel

/-- V-L2. -/
theorem test_lcgNext15_n15sel :
    leaves (step (running 0x00000001 { baseRegs with ctrl := ctrlOfWord 0x00000008 } []))
      0x00000002 [(.lcgAcc, 0x41C67EA6), (.lcgOut, 0x000041C6)] 0x100 [] = true := by decide +kernel

/-- 40_lcg.md R125, the example. -/
theorem test_lcgNext16 :
    leaves (step (running 0x00000002 baseRegs []))
      0x00000002 [(.lcgAcc, 0x41C67EA6), (.lcgOut, 0x000041C6)] 0x100 [] = true := by decide +kernel

/-- 40_lcg.md R125, the wrapping corner case. -/
theorem test_lcgNext16_wraps :
    leaves (step (running 0x00000002 { baseRegs with lcgMul := 1, lcgInc := 1, lcgAcc := 0xFFFFFFFF } []))
      0x00000002 [(.lcgAcc, 0), (.lcgOut, 0)] 0x100 [] = true := by decide +kernel

/-- V-B4: one slice of two bytes. -/
theorem test_bitperm :
    leaves (step (running 0x00000010 { baseRegs with chunk := 2, len := 2 } [0x01, 0x80]))
      0x00000002 [(.lcgAcc, 0xC487EB71)] 0x100 [0x08, 0x40] = true := by decide +kernel

/-- V-B6: the sliding window, in reverse. -/
theorem test_bitperm_slide_descramble :
    leaves
      (step
        (running 0x00000110
          { baseRegs with chunk := 4, len := 3, ctrl := ctrlOfWord 0x00000040 }
          [0x0F, 0x00, 0xF0]))
      0x00000002 [(.lcgAcc, 0x284797A9)] 0x100 [0x65, 0x09, 0x81] = true := by decide +kernel

/-- V-B9: order-preserving removal. -/
theorem test_bitperm_order_keeping :
    leaves (step (running 0x00000010 { baseRegs with chunk := 0x80, len := 1, ctrl := ctrlOfWord 0x00000020 } [0x01]))
      0x00000002 [(.lcgAcc, 0x9CFBAE39)] 0x100 [0x04] = true := by decide +kernel

/-- V-B15: the chunk is checked before the region. -/
theorem test_bitperm_cfg :
    leaves (step (running 0x00000010 { baseRegs with chunk := 0x200, addr := 0xFFFFFF00, len := 0x200 } []))
      0x00000206 [(.errInfo, 0x200)] 0x100 [] = true := by decide +kernel

/-- V-F2: the boundary that toggles. -/
theorem test_fence_toggles :
    leaves (step (running 0x00000011 { baseRegs with lcgAcc := 0x27, fence := 0x1D, len := 2 } [0x34, 0x12]))
      0x00000002 [(.lcgAcc, 0x053622D4)] 0x100 [0x54, 0x16] = true := by decide +kernel

/-- V-F8: no toggle, big-endian. -/
theorem test_fence_big_endian :
    leaves
      (step
        (running 0x00000011
          { baseRegs with lcgAcc := 9, fence := 0x1D, len := 2, ctrl := ctrlOfWord 0x00000001 }
          [0x12, 0x34]))
      0x00000002 [(.lcgAcc, 0x4FF8F20E)] 0x100 [0x3A, 0x30] = true := by decide +kernel

/-- V-F5: the second draw is the mask. -/
theorem test_fence_extra_fudge :
    leaves (step (running 0x00000211 { baseRegs with lcgAcc := 0x27, fence := 0x1D, len := 2 } [0x34, 0x12]))
      0x00000002 [(.lcgAcc, 0x7AA19C7D)] 0x100 [0x9F, 0x29] = true := by decide +kernel

/-- V-F4. -/
theorem test_fence_descramble :
    leaves (step (running 0x00000111 { baseRegs with lcgAcc := 0x27, fence := 0x1D, len := 2 } [0x54, 0x16]))
      0x00000002 [(.lcgAcc, 0x053622D4)] 0x100 [0x34, 0x12] = true := by decide +kernel

/-- V-R1. -/
theorem test_rotxor :
    leaves
      (step
        (running 0x00000012
          { baseRegs with
            rotSeed0 := 0x11111111, rotSeed1 := 0x22222222, rotSeed2 := 0x33333333, rotLen0 := 2,
            rotLen1 := 3, rotLen2 := 1, len := 10 }
          [0x00, 0x00, 0x00, 0x00, 0x00, 0x00, 0x00, 0x00, 0x00, 0x00]))
      0x00000002 [(.lcgAcc, 0x72643E6E), (.rotWork0, 0x42397002), (.rotWork1, 0x84D141E9), (.rotWork2, 0xF2D886F0),
        (.rotState, 1), (.rotCount, 1), (.rotFudge, 1)]
      0x100 [0x9D, 0xE2, 0x3B, 0xE8, 0xD1, 0xD8, 0xEA, 0x64, 0x39, 0x64] = true := by decide +kernel

/-- V-R2: the high byte of each draw. -/
theorem test_rotxor_high :
    leaves
      (step
        (running 0x00000012
          { baseRegs with
            rotSeed0 := 0x11111111, rotSeed1 := 0x22222222, rotSeed2 := 0x33333333, rotLen0 := 2,
            rotLen1 := 3, rotLen2 := 1, len := 10, ctrl := ctrlOfWord 0x00000100 }
          [0x00, 0x00, 0x00, 0x00, 0x00, 0x00, 0x00, 0x00, 0x00, 0x00]))
      0x00000002 [(.lcgAcc, 0x72643E6E), (.rotWork0, 0x42397002), (.rotWork1, 0x84D141E9), (.rotWork2, 0xF2D886F0),
        (.rotState, 1), (.rotCount, 1), (.rotFudge, 1)]
      0x100 [0xFB, 0xC6, 0xF7, 0xB9, 0x84, 0xF2, 0x15, 0xA4, 0x42, 0x72] = true := by decide +kernel

/-- V-C2: big-endian words. -/
theorem test_csum :
    leaves
      (step
        (running 0x00000020
          { baseRegs with len := 8, ctrl := ctrlOfWord 0x00000001 }
          [0x01, 0x00, 0x00, 0x00, 0x02, 0x00, 0x00, 0x00]))
      0x00000002 [(.csumSum, 0xFD000000), (.csumXor, 0x03000000)] 0x100 [] = true := by decide +kernel

/-- V-C6. -/
theorem test_csum_length :
    leaves (step (running 0x00000020 { baseRegs with len := 6 } []))
      0x00000306 [(.errInfo, 6), (.csumSum, 0)] 0x100 [] = true := by decide +kernel

/-- V-C9. -/
theorem test_adler32 :
    leaves
      (step
        (running 0x00000021
          { baseRegs with len := 9 }
          [0x57, 0x69, 0x6B, 0x69, 0x70, 0x65, 0x64, 0x69, 0x61]))
      0x00000002 [(.adler, 0x11E60398)] 0x100 [] = true := by decide +kernel

/-- V-C13. -/
theorem test_adler32_unreduced :
    leaves (step (running 0x00000021 { baseRegs with len := 1, adler := 0xFFF0FFF0 } [0x01]))
      0x00000002 [(.adler, 0xFFF00000)] 0x100 [] = true := by decide +kernel

/-- V-C17. -/
theorem test_check_all :
    leaves (step (running 0x00000722 { baseRegs with csumSum := 1, csumXor := 2, adler := 3 } []))
      0x00000606 [(.errInfo, 7)] 0x100 [] = true := by decide +kernel

/-- V-C18. -/
theorem test_check_selected :
    leaves (step (running 0x00000122 { baseRegs with csumSum := 1, csumXor := 2, adler := 3, expSum := 1 } []))
      0x00000002 [(.errInfo, 0)] 0x100 [] = true := by decide +kernel

/-- V-G1. -/
theorem test_unglaze :
    leaves
      (step
        (running 0x00000030
          { baseRegs with len := 0x14, dst := 0x800, dstCap := 5 }
          [0x05, 0x00, 0x00, 0x00, 0x02, 0x00, 0x00, 0x00, 0xDE, 0x90, 0x02, 0x00, 0x00, 0x00, 0x41, 0x42, 0x00, 0x00,
           0x00, 0x00]))
      0x00000002 [(.glzOutLen, 5), (.glzPos, 5)] 0x800 [0x41, 0x42, 0x41, 0x42, 0x41] = true := by decide +kernel

/-- V-G15: a distance of 0 after one literal. -/
theorem test_unglaze_dist :
    leaves
      (step
        (running 0x00000030
          { baseRegs with len := 0x13, dst := 0x800, dstCap := 2 }
          [0x02, 0x00, 0x00, 0x00, 0x02, 0x00, 0x00, 0x00, 0xA0, 0x00, 0x01, 0x00, 0x00, 0x00, 0x41, 0x00, 0x00, 0x00,
           0x00]))
      0x00000A06 [(.errInfo, 1), (.glzOutLen, 2), (.glzPos, 1)] 0x800 [0x41, 0x00] = true := by decide +kernel

/-- V-D1. -/
theorem test_illegal_word :
    leaves (step (running 0x00010000 baseRegs []))
      0x00000106 [(.errInfo, 0x00010000), (.lcgAcc, 1)] 0x100 [] = true := by decide +kernel

/-! ## Glaze operations, one step each -/

/-- Cursors over a stream whose regions lie apart: 16 bits of bitstream from offset 0, sixteen dictionary bytes from
offset 2, one length-table byte at offset 18; three of twenty output bytes written. -/
def cursors : GlazeDecode :=
  { outLen := 20
    bitPos := 0
    bitEnd := 16
    dictPos := 2
    dictEnd := 18
    ltPos := 18
    ltEnd := 19
    pos := 3 }

/-- An UNGLAZE decoding with the cursors `g` over the bytes at 0x100: `b0 b1` the bitstream, the dictionary 01 02 … 10,
a length-table byte 00; the output, from 0x800, starts 41 42 43. -/
def decodingWith (g : GlazeDecode) (b0 b1 : Byte) : State :=
  let s := running 0x00000030 { baseRegs with len := 0x13, dst := 0x800, dstCap := 20 }
    [b0, b1, 1, 2, 3, 4, 5, 6, 7, 8, 9, 10, 11, 12, 13, 14, 15, 16, 0]
  { s with mem := s.mem.writeBytes 0x800 [0x41, 0x42, 0x43], glaze := some g }

/-- The bytes from 0x803 up and the cursors an operation leaves. -/
def leavesGlaze (o : Outcome) (bytes : List Byte) (g : GlazeDecode) : Bool :=
  match o with
  | .next t => t.mem.readBytes 0x803 bytes.length = bytes && t.glaze = some g
  | .fault _ => false
  | .refused _ => false

/-- `1`: one literal (45_glaze.md R243). -/
theorem test_lit :
    leavesGlaze (step (decodingWith cursors 0x80 0x00)) [1, 0] { cursors with bitPos := 1, dictPos := 3, pos := 4 }
      = true := by decide +kernel

/-- `010 010`: one byte at distance 2 (R244). -/
theorem test_ref1 :
    leavesGlaze (step (decodingWith cursors 0x48 0x00)) [0x42, 0] { cursors with bitPos := 6, pos := 4 } = true := by
  decide +kernel

/-- `011 00000000 010`: d = 0, l = 2, three bytes at distance 2, reading a byte it wrote (R245, R246). -/
theorem test_ref :
    leavesGlaze (step (decodingWith cursors 0x60 0x08)) [0x42, 0x43, 0x42, 0] { cursors with bitPos := 14, pos := 6 }
      = true := by decide +kernel

/-- `00100 010`: l = 2, the dictionary byte 01, three bytes at distance 3 (R247). -/
theorem test_refd :
    leavesGlaze (step (decodingWith cursors 0x22 0x00)) [0x41, 0x42, 0x43, 0]
      { cursors with bitPos := 8, dictPos := 3, pos := 6 } = true := by decide +kernel

/-- `00101 010 00000000`: l = 2, dh = 0, the dictionary byte 01 (R248). -/
theorem test_refw :
    leavesGlaze (step (decodingWith cursors 0x2A 0x00)) [0x41, 0x42, 0x43, 0]
      { cursors with bitPos := 16, dictPos := 3, pos := 6 } = true := by decide +kernel

/-- `00110 1`: nine literals (R249). -/
theorem test_lits :
    leavesGlaze (step (decodingWith cursors 0x34 0x00)) [1, 2, 3, 4, 5, 6, 7, 8, 9, 0]
      { cursors with bitPos := 6, dictPos := 11, pos := 12 } = true := by decide +kernel

/-- `00111`: fourteen literals, the length-table byte 00 (R252). -/
theorem test_litl :
    leavesGlaze (step (decodingWith cursors 0x38 0x00)) [1, 2, 3, 4, 5, 6, 7, 8, 9, 10, 11, 12, 13, 14, 0]
      { cursors with bitPos := 5, dictPos := 16, ltPos := 19, pos := 17 } = true := by decide +kernel

/-- REFW's high byte weighs 256: dh = 1 reaches before the first output byte (R248, `ERR_GLZ_DIST`). -/
theorem test_refw_high_byte :
    leaves (exec (.refw 2 1) (decodingWith cursors 0 0)) 0x00000A06 [(.errInfo, 3), (.glzOutLen, 20), (.glzPos, 3)]
      0x803 [0] = true := by decide +kernel

/-- A distance equal to the output written is the farthest that copies; one more raises (R246). -/
theorem test_ref1_farthest :
    goesOn (exec (.ref1 3) (decodingWith cursors 0 0)) = true
    ∧ leaves (exec (.ref1 4) (decodingWith cursors 0 0)) 0x00000A06 [(.errInfo, 3)] 0x803 [0] = true := by
  decide +kernel

/-- An operation without an UNGLAZE faults (log 10). -/
theorem test_no_stream :
    [Instr.lit, .ref1 1, .ref 1 1, .refd 1, .refw 1 1, .lits 1, .litl].all
      (fun i =>
        match exec i (idle baseRegs []) with
        | .next _ => false
        | .fault f => f = .noGlazeStream
        | .refused _ => false) = true := by decide +kernel

/-! ## The loader -/

/-- A table word of each format is the next instruction to run, from the reset state as it is. -/
theorem test_fetch_command :
    step (State.reset.withFetchWord 32 0x02) = exec .lcgNext16 (State.reset.withFetchWord 32 0x02) := by
  rfl

/-- The stream that stands for a lone Glaze operation has the header UNGLAZE would read from it (log 14). -/
theorem test_fetch_glaze_header :
    [1, 2, 3, 4, 5, 6, 7].all (fun w =>
      let s := (idle baseRegs []).withFetchWord 8 w
      (glazeHeader s).toOption = s.glaze && !regionsOverlap s.regs) = true := by decide +kernel

/-! ## The host -/

/-- The host's move `op` on a state. -/
def host (op : HostOp) (s : State) : State := { s with agenda := [.host op] }

/-- 10_state.md R29, R281: an accepted `CMD` write. -/
theorem test_host_cmd :
    leaves (step (host (.writeReg 4 0x00C 0x00000012) (idle baseRegs []))) 0x00000001 [(.cmd, 0x12)] 0 [] = true := by
  decide +kernel

/-- R46 while busy: `CMD_OVR` for `CMD`, `WR_BUSY` for `LEN`; the registers keep their values. -/
theorem test_host_busy_writes :
    leaves (step (host (.writeReg 4 0x00C 0x20) (running 0x12 baseRegs []))) 0x00000009 [(.cmd, 0x12)] 0 [] = true
    ∧ leaves (step (host (.writeReg 4 0x028 5) (running 0x12 baseRegs []))) 0x00000011 [(.len, 0)] 0 [] = true := by
  decide +kernel

/-- R26: writing 4 to `STATUS` clears `ERR` and `ERRCODE` and keeps the rest. -/
theorem test_host_status :
    leaves
      (step
        (host (.writeReg 4 0x008 4)
          (idle { baseRegs with
            status := { Status.reset with done := true, err := true, errCode := 6, wrBusy := true } } [])))
      0x00000012 [] 0 [] = true := by decide +kernel

/-- R46: `CTRL` keeps bits 9:0, `FENCE` bits 15:0. -/
theorem test_host_reserved_bits :
    leaves (step (host (.writeReg 4 0x004 0xFFFFFFFF) (idle baseRegs []))) 0 [(.ctrl, 0x3FF)] 0 [] = true
    ∧ leaves (step (host (.writeReg 4 0x038 0xFFFFFFFF) (idle baseRegs []))) 0 [(.fence, 0xFFFF)] 0 [] = true := by
  decide +kernel

/-- What a host read answers. -/
def reads (o : Outcome) (v : Word) : Bool :=
  match o with
  | .next t => t.readData = v
  | .fault _ => false
  | .refused _ => false

/-- R22, R42, R47: `ID`, a reserved offset, and `CMD` while busy. -/
theorem test_host_reads :
    reads (step (host (.readReg 4 0x000) (idle baseRegs []))) 0x47555354 = true
    ∧ reads (step (host (.readReg 4 0x08C) (running 0x12 baseRegs []))) 0 = true
    ∧ reads (step (host (.readReg 4 0x00C) (running 0x12 baseRegs []))) 0x12 = true := by decide +kernel

/-- R48, R89: what the model refuses. -/
theorem test_host_refusals :
    step (host (.readReg 2 0x004) (idle baseRegs [])) = .refused .badRegisterAccess
    ∧ step (host (.readReg 4 0x005) (idle baseRegs [])) = .refused .badRegisterAccess
    ∧ step (host (.writeByte 0x10000 1) (idle baseRegs [])) = .refused .outsideBuffer := ⟨rfl, rfl, rfl⟩

/-- R320: reset brings `ADLER` to 1 and leaves memory. -/
theorem test_host_reset :
    leaves (step (host .reset (idle { baseRegs with adler := 5 } [7]))) 0 [(.adler, 1), (.lcgMul, 0), (.addr, 0)]
      0x100 [7] = true := by decide +kernel

/-- 60_exceptions.md R290: `IRQ` with `IE_ERR` after an error, and not with `IE_ERR` alone after a success. -/
theorem test_irq :
    irq { baseRegs with ctrl := ctrlOfWord 4, status := statusError .cfg Status.reset } = true
    ∧ irq { baseRegs with ctrl := ctrlOfWord 4, status := statusComplete Status.reset } = false := by decide +kernel

/-! ## A state that meets the hypotheses of each statement that has any -/

theorem test_witness_CommandDecodeAndEncodeAgree :
    isCommand (.check true false true) = true
    ∧ decodeCommand 0x00000522 = .ok (.check true false true) := by decide +kernel

theorem test_witness_GlazeDecodeAndEncodeAgree :
    isGlazeOp (.refw 255 0) = true ∧ (Instr.refw 255 0).wellFormed = true
    ∧ decodeGlaze [false, true, false, true, true] = .ok (.ref1 1, [true]) := by decide +kernel

theorem test_witness_WordsFollowTheByteOrder :
    Memory.wf (idle baseRegs [1, 0, 2]).mem := by decide +kernel

theorem test_witness_StepRunsTheCommandInCmd :
    (running 0x12 baseRegs []).spoiled = false ∧ (running 0x12 baseRegs []).glaze = none
    ∧ (running 0x12 baseRegs []).regs.status.busy = true
    ∧ decodeCommand (running 0x12 baseRegs []).regs.cmd = .ok .rotxor ∧ (running 0x12 baseRegs []).agenda = []
    ∧ { running 0x12 baseRegs [] with agenda := [.engine] }.agenda = Turn.engine :: []
    ∧ (idle baseRegs []).regs.status.busy = false := by decide +kernel

theorem test_witness_StepRunsTheGlazeOperationAtTheCursor :
    EngineNext (decodingWith cursors 0x48 0x01) ∧ Decodes (decodingWith cursors 0x48 0x01) cursors
    ∧ cursors.pos < cursors.outLen ∧ isGlazeOp (.ref1 2) = true ∧ (Instr.ref1 2).wellFormed = true
    ∧ encode (.ref1 2) = .bits [false, true, false, false, true, false]
    ∧ upcomingBits cursors (decodingWith cursors 0x48 0x01)
      = [false, true, false, false, true, false] ++ (List.replicate 9 false ++ [true]) := by decide +kernel

theorem test_witness_IllegalCommandWordsRaiseErrCmd :
    EngineNext (running 0x80000012 baseRegs []) ∧ (running 0x80000012 baseRegs []).glaze = none
    ∧ (running 0x80000012 baseRegs []).regs.status.busy = true
    ∧ (running 0x80000012 baseRegs []).regs.cmd ∉ commandWords := by decide +kernel

/-- The opcodes 0x00 and 0x08 (codes `00000000` and `0001000`), the ends of the reserved range below and above. -/
theorem test_witness_ReservedGlazeOpcodesRaise :
    EngineNext (decodingWith cursors 0x00 0xFF) ∧ Decodes (decodingWith cursors 0x00 0xFF) cursors
    ∧ cursors.pos < cursors.outLen
    ∧ upcomingBits cursors (decodingWith cursors 0x00 0xFF) = bytecodeCode 0 ++ List.replicate 8 true
    ∧ upcomingBits cursors (decodingWith cursors 0x10 0x00) = bytecodeCode 8 ++ List.replicate 9 false
    ∧ upcomingBits cursors (decodingWith cursors 0x01 0xFE) = bytecodeCode 255 ++ [false] := by decide +kernel

/-- The declared length just reached; the seven zeros of V-G21, cut from an opcode's code that is not assigned; the bits of
REF1's opcode with nothing after them; and REFW's opcode and first operand with `001` left of the second. -/
theorem test_witness_DecodingEndsAtTheLengthOrTheBitstream :
    EngineNext (decodingWith { cursors with pos := 20 } 0 0)
    ∧ Decodes (decodingWith { cursors with pos := 20 } 0 0) { cursors with pos := 20 }
    ∧ EngineNext (decodingWith { cursors with bitEnd := 7 } 0 0)
    ∧ bytecodeCode 0 = List.replicate 7 false ++ [false]
    ∧ upcomingBits { cursors with bitEnd := 7 } (decodingWith { cursors with bitEnd := 7 } 0 0)
      = [].flatMap bytecodeCode ++ List.replicate 7 false
    ∧ bytecodeCode 255 = [] ++ bytecodeCode 255
    ∧ upcomingBits { cursors with bitEnd := 3 } (decodingWith { cursors with bitEnd := 3 } 0x48 0)
      = [2].flatMap bytecodeCode ++ []
    ∧ bytecodeCode 4 = [false, false, true] ++ [false, false]
    ∧ upcomingBits cursors (decodingWith cursors 0x28 0x01) = [5, 0].flatMap bytecodeCode ++ [false, false, true] := by
  decide +kernel

/-- A chunk of 3, of 0, and of twice the largest. -/
theorem test_witness_BitpermRejectsIllegalChunk :
    (¬∃ k, (3#32).toNat = 2 ^ k ∧ 2 ^ k ≤ 0x100) ∧ (¬∃ k, (0#32).toNat = 2 ^ k ∧ 2 ^ k ≤ 0x100)
    ∧ ¬∃ k, (0x200#32).toNat = 2 ^ k ∧ 2 ^ k ≤ 0x100 := by
  refine ⟨?_, ?_, ?_⟩
  · rintro ⟨k, h, -⟩
    match k, h with
    | 0, h => exact absurd h (by decide)
    | 1, h => exact absurd h (by decide)
    | k + 2, h =>
      rw [Nat.pow_add] at h
      have h3 : (3#32).toNat = 3 := rfl
      omega
  · rintro ⟨k, h, -⟩
    exact absurd h.symm (Nat.two_pow_pos k).ne'
  · rintro ⟨k, h, hk⟩
    rw [← h] at hk
    exact absurd hk (by decide)

/-- The smallest and the largest chunk, a region that ends at `BUF_SIZE`, and an empty region. -/
theorem test_witness_BitpermCompletesAfterEightDrawsAByte :
    let s := (idle { baseRegs with chunk := 1, addr := 0xFFFE, len := 2 } [])
    s.regs.chunk.toNat = 2 ^ 0 ∧ 2 ^ 0 ≤ s.impl.bpMaxChunk ∧ (0x100#32).toNat = 2 ^ 8 ∧ 2 ^ 8 ≤ s.impl.bpMaxChunk
      ∧ s.regs.addr.toNat + s.regs.len.toNat ≤ s.impl.bufSize ∧ (idle baseRegs []).regs.len = 0 := by decide +kernel

/-- One byte too many, in a state where every other check passes. -/
theorem test_witness_RegionsThatDoNotFitRaiseErrMem :
    let s := (idle { baseRegs with addr := 0xFFFD, len := 4, chunk := 4, fence := 1 } [])
    s.regs.len ≠ 0 ∧ s.impl.bufSize < s.regs.addr.toNat + s.regs.len.toNat ∧ s.regs.chunk.toNat = 2 ^ 2
      ∧ 2 ^ 2 ≤ s.impl.bpMaxChunk ∧ s.regs.fence ≠ 0 ∧ s.regs.len.toNat % 2 = 0 ∧ s.regs.len.toNat % 4 = 0 := by
  decide +kernel

/-- The table of 41_bitperm.md R146's example, entry by entry from the rule's pool. -/
theorem test_witness_TableHoldsEveryBitIndexOnce :
    ((List.range 8).map fun i =>
      tablePool Ctrl.reset 0x41C64E6D 0x00003039 1 8 i (tableIndex Ctrl.reset 0x41C64E6D 0x00003039 1 8 i))
      = [3, 6, 4, 1, 5, 0, 7, 2] := by decide +kernel

/-- The last pair of a slice as long as its chunk, and with `BP_SLIDE` its last bit; and an empty region. -/
theorem test_witness_BitpermExchangesThePairsOfASlice :
    let s := (idle { baseRegs with chunk := 2, len := 2 } [1, 0x80])
    let u := (idle { baseRegs with chunk := 2, len := 2, ctrl := ctrlOfWord 0x40 } [1, 0x80])
    s.mem.wf ∧ s.regs.ctrl.bpSlide = false ∧ s.regs.chunk.toNat = 2 ^ 1 ∧ 2 ^ 1 ≤ s.impl.bpMaxChunk
      ∧ s.regs.addr.toNat + s.regs.len.toNat ≤ s.impl.bufSize ∧ s.regs.len.toNat ≤ s.regs.chunk.toNat
      ∧ 7 < 8 * s.regs.len.toNat / 2
      ∧ u.mem.wf ∧ u.regs.ctrl.bpSlide = true ∧ 15 < 8 * u.regs.len.toNat
      ∧ (idle baseRegs []).regs.len = 0 := by decide +kernel

theorem test_witness_BitpermSplitsAtAChunkBoundary :
    let s := (idle { baseRegs with chunk := 2, len := 3 } [1, 0x80])
    s.regs.chunk.toNat = 2 ^ 1 ∧ 2 ^ 1 ≤ s.impl.bpMaxChunk ∧ (2#32).toNat % s.regs.chunk.toNat = 0
      ∧ (2#32).toNat + (1#32).toNat = s.regs.len.toNat ∧ s.regs.addr.toNat + s.regs.len.toNat ≤ s.impl.bufSize
      ∧ s.regs.addr.toNat + (2#32).toNat < 2 ^ 32 := by decide +kernel

theorem test_witness_DisjointPairsMakeDirectionsEqual :
    (idle baseRegs [1]).mem.wf ∧ (idle baseRegs [1]).regs.ctrl.bpSlide = false := by decide +kernel

theorem test_witness_BitpermDescrambleUndoesScramble :
    let s := (idle { baseRegs with chunk := 2, len := 3, ctrl := ctrlOfWord 0x40 } [1, 0x80])
    s.mem.wf ∧ s.regs.chunk.toNat = 2 ^ 1 ∧ 2 ^ 1 ≤ s.impl.bpMaxChunk
      ∧ s.regs.addr.toNat + s.regs.len.toNat ≤ s.impl.bufSize := by decide +kernel

theorem test_witness_FenceChecksInOrder :
    (idle baseRegs []).regs.fence = 0
    ∧ (let s := (idle { baseRegs with fence := 1, len := 1 } []); s.regs.fence ≠ 0 ∧ s.regs.len.toNat % 2 = 1)
    ∧ (let s := (idle { baseRegs with fence := 0xFFFF, addr := 0xFFFF, len := 2 } [])
      s.regs.fence ≠ 0 ∧ s.regs.len.toNat % 2 = 0 ∧ s.regs.len ≠ 0
        ∧ s.impl.bufSize < s.regs.addr.toNat + s.regs.len.toNat) := by decide +kernel

/-- The smallest and the largest fence that is accepted. -/
theorem test_witness_FenceChecksInOrder_accepts :
    (1#16) ≠ 0 ∧ (0xFFFF#16) ≠ 0 ∧ (idle baseRegs []).regs.len.toNat % 2 = 0 ∧ (idle baseRegs []).regs.len = 0 := by
  decide +kernel

/-- The last word of the buffer. -/
theorem test_witness_FenceTransformsAWord :
    let s := (idle { baseRegs with fence := 1, addr := 0xFFFE, len := 2 } [1, 0x80])
    s.mem.wf ∧ s.regs.fence ≠ 0 ∧ s.regs.len = 2 ∧ s.regs.addr.toNat + 2 ≤ s.impl.bufSize := by decide +kernel

theorem test_witness_FenceTransformsEveryWordInOrder :
    let s := (idle { baseRegs with fence := 0x1D, len := 4 } [0x34, 0x12, 0, 1])
    s.mem.wf ∧ s.regs.fence ≠ 0 ∧ s.regs.len.toNat % 2 = 0
      ∧ s.regs.addr.toNat + s.regs.len.toNat ≤ s.impl.bufSize ∧ 1 < s.regs.len.toNat / 2 := by decide +kernel

/-- The four words of V-F10 and its final `LCG_ACC`; and two words under `FX_YALL`. -/
theorem test_witness_FenceWithExtraFudgeCompletes :
    let s := (idle { baseRegs with fence := 5, len := 8 } [0, 1, 2, 3, 4, 5, 6, 7])
    s.mem.wf ∧ s.regs.fence ≠ 0 ∧ s.regs.len.toNat % 2 = 0
      ∧ s.regs.addr.toNat + s.regs.len.toNat ≤ s.impl.bufSize ∧ 3 < s.regs.len.toNat / 2
      ∧ s.regs.ctrl.fxYall = false ∧ fenceAccAt s.regs 4 = 0x9CFBAE39
      ∧ (idle { baseRegs with fence := 5, len := 4, ctrl := ctrlOfWord 0x80 } [1, 0x80]).regs.ctrl.fxYall = true := by
  decide +kernel

theorem test_witness_FenceDescrambleUndoesScramble :
    let s := (idle { baseRegs with fence := 0x1D, len := 4 } [0x34, 0x12, 0, 1])
    s.mem.wf ∧ s.regs.fence ≠ 0 ∧ s.regs.len.toNat % 2 = 0
      ∧ s.regs.addr.toNat + s.regs.len.toNat ≤ s.impl.bufSize ∧ 1 < s.regs.len.toNat / 2 := by decide +kernel

theorem test_witness_RotxorOfNothingReportsTheSeeds :
    (idle baseRegs []).regs.len = 0 := by decide +kernel

/-- One byte less than the first segment's length. -/
theorem test_witness_RotxorFirstSegmentUsesTheFirstSeed :
    let s := (idle { baseRegs with len := 2, rotLen0 := 3 } [1, 0x80])
    s.mem.wf ∧ s.regs.addr.toNat + s.regs.len.toNat ≤ s.impl.bufSize ∧ s.regs.len.toNat < s.regs.rotLen0.toNat := by
  decide +kernel

/-- V-R1: segments of 2, 3, 1 and then, with `fudge` 1, 3 bytes, one byte of the fifth left; its result registers. -/
theorem test_witness_RotxorCycleSavesEveryRegister_segments :
    let r :=
      { baseRegs with
        len := 10, rotSeed0 := 0x11111111, rotSeed1 := 0x22222222, rotSeed2 := 0x33333333, rotLen0 := 2, rotLen1 := 3
        rotLen2 := 1 }
    let s := idle r []
    s.mem.wf ∧ s.regs.addr.toNat + s.regs.len.toNat ≤ s.impl.bufSize
      ∧ [0, 1, 2, 3, 4].map (segmentStart r) = [0, 2, 5, 6, 9] ∧ segmentStart r 4 + 1 = r.len.toNat
      ∧ 1 < segmentLength r 4 ∧ 2 < segmentLength r 3 ∧ segmentStart r 3 + 2 < r.len.toNat
      ∧ rotAccAt r 1 4 1 = 0x72643E6E ∧ rotAccAt r 0 4 0 = 0x42397002 ∧ rotAccAt r 1 4 0 = 0x84D141E9
      ∧ rotAccAt r 2 4 0 = 0xF2D886F0 := by decide +kernel

/-- Segment lengths 0 and 1, both of one byte. -/
theorem test_witness_RotxorCycleSavesEveryRegister :
    let s := (idle { baseRegs with len := 3, rotLen0 := 1, rotLen2 := 1 } [1, 0x80])
    s.mem.wf ∧ s.regs.len = 3 ∧ s.regs.addr.toNat + 3 ≤ s.impl.bufSize ∧ s.regs.rotLen0.toNat ≤ 1
      ∧ s.regs.rotLen1.toNat ≤ 1 ∧ s.regs.rotLen2.toNat ≤ 1 := by decide +kernel

theorem test_witness_RotxorIsItsOwnInverse :
    let s := (idle { baseRegs with len := 2 } [1, 0x80])
    s.mem.wf ∧ s.regs.addr.toNat + s.regs.len.toNat ≤ s.impl.bufSize := by decide +kernel

theorem test_witness_CsumAccumulatesOverTheWords :
    (idle { baseRegs with len := 3 } []).regs.len.toNat % 4 ≠ 0
    ∧ (let s := (idle { baseRegs with len := 4, addr := 0xFFFC } [])
      s.regs.len.toNat % 4 = 0 ∧ s.regs.addr.toNat + s.regs.len.toNat ≤ s.impl.bufSize)
    ∧ (idle baseRegs []).regs.len = 0 := by decide +kernel

theorem test_witness_CsumSplitsIntoAdjacentParts :
    let s := (idle { baseRegs with len := 8 } [1, 0x80])
    (4#32).toNat % 4 = 0 ∧ (4#32).toNat + (4#32).toNat = s.regs.len.toNat
      ∧ s.regs.addr.toNat + s.regs.len.toNat ≤ s.impl.bufSize ∧ s.regs.addr.toNat + (4#32).toNat < 2 ^ 32 := by
  decide +kernel

theorem test_witness_Adler32SumsTheBytes :
    let s := (idle { baseRegs with len := 1, addr := 0xFFFF } [])
    s.regs.addr.toNat + s.regs.len.toNat ≤ s.impl.bufSize := by decide +kernel

/-- A source and a destination region that do not fit, and two regions that share their last and first byte. -/
theorem test_witness_UnglazeChecksItsRegionsFirst :
    let s := (idle { baseRegs with addr := 0xFFFF, len := 2 } [])
    ¬(s.regs.len = 0 ∨ s.regs.addr.toNat + s.regs.len.toNat ≤ s.impl.bufSize) := by decide +kernel

theorem test_witness_UnglazeChecksItsRegionsFirst_second :
    let s := (idle { baseRegs with dst := 0xFFFF, dstCap := 2 } [])
    ((s.regs.len = 0 ∨ s.regs.addr.toNat + s.regs.len.toNat ≤ s.impl.bufSize)
      ∧ ¬(s.regs.dstCap = 0 ∨ s.regs.dst.toNat + s.regs.dstCap.toNat ≤ s.impl.bufSize)) := by decide +kernel

theorem test_witness_UnglazeChecksItsRegionsFirst_overlap :
    let s := (idle { baseRegs with len := 0x10, dst := 0x10F, dstCap := 4 } [])
    s.regs.addr.toNat + s.regs.len.toNat ≤ s.impl.bufSize
      ∧ s.regs.dst.toNat + s.regs.dstCap.toNat ≤ s.impl.bufSize
      ∧ s.regs.len ≠ 0 ∧ s.regs.dstCap ≠ 0 ∧ s.regs.addr.toNat < s.regs.dst.toNat + s.regs.dstCap.toNat
      ∧ s.regs.dst.toNat < s.regs.addr.toNat + s.regs.len.toNat := by decide +kernel

/-- The premises, for a stream of every length `n`: the six clauses are taken by the six tests that follow it. -/
def headerPremises (s : State) : Bool :=
  Accepted s && decide (s.regs.len = 0 ∨ s.regs.addr.toNat + s.regs.len.toNat ≤ s.impl.bufSize)
    && decide (s.regs.dstCap = 0 ∨ s.regs.dst.toNat + s.regs.dstCap.toNat ≤ s.impl.bufSize)
    && decide (s.regs.len = 0 ∨ s.regs.dstCap = 0 ∨ s.regs.dst.toNat + s.regs.dstCap.toNat ≤ s.regs.addr.toNat
      ∨ s.regs.addr.toNat + s.regs.len.toNat ≤ s.regs.dst.toNat)

/-- The stream of V-G13 cut to `n` bytes, with a capacity of `cap` bytes. -/
def cutStream (n cap : Word) : State :=
  running 0x30 { baseRegs with len := n, dst := 0x800, dstCap := cap }
    [1, 0, 0, 0, 1, 0, 0, 0, 0x80, 1, 0, 0, 0, 0x51, 0, 0, 0, 0]

theorem test_witness_UnglazeValidatesItsHeader :
    [cutStream 7 1, cutStream 8 1, cutStream 13 1, cutStream 17 1, cutStream 18 0, cutStream 18 1].all headerPremises
      = true := by decide +kernel

/-- One byte short of each bound, and each bound met: the required lengths 8, 13 and 18, then the capacity, then
success. -/
theorem test_header_boundaries :
    leaves (step (cutStream 7 1)) 0x00000706 [(.errInfo, 8), (.glzOutLen, 0)] 0 [] = true
    ∧ leaves (step (cutStream 8 1)) 0x00000706 [(.errInfo, 13), (.glzOutLen, 1)] 0 [] = true
    ∧ leaves (step (cutStream 13 1)) 0x00000706 [(.errInfo, 18), (.glzOutLen, 1)] 0 [] = true
    ∧ leaves (step (cutStream 17 1)) 0x00000706 [(.errInfo, 18), (.glzOutLen, 1)] 0 [] = true
    ∧ leaves (step (cutStream 18 0)) 0x00000706 [(.errInfo, 1), (.glzOutLen, 1)] 0 [] = true
    ∧ leaves (step (cutStream 18 1)) 0x00000002 [(.glzPos, 1)] 0x800 [0x51] = true := by decide +kernel

theorem test_witness_UnglazeAlwaysEnds :
    Accepted (cutStream 18 1) := by decide +kernel

theorem test_witness_UnglazeWritesOnlyTheDeclaredOutput :
    ∃ t, exec .unglaze (cutStream 18 1) = .next t := exists_next (by decide +kernel)

/-- The literal stream of `input` at 0x100, of `len` bytes, and its destination after it. -/
def literalState (input : List Byte) : State :=
  let image := literalStream false false input
  running 0x30
    { baseRegs with
      len := BitVec.ofNat 32 image.length, dst := BitVec.ofNat 32 (0x100 + image.length),
      dstCap := BitVec.ofNat 32 input.length }
    image

/-- The premises of the literal stream's statement. -/
def literalPremises (input : List Byte) : Bool :=
  let s := literalState input
  let image := literalStream s.regs.ctrl.endian s.regs.ctrl.glzLsbf input
  decide s.mem.wf && s.regs.len.toNat = image.length
    && decide (∀ k < image.length, s.mem.read (s.regs.addr.toNat + k) = image.getD k 0)
    && decide (s.regs.addr.toNat + image.length ≤ s.impl.bufSize) && decide (input.length ≤ s.regs.dstCap.toNat)
    && decide (s.regs.dst.toNat + s.regs.dstCap.toNat ≤ s.impl.bufSize)
    && decide (s.regs.addr.toNat + image.length ≤ s.regs.dst.toNat)

/-- 0, 13 and 14 bytes, around the shortest block. -/
theorem test_witness_UnglazeDecodesLiteralStreams :
    [[], List.replicate 13 7, List.replicate 14 7].all literalPremises = true := by decide +kernel

/-- The output and the dictionary used up to their last byte, and the length table's only byte. -/
theorem test_witness_GlazeLiteralsEmitDictionaryBytes :
    let s := decodingWith cursors 0 0
    Decodes s cursors ∧ s.mem.wf ∧ cursors.pos + 16 ≤ cursors.outLen ∧ cursors.dictPos + 16 ≤ cursors.dictEnd
      ∧ cursors.pos + (8 + 8) ≤ cursors.outLen ∧ cursors.dictPos + (8 + 8) ≤ cursors.dictEnd
      ∧ cursors.ltPos < cursors.ltEnd
      ∧ cursors.pos + ((s.mem.read (s.regs.addr.toNat + cursors.ltPos)).toNat + 14) ≤ cursors.outLen
      ∧ cursors.dictPos + ((s.mem.read (s.regs.addr.toNat + cursors.ltPos)).toNat + 14) ≤ cursors.dictEnd := by
  decide +kernel

/-- Distances 1 and 3, the nearest and the farthest; REFD and REFW with the dictionary byte 01 and `l` = 2. -/
theorem test_witness_GlazeReferencesCopyEarlierOutput :
    let s := decodingWith cursors 0 0
    Decodes s cursors ∧ s.mem.wf ∧ cursors.dictPos < cursors.dictEnd
      ∧ (s.mem.read (s.regs.addr.toNat + cursors.dictPos)).toNat + 2 ≤ cursors.pos
      ∧ 0 * 256 + (s.mem.read (s.regs.addr.toNat + cursors.dictPos)).toNat + 2 ≤ cursors.pos
      ∧ cursors.pos + (16 + 1) ≤ cursors.outLen ∧ 1 ≤ 1 + 0 ∧ 3 ≤ cursors.pos := by decide +kernel

/-- An empty dictionary and length table; a distance one too far; one output byte too many. -/
theorem test_witness_GlazeOperationsCheckBeforeTheyWrite :
    Decodes (decodingWith { cursors with dictPos := 18, ltPos := 19 } 0 0) { cursors with dictPos := 18, ltPos := 19 }
    ∧ { cursors with dictPos := 18 }.dictEnd ≤ { cursors with dictPos := 18 }.dictPos
    ∧ { cursors with ltPos := 19 }.ltEnd ≤ { cursors with ltPos := 19 }.ltPos
    ∧ cursors.pos < 4 ∧ cursors.pos + 1 ≤ cursors.outLen ∧ cursors.outLen < cursors.pos + (10 + 8) := by
  decide +kernel

theorem test_witness_BitstreamIsReadInItsBitOrder :
    (0 < maxGlazeBits ∧ cursors.bitPos + 0 < cursors.bitEnd) ∧ 16 < maxGlazeBits
    ∧ ¬cursors.bitPos + 16 < cursors.bitEnd := by decide +kernel

theorem test_witness_EveryCommandEnds :
    isCommand .unglaze = true ∧ Accepted (cutStream 18 1) ∧ isCommand .nop = true ∧ Accepted (running 0 baseRegs []) := by
  decide +kernel

theorem test_witness_CommandsWriteOnlyTheirResults :
    (∃ t, exec .rotxor (running 0x12 baseRegs []) = .next t)
    ∧ RegName.rotSeed0 ∉ resultRegisters .rotxor := ⟨exists_next (by decide +kernel), by decide⟩

theorem test_witness_CommandsStayInTheirRegions :
    isCommand .unglaze = true ∧ (∃ t, exec .unglaze (cutStream 18 1) = .next t)
    ∧ inRegions (regionsOf .unglaze (cutStream 18 1).regs) 0x112 = false
    ∧ inRegions (regionsOf .unglaze (cutStream 18 1).regs) 0x111 = true :=
  ⟨rfl, exists_next (by decide +kernel), by decide +kernel, by decide +kernel⟩

/-- The error bit of an outcome's next state. -/
def endsInError (o : Outcome) : Bool :=
  match o with
  | .next t => t.regs.status.err
  | .fault _ => false
  | .refused _ => false

theorem test_witness_FailedCommandsChangeNothingElse :
    isCommand .csum = true ∧ Instr.csum ≠ .unglaze
    ∧ (running 0x20 { baseRegs with len := 3 } []).regs.status.err = false
    ∧ endsInError (exec .csum (running 0x20 { baseRegs with len := 3 } [])) = true := by decide +kernel

theorem test_witness_CmdWriteStartsACommand :
    let s := host (.writeReg 4 0x00C 0xFFFFFFFF) (idle baseRegs [])
    s.regs.status.busy = false ∧ s.agenda = .host (.writeReg 4 0x00C 0xFFFFFFFF) :: [] := by decide +kernel

theorem test_witness_StatusWritesClearFlags :
    (host (.writeReg 4 0x008 0x1E) (idle baseRegs [])).agenda = .host (.writeReg 4 0x008 0x1E) :: [] := by
  decide +kernel

theorem test_witness_WritesWhileBusyAreDiscarded :
    let s := host (.writeReg 4 0x080 5) (running 0x12 baseRegs [])
    s.regs.status.busy = true ∧ registerAt 0x080 = some .expAdler ∧ readOnly .expAdler = false
      ∧ RegName.expAdler ≠ .status ∧ s.agenda = .host (.writeReg 4 0x080 5) :: []
      ∧ registerAt 0x00C = some .cmd ∧ readOnly .cmd = false := by decide +kernel

/-- The first and the last reserved offset, a read-only register next below, and `ID`. -/
theorem test_witness_ReservedAndReadOnlyOffsetsIgnoreWrites :
    (0x08C#12).toNat % 4 = 0 ∧ 0x08C ≤ (0x08C#12).toNat ∧ 0x08C ≤ (0xFFC#12).toNat ∧ (0xFFC#12).toNat % 4 = 0
    ∧ (0x088#12).toNat ∈ [0x000, 0x010, 0x020, 0x054, 0x058, 0x05C, 0x060, 0x064, 0x068, 0x084, 0x088]
    ∧ (host (.writeReg 4 0x08C 5) (idle baseRegs [])).agenda = .host (.writeReg 4 0x08C 5) :: []
    ∧ (host (.readReg 4 0x000) (idle baseRegs [])).agenda = .host (.readReg 4 0x000) :: [] := by decide +kernel

theorem test_witness_RegistersReadBackWhatWasWritten :
    let s := { idle baseRegs [] with agenda := [.host (.writeReg 4 0x038 0x12345678), .host (.readReg 4 0x038)] }
    s.regs.status.busy = false ∧ registerAt 0x038 = some .fence ∧ readOnly .fence = false ∧ RegName.fence ≠ .status
      ∧ RegName.fence ≠ .cmd ∧ s.agenda = .host (.writeReg 4 0x038 0x12345678) :: .host (.readReg 4 0x038) :: [] := by
  decide +kernel

theorem test_witness_RegisterReadsHaveNoSideEffect :
    registerAt 0x004 = some .ctrl
    ∧ (host (.readReg 4 0x004) (running 0x12 baseRegs [])).agenda = .host (.readReg 4 0x004) :: [] := by
  decide +kernel

theorem test_witness_MeaninglessHostAccessesAreRefused :
    (2 ≠ 4 ∨ (0x004#12).toNat % 4 ≠ 0) ∧ (4 ≠ 4 ∨ (0x006#12).toNat % 4 ≠ 0)
    ∧ (host (.writeReg 4 0x006 5) (idle baseRegs [])).agenda = .host (.writeReg 4 0x006 5) :: []
    ∧ (idle baseRegs []).impl.bufSize ≤ (0x10000#32).toNat
    ∧ (host (.readByte 0x10000) (idle baseRegs [])).agenda = .host (.readByte 0x10000) :: [] := by decide +kernel

/-- The last byte of the buffer, while a command runs on two bytes elsewhere. -/
theorem test_witness_HostBytesReadBackWhatWasWritten :
    let s :=
      { running 0x12 { baseRegs with len := 2 } [] with
        agenda := [.host (.writeByte 0xFFFF 9), .host (.readByte 0xFFFF)] }
    s.mem.wf ∧ (0xFFFF#32).toNat < s.impl.bufSize ∧ inRegions (runningRegions s) (0xFFFF#32).toNat = false
      ∧ s.agenda = .host (.writeByte 0xFFFF 9) :: .host (.readByte 0xFFFF) :: [] := by decide +kernel

/-- The first and the last byte of the region a command runs on. -/
theorem test_witness_HostBytesReadBackWhatWasWritten_inside :
    let s := running 0x12 { baseRegs with len := 2 } []
    (host (.writeByte 0x100 9) s).agenda = .host (.writeByte 0x100 9) :: [] ∧ (0x101#32).toNat < s.impl.bufSize
      ∧ inRegions (runningRegions (host (.writeByte 0x100 9) s)) (0x100#32).toNat = true
      ∧ (host (.readByte 0x101) s).agenda = .host (.readByte 0x101) :: []
      ∧ inRegions (runningRegions (host (.readByte 0x101) s)) (0x101#32).toNat = true := by decide +kernel

/-- A checksum of four bytes that the host has spoiled. -/
def spoiledState : State := { running 0x20 { baseRegs with len := 4 } [1, 2, 3, 4] with spoiled := true }

theorem test_witness_SpoiledCommandsTouchOnlyTheirRegions :
    spoiledState.agenda = [] ∧ spoiledState.spoiled = true ∧ spoiledState.glaze = none
    ∧ spoiledState.regs.status.busy = true ∧ decodeCommand spoiledState.regs.cmd = .ok .csum
    ∧ ∃ t, step spoiledState = .next t := ⟨rfl, rfl, rfl, rfl, by decide +kernel, exists_next rfl⟩

theorem test_witness_ResetRestoresTheRegisters :
    (host .reset (running 0x12 { baseRegs with len := 1 } [])).agenda = .host .reset :: [] := by decide +kernel

theorem test_witness_ResetStateIsSound :
    (host .powerOn (running 0x12 { baseRegs with len := 1 } [])).agenda = .host .powerOn :: []
    ∧ 0xFFFF < (idle baseRegs []).impl.bufSize := by decide +kernel

theorem test_witness_InterruptFollowsCompletionAndError :
    isCommand .csum = true ∧ Accepted (running 0x20 { baseRegs with len := 3 } [])
    ∧ ∃ t, exec .csum (running 0x20 { baseRegs with len := 3 } []) = .next t :=
  ⟨rfl, by decide, exists_next (by decide +kernel)⟩

/-- The spoiled state is sound, and so is a state with the host to move. -/
theorem test_witness_SoundnessIsKept :
    Sound spoiledState ∧ spoiledState.agenda = [] ∧ (∃ t, step spoiledState = .next t)
    ∧ Sound (host (.writeByte 0x100 5) (running 0x20 { baseRegs with len := 4 } [])) := by
  refine ⟨⟨?_, ?_, rfl, ?_, ?_, ?_, ?_, fun _ => ⟨0x103, ?_⟩⟩, rfl, exists_next rfl,
    ⟨?_, ?_, rfl, ?_, ?_, ?_, ?_, fun h => absurd h ?_⟩⟩ <;> decide +kernel

theorem test_witness_StepsKeepTheImplementation :
    ∃ t, step (idle baseRegs []) = .next t := exists_next (by decide +kernel)

/-- V-G13's stream, each bound met: the length table ends at `LEN`, the declared length at `DST_CAP`. -/
theorem test_witness_UnglazeIteratesFetchAndExec :
    let s := cutStream 18 1
    let field (p : Nat) : Nat := (load32 s.regs.ctrl.endian s.mem (s.regs.addr.toNat + p)).toNat
    headerPremises s = true ∧ field 4 = 1 ∧ field 9 = 1 ∧ field 14 = 0 ∧ 14 + 4 + field 14 = s.regs.len.toNat
      ∧ field 0 = s.regs.dstCap.toNat ∧ EngineNext s := by decide +kernel

end Sys2Proof.Tests
end

section
/-! SUPPORT. The step's turns (00_scope.md R7, R9) and what no step changes (R11): the turn the agenda gives, the engine's
turn on a command and on an idle block, and the frame of every move over the parameters and the agenda. -/

namespace Sys2Proof.Machine

/-! ## Whose turn it is -/

theorem step_of_agenda_nil {s : State} (h : s.agenda = []) : step s = engineMove s := by
  simp only [step, h]

theorem step_of_agenda_engine {s : State} {rest : List Turn} (h : s.agenda = .engine :: rest) :
    step s = engineMove (s.withAgenda rest) := by
  simp only [step, h]

theorem engineMove_of_unspoiled {s : State} (h : s.spoiled = false) : engineMove s = engineTurn s :=
  if_neg (by simp [h])

/-! ## The engine's turn between Glaze streams -/

theorem engineTurn_of_decodes {s : State} {i : Instr} (hg : s.glaze = none) (hb : s.regs.status.busy = true)
    (hd : decodeCommand s.regs.cmd = .ok i) : engineTurn s = exec i s := by
  rcases engineTurn_command s hg with ⟨idle, -⟩ | ⟨-, ⟨e, bad⟩, -⟩ | ⟨-, j, hj, turn⟩
  · simp [hb] at idle
  · simp [hd] at bad
  · obtain rfl : i = j := by simpa [hd] using hj
    exact turn

theorem engineTurn_of_idle {s : State} (hg : s.glaze = none) (hb : s.regs.status.busy = false) :
    engineTurn s = .next s := by
  rcases engineTurn_command s hg with ⟨-, turn⟩ | ⟨busy, -⟩ | ⟨busy, -⟩
  · exact turn
  · simp [hb] at busy
  · simp [hb] at busy

/-- Settles O5: the agenda gives the engine its turn, and that turn is the command's meaning or, idle, nothing. -/
theorem stepRunsTheCommandInCmd : Obligations.StepRunsTheCommandInCmd := by
  intro s i rest hs hg
  refine ⟨fun hb hd => ⟨fun ha => ?_, fun ha => ?_⟩, fun hb => ⟨fun ha => ?_, fun ha => ?_⟩⟩
  · rw [step_of_agenda_nil ha, engineMove_of_unspoiled hs, engineTurn_of_decodes hg hb hd]
  · rw [step_of_agenda_engine ha, engineMove_of_unspoiled (s := s.withAgenda rest) hs,
      engineTurn_of_decodes (s := s.withAgenda rest) hg hb hd, State.withAgenda]
  · rw [step_of_agenda_nil ha, engineMove_of_unspoiled hs, engineTurn_of_idle hg hb]
  · rw [step_of_agenda_engine ha, engineMove_of_unspoiled (s := s.withAgenda rest) hs,
      engineTurn_of_idle (s := s.withAgenda rest) hg hb, State.withAgenda]

/-! ## What no move changes -/

/-- Two states agree on the parameters and on the turns still to come: what even the host's moves, which `SameModelFields`
does not cover, leave alone. -/
structure SameImplAndAgenda (s t : State) : Prop where
  impl : t.impl = s.impl
  agenda : t.agenda = s.agenda

theorem SameImplAndAgenda.refl (s : State) : SameImplAndAgenda s s := ⟨rfl, rfl⟩

theorem SameImplAndAgenda.trans {s t u : State} (h : SameImplAndAgenda s t) (h' : SameImplAndAgenda t u) :
    SameImplAndAgenda s u := ⟨h'.impl.trans h.impl, h'.agenda.trans h.agenda⟩

theorem SameModelFields.sameImplAndAgenda {s t : State} (h : SameModelFields s t) : SameImplAndAgenda s t :=
  ⟨h.impl, h.agenda⟩

theorem freeRegions_sameImplAndAgenda (regions : List (Word × Word)) (s : State) :
    SameImplAndAgenda s (freeRegions regions s) := by
  obtain ⟨impl, -, -, -, -, agenda⟩ := freeRegions_frame regions s
  exact ⟨impl, agenda⟩

theorem freeRegisters_sameImplAndAgenda (names : List RegName) (s : State) :
    SameImplAndAgenda s (freeRegisters names s) := by
  obtain ⟨impl, -, -, -, -, agenda⟩ := freeRegisters_frame names s
  exact ⟨impl, agenda⟩

/-- The decode loop's turn up to the operation (45_glaze.md R241), its three cases reduced to their frame. -/
theorem fetchGlaze_frame (g : GlazeDecode) (s : State) :
    (∃ t, fetchGlaze g s = .ended t ∧ SameModelFields s t)
    ∨ ∃ i t, fetchGlaze g s = .run i t ∧ SameModelFields s t := by
  rcases fetchGlaze_cases g s with ⟨-, done⟩ | ⟨-, c, -, bad⟩ | ⟨-, i, rest, -, op⟩
  · exact .inl ⟨_, done, rfl, rfl, rfl, rfl, rfl⟩
  · exact .inl ⟨_, bad, rfl, rfl, rfl, rfl, rfl⟩
  · exact .inr ⟨_, _, op, rfl, rfl, rfl, rfl, rfl⟩

/-- The engine's turn keeps the parameters and the agenda, since every instruction does (`exec_frame`). -/
theorem engineTurn_sameImplAndAgenda {s t : State} (h : engineTurn s = .next t) : SameImplAndAgenda s t := by
  cases hg : s.glaze with
  | none =>
    rcases engineTurn_command s hg with ⟨-, turn⟩ | ⟨-, -, turn⟩ | ⟨-, i, -, turn⟩
    · cases turn.symm.trans h
      exact .refl s
    · cases turn.symm.trans h
      exact ⟨rfl, rfl⟩
    · exact (exec_frame (turn.symm.trans h)).sameImplAndAgenda
  | some g =>
    simp only [engineTurn, fetch, hg] at h
    rcases fetchGlaze_frame g s with ⟨u, fetched, frame⟩ | ⟨i, u, fetched, frame⟩
    · rw [fetched] at h
      cases h
      exact frame.sameImplAndAgenda
    · rw [fetched] at h
      exact frame.sameImplAndAgenda.trans (exec_frame h).sameImplAndAgenda

theorem endSpoiled_sameImplAndAgenda (s t : State) : SameImplAndAgenda t (endSpoiled s t) := by
  unfold endSpoiled
  split
  · exact .refl t
  · have freed := (freeRegions_sameImplAndAgenda (runningRegions s) t).trans
      (freeRegisters_sameImplAndAgenda ((runningCommand s).elim [] resultRegisters) _)
    exact ⟨freed.impl, freed.agenda⟩

theorem engineMove_sameImplAndAgenda {s t : State} (h : engineMove s = .next t) : SameImplAndAgenda s t := by
  rcases engineMove_cases h with ⟨-, turn⟩ | ⟨-, u, turn, rfl⟩
  · exact engineTurn_sameImplAndAgenda turn
  · have begun := freeRegions_sameImplAndAgenda (runningRegions s) s
    exact (begun.trans (engineTurn_sameImplAndAgenda turn)).trans (endSpoiled_sameImplAndAgenda s u)

/-! ## The host's moves -/

theorem readOffset_sameImplAndAgenda (offset : BitVec 12) (s : State) :
    SameImplAndAgenda s (readOffset offset s) := by
  obtain ⟨value, count, read⟩ := readOffset_frame offset s
  rw [read]
  exact ⟨rfl, rfl⟩

theorem hostWriteByte_sameImplAndAgenda (a : Nat) (v : Byte) (s : State) :
    SameImplAndAgenda s (hostWriteByte a v s) := by
  unfold hostWriteByte
  split <;> exact ⟨rfl, rfl⟩

theorem hostReadByte_sameImplAndAgenda (a : Nat) (s : State) : SameImplAndAgenda s (hostReadByte a s) := by
  unfold hostReadByte
  split <;> exact ⟨rfl, rfl⟩

theorem resetBlock_sameImplAndAgenda (s : State) : SameImplAndAgenda s (resetBlock s) :=
  have freed := freeRegions_sameImplAndAgenda (runningRegions s) s
  ⟨freed.impl, freed.agenda⟩

theorem powerOnBlock_sameImplAndAgenda (s : State) : SameImplAndAgenda s (powerOnBlock s) := ⟨rfl, rfl⟩

/-- A guarded move that answers a next state answers the one it guards. -/
theorem eq_of_guarded_next {p : Prop} [Decidable p] {r : Refusal} {t u : State}
    (h : (if p then .next u else .refused r : Outcome) = .next t) : u = t := by
  split at h
  · injection h
  · cases h

/-- Neither an access of the host nor a reset or power-on changes the parameters or the turns to come. -/
theorem hostMove_sameImplAndAgenda {op : HostOp} {s t : State} (h : hostMove op s = .next t) :
    SameImplAndAgenda s t := by
  cases op with
  | writeReg bytes offset v => exact eq_of_guarded_next h ▸ (writeOffset_frame offset v s).1.sameImplAndAgenda
  | readReg bytes offset => exact eq_of_guarded_next h ▸ readOffset_sameImplAndAgenda offset s
  | writeByte a v => exact eq_of_guarded_next h ▸ hostWriteByte_sameImplAndAgenda a.toNat v s
  | readByte a => exact eq_of_guarded_next h ▸ hostReadByte_sameImplAndAgenda a.toNat s
  | reset => cases h; exact resetBlock_sameImplAndAgenda s
  | powerOn => cases h; exact powerOnBlock_sameImplAndAgenda s

/-- Settles O59: by whose turn the step was, each move keeping the parameters and the agenda it was given. -/
theorem stepsKeepTheImplementation : Obligations.StepsKeepTheImplementation := by
  intro s t h
  rcases step_cases h with ⟨ha, move⟩ | ⟨rest, ha, move⟩ | ⟨op, rest, ha, move⟩
  · have kept := engineMove_sameImplAndAgenda move
    exact ⟨kept.impl, by rw [kept.agenda, ha, List.tail_nil]⟩
  · have kept := engineMove_sameImplAndAgenda move
    exact ⟨kept.impl, by rw [kept.agenda, ha, State.withAgenda_agenda, List.tail_cons]⟩
  · have kept := hostMove_sameImplAndAgenda move
    exact ⟨kept.impl, by rw [kept.agenda, ha, State.withAgenda_agenda, List.tail_cons]⟩

end Sys2Proof.Machine
end

section
/-! SUPPORT. What a command leaves in the registers (10_state.md R45): the frame over the register map of each way an
instruction can end, and of every instruction. -/

namespace Sys2Proof.Machine

/-! ## Register files that differ in some registers only -/

/-- `r'` reads as `r` but for the registers `names`, `STATUS` and `ERRINFO`: what a command with these results may do to
the register map (10_state.md R45). -/
def OnlyWrites (names : List RegName) (r r' : Regs) : Prop :=
  ∀ name, name ∉ names → name ≠ .status → name ≠ .errInfo → readRegister r' name = readRegister r name

theorem OnlyWrites.refl (names : List RegName) (r : Regs) : OnlyWrites names r r := fun _ _ _ _ => rfl

/-- Writing one of the registers named is allowed. -/
theorem OnlyWrites.store {names : List RegName} {r r' : Regs} (h : OnlyWrites names r r') (written : RegName)
    (hw : written ∈ names) (v : Word) : OnlyWrites names r (storeRegister r' v written) := by
  intro name hn hs he
  have other : name ≠ written := fun same => hn (same ▸ hw)
  exact (readRegister_storeRegister r' v written name other).trans (h name hn hs he)

/-- The fields of `STATUS` are read in no other register. -/
theorem readRegister_withStatus (r : Regs) (t : Status) (name : RegName) (h : name ≠ .status) :
    readRegister { r with status := t } name = readRegister r name := by
  cases name <;> first | rfl | exact absurd rfl h

theorem OnlyWrites.status {names : List RegName} {r r' : Regs} (h : OnlyWrites names r r') (t : Status) :
    OnlyWrites names r { r' with status := t } := fun name hn hs he =>
  (readRegister_withStatus r' t name hs).trans (h name hn hs he)

theorem OnlyWrites.errInfo {names : List RegName} {r r' : Regs} (h : OnlyWrites names r r') (info : Word) :
    OnlyWrites names r { r' with errInfo := info } := fun name hn hs he =>
  (readRegister_storeRegister r' info .errInfo name he).trans (h name hn hs he)

/-- A pass of ROTXOR leaves its results in seven registers (43_rotxor.md R184). -/
theorem rotResults_onlyWrites (p : RotPass) (r : Regs) :
    OnlyWrites (resultRegisters .rotxor) r (rotResults p r) := by
  intro name hn _ _
  cases name <;> first | rfl | exact absurd (by simp [resultRegisters]) hn

theorem glazeResults_onlyWrites (outLen pos : Nat) (s : State) :
    OnlyWrites (resultRegisters .unglaze) s.regs (glazeResults outLen pos s).regs :=
  ((OnlyWrites.refl (resultRegisters .unglaze) s.regs).store .glzOutLen (by decide) (BitVec.ofNat 32 outLen)).store
    .glzPos (by decide) (BitVec.ofNat 32 pos)

/-! ## The ways an instruction ends -/

/-- An instruction that started with the registers `r` ends, if it ends in a state, with no others written than `names`,
`STATUS` and `ERRINFO`. -/
def EndsWriting (names : List RegName) (r : Regs) (o : Outcome) : Prop := ∀ t, o = .next t → OnlyWrites names r t.regs

theorem EndsWriting.next {names : List RegName} {r : Regs} {t : State} (h : OnlyWrites names r t.regs) :
    EndsWriting names r (.next t) := by
  rintro _ ⟨⟩
  exact h

theorem EndsWriting.fault (names : List RegName) (r : Regs) (f : Fault) : EndsWriting names r (.fault f) := by
  rintro _ ⟨⟩

theorem EndsWriting.completed {names : List RegName} {r : Regs} {s : State} (h : OnlyWrites names r s.regs) :
    EndsWriting names r (.next (completeCommand s)) := .next (h.status _)

theorem EndsWriting.raised {names : List RegName} {r : Regs} {s : State} (h : OnlyWrites names r s.regs)
    (c : ErrorCode) (info : Word) : EndsWriting names r (.next (raiseError c info s)) :=
  .next ((h.errInfo info).status _)

/-- An error a command raises before it has written a register. -/
theorem EndsWriting.raisedFirst (names : List RegName) (s : State) (c : ErrorCode) (info : Word) :
    EndsWriting names s.regs (.next (raiseError c info s)) := .raised (.refl names s.regs) c info

theorem EndsWriting.ite {names : List RegName} {r : Regs} {p : Prop} [Decidable p] {o o' : Outcome}
    (h : EndsWriting names r o) (h' : EndsWriting names r o') : EndsWriting names r (if p then o else o') := by
  split
  · exact h
  · exact h'

theorem EndsWriting.checkRegions {names : List RegName} {s : State} {body : Outcome}
    (h : EndsWriting names s.regs body) (regions : List (Word × Word)) :
    EndsWriting names s.regs (checkRegions regions s body) := by
  rcases checkRegions_cases regions s body with ⟨passed, -⟩ | ⟨region, -, -, failed⟩
  · rw [passed]
    exact h
  · rw [failed]
    exact .raisedFirst names s _ _

/-! ## The instructions -/

theorem execDraw_endsWriting (s : State) (acc out : Word) :
    EndsWriting [.lcgAcc, .lcgOut] s.regs (.next (completeDraw acc out s)) :=
  .completed (((OnlyWrites.refl [.lcgAcc, .lcgOut] s.regs).store .lcgAcc (by decide) acc).store
    .lcgOut (by decide) out)

/-- The end of BITPERM and of FENCE: new memory, and the accumulator after their draws. -/
theorem completeWithAcc_endsWriting (s : State) (m : Memory) (acc : Word) :
    EndsWriting [.lcgAcc] s.regs (.next (completeCommand { s with mem := m, regs := { s.regs with lcgAcc := acc } })) :=
  .completed ((OnlyWrites.refl [.lcgAcc] s.regs).store .lcgAcc (by decide) acc)

theorem execBitperm_endsWriting (dir : Direction) (s : State) :
    EndsWriting [.lcgAcc] s.regs (execBitperm dir s) :=
  .ite (.checkRegions (completeWithAcc_endsWriting s _ _) _) (.raisedFirst _ s _ _)

theorem execFence_endsWriting (dir : Direction) (xf : Bool) (s : State) :
    EndsWriting [.lcgAcc] s.regs (execFence dir xf s) :=
  .ite (.raisedFirst _ s _ _)
    (.ite (.raisedFirst _ s _ _) (.checkRegions (completeWithAcc_endsWriting s _ _) _))

theorem execRotxor_endsWriting (s : State) :
    EndsWriting (resultRegisters .rotxor) s.regs (execRotxor s) :=
  .checkRegions (.completed (rotResults_onlyWrites _ s.regs)) _

theorem completeWithSums_endsWriting (s : State) (sum xor : Word) :
    EndsWriting [.csumSum, .csumXor] s.regs
      (.next (completeCommand { s with regs := { s.regs with csumSum := sum, csumXor := xor } })) :=
  .completed (((OnlyWrites.refl [.csumSum, .csumXor] s.regs).store .csumSum (by decide) sum).store
    .csumXor (by decide) xor)

theorem execCsum_endsWriting (s : State) : EndsWriting [.csumSum, .csumXor] s.regs (execCsum s) :=
  .ite (.raisedFirst _ s _ _) (.checkRegions (completeWithSums_endsWriting s _ _) _)

theorem completeWithAdler_endsWriting (s : State) (adler : Word) :
    EndsWriting [.adler] s.regs (.next (completeCommand { s with regs := { s.regs with adler := adler } })) :=
  .completed ((OnlyWrites.refl [.adler] s.regs).store .adler (by decide) adler)

theorem execAdler32_endsWriting (s : State) : EndsWriting [.adler] s.regs (execAdler32 s) :=
  .checkRegions (completeWithAdler_endsWriting s _) _

theorem execCheck_endsWriting (cSum cXor cAdl : Bool) (s : State) :
    EndsWriting [] s.regs (execCheck cSum cXor cAdl s) :=
  .ite (.completed (.refl [] s.regs)) (.raisedFirst _ s _ _)

/-- UNGLAZE writes no result register before its header is read, and then both whatever it ends in. -/
theorem execUnglaze_endsWriting (s : State) : EndsWriting (resultRegisters .unglaze) s.regs (execUnglaze s) := by
  rcases execUnglaze_cases s with
    ⟨c, info, -, refusedEarly⟩ | ⟨outLen, info, -, badHeader⟩ | ⟨g, t, m, pos, -, -, -, looped, ended⟩
  · rw [refusedEarly]
    exact .raisedFirst _ s _ _
  · rw [badHeader]
    exact .raised (glazeResults_onlyWrites outLen 0 s) _ _
  · rw [looped]
    have results := glazeResults_onlyWrites g.outLen pos { s with mem := m, glaze := some g }
    rcases ended.ends with ⟨rfl, -⟩ | ⟨c, -, rfl⟩
    · exact .completed results
    · exact .raised results _ _

/-- A Glaze operation writes no register, or raises UNGLAZE's error with its two results (45_glaze.md R250). -/
theorem glazeOperation_endsWriting (body : State → GlazeDecode → Except ErrorCode Decoding) (s : State) :
    EndsWriting (resultRegisters .unglaze) s.regs (glazeOperation body s) := by
  cases hg : s.glaze with
  | none =>
    rw [glazeOperation_none body s hg]
    exact .fault _ _ _
  | some g =>
    rw [glazeOperation_some body s g hg]
    split
    · exact .raised (glazeResults_onlyWrites _ _ s) _ _
    · exact .next (.refl _ s.regs)

/-- Every instruction writes its results, `STATUS` and `ERRINFO` only (10_state.md R45). -/
theorem exec_endsWriting (i : Instr) (s : State) : EndsWriting (resultRegisters i) s.regs (exec i s) := by
  cases i with
  | nop => exact .completed (.refl [] s.regs)
  | lcgNext15 => exact execDraw_endsWriting s _ _
  | lcgNext16 => exact execDraw_endsWriting s _ _
  | bitperm dir => exact execBitperm_endsWriting dir s
  | fence dir xf => exact execFence_endsWriting dir xf s
  | rotxor => exact execRotxor_endsWriting s
  | csum => exact execCsum_endsWriting s
  | adler32 => exact execAdler32_endsWriting s
  | check cSum cXor cAdl => exact execCheck_endsWriting cSum cXor cAdl s
  | unglaze => exact execUnglaze_endsWriting s
  | lit => exact glazeOperation_endsWriting _ s
  | ref1 d => exact glazeOperation_endsWriting _ s
  | ref d l => exact glazeOperation_endsWriting _ s
  | refd l =>
    unfold exec execRefd
    exact glazeOperation_endsWriting _ s
  | refw l dh =>
    unfold exec execRefw
    exact glazeOperation_endsWriting _ s
  | lits l => exact glazeOperation_endsWriting _ s
  | litl =>
    unfold exec execLitl
    exact glazeOperation_endsWriting _ s

/-- Settles O42: each instruction ends writing its results only, by the ways it can end. -/
theorem commandsWriteOnlyTheirResults : Obligations.CommandsWriteOnlyTheirResults := by
  intro i s t name ran notResult notStatus notErrInfo
  exact exec_endsWriting i s t ran name notResult notStatus notErrInfo

end Sys2Proof.Machine
end

section
/-! SUPPORT. The host's register accesses (10_state.md R42, R46 to R48): the register map, each case of a write and of a
read once, what a register keeps of a written value, and `STATUS` and `CTRL` as numbers. -/

namespace Sys2Proof.Machine

/-! ## The host's turn -/

theorem step_of_agenda_host {s : State} {op : HostOp} {rest : List Turn} (h : s.agenda = .host op :: rest) :
    step s = hostMove op (s.withAgenda rest) := by
  simp only [step, h]

theorem registerAccessOk_iff (bytes : Nat) (offset : BitVec 12) :
    registerAccessOk bytes offset = true ↔ bytes = 4 ∧ offset.toNat % 4 = 0 := by
  simp [registerAccessOk]

theorem step_of_writeReg {s : State} {offset : BitVec 12} {v : Word} {rest : List Turn}
    (aligned : offset.toNat % 4 = 0) (h : s.agenda = .host (.writeReg 4 offset v) :: rest) :
    step s = .next (writeOffset offset v (s.withAgenda rest)) := by
  rw [step_of_agenda_host h]
  exact if_pos ((registerAccessOk_iff 4 offset).2 ⟨rfl, aligned⟩)

theorem step_of_readReg {s : State} {offset : BitVec 12} {rest : List Turn}
    (aligned : offset.toNat % 4 = 0) (h : s.agenda = .host (.readReg 4 offset) :: rest) :
    step s = .next (readOffset offset (s.withAgenda rest)) := by
  rw [step_of_agenda_host h]
  exact if_pos ((registerAccessOk_iff 4 offset).2 ⟨rfl, aligned⟩)

/-- Settles O52: the guards of the four accesses fail. -/
theorem meaninglessHostAccessesAreRefused : Obligations.MeaninglessHostAccessesAreRefused := by
  intro s rest
  refine ⟨fun bytes offset v bad access => ?_, fun a b outside access => ?_⟩
  · have notOk : ¬registerAccessOk bytes offset = true := by
      rw [registerAccessOk_iff]
      omega
    rcases access with h | h
    · rw [step_of_agenda_host h]
      exact if_neg notOk
    · rw [step_of_agenda_host h]
      exact if_neg notOk
  · have notInside : ¬a.toNat < (s.withAgenda rest).impl.bufSize := Nat.not_lt.2 outside
    rcases access with h | h
    · rw [step_of_agenda_host h]
      exact if_neg notInside
    · rw [step_of_agenda_host h]
      exact if_neg notInside

/-! ## The register map -/

/-- Every row of the map is aligned and below the first reserved offset (10_state.md R42). -/
theorem registerMap_offsets : ∀ row ∈ registerMap, row.1 % 4 = 0 ∧ row.1 < 0x08C := by decide

theorem mem_registerMap_of_registerAt {offset : BitVec 12} {name : RegName} (h : registerAt offset = some name) :
    (offset.toNat, name) ∈ registerMap := by
  obtain ⟨row, found, rfl⟩ := Option.map_eq_some_iff.1 h
  have sameOffset : row.1 = offset.toNat := by simpa using List.find?_some found
  exact sameOffset ▸ List.mem_of_find?_eq_some found

theorem aligned_of_registerAt {offset : BitVec 12} {name : RegName} (h : registerAt offset = some name) :
    offset.toNat % 4 = 0 := (registerMap_offsets _ (mem_registerMap_of_registerAt h)).1

theorem registerAt_reserved {offset : BitVec 12} (h : 0x08C ≤ offset.toNat) : registerAt offset = none := by
  cases found : registerAt offset with
  | none => rfl
  | some name => exact absurd (registerMap_offsets _ (mem_registerMap_of_registerAt found)).2 (Nat.not_lt.2 h)

/-- The offsets of the read-only registers (10_state.md R21). -/
def readOnlyOffsets : List Nat := [0x000, 0x010, 0x020, 0x054, 0x058, 0x05C, 0x060, 0x064, 0x068, 0x084, 0x088]

theorem registerAt_readOnly {offset : BitVec 12} (h : offset.toNat ∈ readOnlyOffsets) :
    ∃ name, registerAt offset = some name ∧ readOnly name = true := by
  have rows : ∀ n ∈ readOnlyOffsets,
      ((registerMap.find? fun row => row.1 = n).map Prod.snd).any readOnly = true := by decide
  exact (Option.any_eq_true _ _).1 (rows _ h)

/-! ## A register write, case by case (10_state.md R46) -/

section Writes
variable {offset : BitVec 12} {name : RegName} {v : Word} {s : State}

theorem writeOffset_of_reserved (h : registerAt offset = none) : writeOffset offset v s = s := by
  simp only [writeOffset, h]

theorem writeOffset_of_readOnly (h : registerAt offset = some name) (hr : readOnly name = true) :
    writeOffset offset v s = s := by
  simp only [writeOffset, h, hr, if_true]

theorem writeOffset_of_writable (h : registerAt offset = some name) (hr : readOnly name = false) :
    writeOffset offset v s = writeNamed name v s := by
  simp only [writeOffset, h, hr, Bool.false_eq_true, if_false]

theorem writeNamed_status : writeNamed .status v s = returnFromError v s := rfl

theorem writeNamed_of_busy (hn : name ≠ .status) (hb : s.regs.status.busy = true) :
    writeNamed name v s = discardWrite name s := by
  simp only [writeNamed, hn, hb, if_true, if_false]

theorem writeNamed_cmd_of_idle (hb : s.regs.status.busy = false) : writeNamed .cmd v s = acceptCommand v s := by
  simp [writeNamed, hb]

theorem writeNamed_of_idle (hn : name ≠ .status) (hc : name ≠ .cmd) (hb : s.regs.status.busy = false) :
    writeNamed name v s = s.withRegs (storeRegister s.regs v name) := by
  simp only [writeNamed, hn, hc, hb, Bool.false_eq_true, if_false, State.withRegs]

/-- The step of a write to a register that stores it (10_state.md R46). -/
theorem step_of_idle_write {rest : List Turn} (idle : s.regs.status.busy = false)
    (named : registerAt offset = some name) (writable : readOnly name = false) (notStatus : name ≠ .status)
    (notCmd : name ≠ .cmd) (h : s.agenda = .host (.writeReg 4 offset v) :: rest) :
    step s = .next ((s.withAgenda rest).withRegs (storeRegister s.regs v name)) := by
  rw [step_of_writeReg (aligned_of_registerAt named) h, writeOffset_of_writable named writable,
    writeNamed_of_idle (s := s.withAgenda rest) notStatus notCmd idle, State.withAgenda_regs]

end Writes

/-- A host write of `v` to `STATUS` (10_state.md R26), flag by flag. -/
theorem statusClear_eq (v : Word) (t : Status) :
    statusClear v t =
      { busy := t.busy
        done := if v.getLsbD 1 then false else t.done
        err := if v.getLsbD 2 then false else t.err
        errCode := if v.getLsbD 2 then 0 else t.errCode
        cmdOvr := if v.getLsbD 3 then false else t.cmdOvr
        wrBusy := if v.getLsbD 4 then false else t.wrBusy } := by
  have cleared (flag bit : Bool) : (flag && !bit) = if bit then false else flag := by cases bit <;> simp
  simp only [statusClear, cleared]

/-- Settles O45: the map names `CMD` at its offset, and the idle block accepts the word. -/
theorem cmdWriteStartsACommand : Obligations.CmdWriteStartsACommand := by
  intro s v rest idle h
  rw [step_of_writeReg rfl h, writeOffset_of_writable (name := .cmd) rfl rfl,
    writeNamed_cmd_of_idle (s := s.withAgenda rest) idle]
  rfl

/-- Settles O46: the map names `STATUS` at its offset, whose write is write-1-to-clear. -/
theorem statusWritesClearFlags : Obligations.StatusWritesClearFlags := by
  intro s v rest h
  rw [step_of_writeReg rfl h, writeOffset_of_writable (name := .status) rfl rfl, writeNamed_status,
    returnFromError, statusClear_eq]
  rfl

/-- Settles O47: a writable register's write while busy is the discarded one. -/
theorem writesWhileBusyAreDiscarded : Obligations.WritesWhileBusyAreDiscarded := by
  intro s offset name v rest busy named writable notStatus h
  rw [step_of_writeReg (aligned_of_registerAt named) h, writeOffset_of_writable named writable,
    writeNamed_of_busy (s := s.withAgenda rest) notStatus busy]
  rfl

/-! ## A register read, case by case (10_state.md R47) -/

section Reads
variable {offset : BitVec 12} {name : RegName} {s : State}

theorem readOffset_of_reserved (h : registerAt offset = none) : readOffset offset s = s.withReadData 0 := by
  simp only [readOffset, h, State.withReadData]

theorem readOffset_of_specified (h : registerAt offset = some name)
    (hr : s.regs.status.busy = false ∨ readableWhileBusy name = true) :
    readOffset offset s = s.withReadData (readRegister s.regs name) := by
  have specified : (s.regs.status.busy && !readableWhileBusy name) = false := by
    rcases hr with hb | hr
    · rw [hb, Bool.false_and]
    · rw [hr, Bool.not_true, Bool.and_false]
  simp only [readOffset, h, specified, Bool.false_eq_true, if_false, State.withReadData]

/-- The step of a read that the spec gives a value (10_state.md R47). -/
theorem step_of_specified_read {rest : List Turn} (named : registerAt offset = some name)
    (specified : s.regs.status.busy = false ∨ readableWhileBusy name = true)
    (h : s.agenda = .host (.readReg 4 offset) :: rest) :
    step s = .next ((s.withAgenda rest).withReadData (readRegister s.regs name)) := by
  rw [step_of_readReg (aligned_of_registerAt named) h,
    readOffset_of_specified (s := s.withAgenda rest) named specified, State.withAgenda_regs]

end Reads

theorem readableWhileBusy_iff (name : RegName) :
    readableWhileBusy name = true ↔ name ∈ [RegName.id, .ctrl, .status, .cmd] := by
  cases name <;> decide

/-- Settles O48: reserved offsets and read-only registers by the map, and `ID` by its hard-wired value. -/
theorem reservedAndReadOnlyOffsetsIgnoreWrites : Obligations.ReservedAndReadOnlyOffsetsIgnoreWrites := by
  intro s offset v rest aligned
  refine ⟨fun ignored h => ?_, fun reserved h => ?_, fun isId h => ?_⟩
  · rw [step_of_writeReg aligned h]
    rcases ignored with reserved | fixed
    · rw [writeOffset_of_reserved (registerAt_reserved reserved), State.withAgenda]
    · obtain ⟨name, named, fixed⟩ := registerAt_readOnly fixed
      rw [writeOffset_of_readOnly named fixed, State.withAgenda]
  · rw [step_of_readReg aligned h, readOffset_of_reserved (registerAt_reserved reserved)]
    rfl
  · subst isId
    exact step_of_specified_read (name := .id) rfl (.inr rfl) h

/-- Settles O50: the answer is the register's value where R47 specifies it, and in every case nothing else changes but the
count of free values. -/
theorem registerReadsHaveNoSideEffect : Obligations.RegisterReadsHaveNoSideEffect := by
  intro s offset name rest named h
  by_cases specified : s.regs.status.busy = false ∨ readableWhileBusy name = true
  · exact ⟨readRegister s.regs name, s.freeCount, step_of_specified_read named specified h, fun _ => ⟨rfl, rfl⟩⟩
  · obtain ⟨value, count, read⟩ := readOffset_frame offset (s.withAgenda rest)
    refine ⟨value, count, ?_, fun claimed => absurd ?_ specified⟩
    · rw [step_of_readReg (aligned_of_registerAt named) h, read, State.withAgenda]
    · rwa [readableWhileBusy_iff]

/-! ## `STATUS` and `CTRL` as numbers (10_state.md R23, R25) -/

theorem toNat_append_eq_add {m n : Nat} (x : BitVec m) (y : BitVec n) :
    (x ++ y).toNat = 2 ^ n * x.toNat + y.toNat := by
  rw [BitVec.toNat_append, ← Nat.shiftLeft_add_eq_or_of_lt y.isLt, Nat.shiftLeft_eq, Nat.mul_comm]

theorem statusWord_toNat (t : Status) :
    (statusWord t).toNat =
      t.busy.toNat + 2 * t.done.toNat + 4 * t.err.toNat + 8 * t.cmdOvr.toNat + 16 * t.wrBusy.toNat
        + 2 ^ 8 * t.errCode.toNat := by
  simp only [statusWord, toNat_append_eq_add, BitVec.toNat_ofBool, BitVec.toNat_zero]
  omega

theorem ctrlWord_toNat (c : Ctrl) :
    (ctrlWord c).toNat =
      c.endian.toNat + 2 * c.ieDone.toNat + 4 * c.ieErr.toNat + 8 * c.n15sel.toNat + 16 * c.bpD16.toNat
        + 32 * c.bpShift.toNat + 64 * c.bpSlide.toNat + 128 * c.fxYall.toNat + 256 * c.rotHi.toNat
        + 512 * c.glzLsbf.toNat := by
  simp only [ctrlWord, toNat_append_eq_add, BitVec.toNat_ofBool, BitVec.toNat_zero]
  omega

/-- Settles O51: each word is the sum of its fields, each shifted past those below it. -/
theorem statusAndCtrlReadFieldByField : Obligations.StatusAndCtrlReadFieldByField := fun r =>
  ⟨statusWord_toNat r.status, ctrlWord_toNat r.ctrl⟩

/-! ## A value written and read back (10_state.md R46, R47) -/

/-- `CTRL` keeps bits 9:0 of a written value (10_state.md R23, R46). -/
theorem ctrlWord_ctrlOfWord (v : Word) : ctrlWord (ctrlOfWord v) = v &&& 0x000003FF := by
  apply BitVec.eq_of_toNat_eq
  have kept : (v &&& 0x000003FF).toNat = v.toNat % 2 ^ 10 := Nat.and_two_pow_sub_one_eq_mod v.toNat 10
  rw [ctrlWord_toNat, kept]
  simp only [ctrlOfWord, BitVec.getLsbD, Nat.toNat_testBit]
  omega

/-- `FENCE` keeps bits 15:0 of a written value (10_state.md R34). -/
theorem fenceWord_setWidth (v : Word) : (v.setWidth 16).setWidth 32 = v &&& 0x0000FFFF := by
  apply BitVec.eq_of_toNat_eq
  have kept : (v &&& 0x0000FFFF).toNat = v.toNat % 2 ^ 16 := Nat.and_two_pow_sub_one_eq_mod v.toNat 16
  rw [kept, BitVec.toNat_setWidth, BitVec.toNat_setWidth]
  omega

/-- What a register the host may write while idle, `CMD` and `STATUS` apart, keeps of a written value. -/
theorem readRegister_storeRegister_same (r : Regs) (v : Word) (name : RegName) (writable : readOnly name = false)
    (notStatus : name ≠ .status) :
    readRegister (storeRegister r v name) name =
      if name = .ctrl then v &&& 0x000003FF else if name = .fence then v &&& 0x0000FFFF else v := by
  cases name with
  | ctrl => exact ctrlWord_ctrlOfWord v
  | fence => exact fenceWord_setWidth v
  | status => exact absurd rfl notStatus
  | id | errInfo | lcgOut | rotWork0 | rotWork1 | rotWork2 | rotState | rotCount | rotFudge | glzOutLen | glzPos =>
    cases writable
  | _ => rfl

/-- Settles O49: the write stores in its register only and leaves the block idle, so that the read answers what the
register keeps. -/
theorem registersReadBackWhatWasWritten : Obligations.RegistersReadBackWhatWasWritten := by
  intro s offset name v rest idle named writable notStatus notCmd h
  have stillIdle : (storeRegister s.regs v name).status.busy = false := by
    rw [storeRegister_status s.regs v name notStatus, idle]
  refine ⟨_, _, step_of_idle_write idle named writable notStatus notCmd h,
    step_of_specified_read named (.inl stillIdle) rfl, ?_, rfl, rfl, rfl, rfl, ?_⟩
  · exact fun other different => readRegister_storeRegister s.regs v name other different
  · exact readRegister_storeRegister_same s.regs v name writable notStatus

end Sys2Proof.Machine
end

section
/-! SUPPORT. Buffer memory (20_memory.md): words in the selected byte order (R74), the region check of each command (R72,
R73), and what a command may do to memory, said once for every command. -/

namespace Sys2Proof.Machine

/-! ## Words in memory (20_memory.md R74) -/

theorem Memory.read_write_pair_first (m : Memory) (a : Nat) (x y : Byte) (h : m.wf) :
    ((m.write a x).write (a + 1) y).read a = x :=
  ((m.write a x).read_write_other y (Nat.succ_ne_self a).symm).trans (m.read_write_same a x h)

theorem Memory.read_write_pair_second (m : Memory) (a : Nat) (x y : Byte) (h : m.wf) :
    ((m.write a x).write (a + 1) y).read (a + 1) = y :=
  (m.write a x).read_write_same (a + 1) y (m.write_wf a x h)

theorem lowByte_toNat (v : Half) : (v.extractLsb' 0 8).toNat = v.toNat % 2 ^ 8 := by
  rw [BitVec.extractLsb'_toNat, Nat.shiftRight_zero]

theorem highByte_toNat (v : Half) : (v.extractLsb' 8 8).toNat = v.toNat / 2 ^ 8 := by
  rw [BitVec.extractLsb'_toNat, Nat.shiftRight_eq_div_pow]
  omega

/-- Settles O4: an append of bytes is their sum, each shifted past those after it, and a store is two writes. -/
theorem wordsFollowTheByteOrder : Obligations.WordsFollowTheByteOrder := by
  refine ⟨fun m a => ⟨?_, ?_, ?_, ?_⟩, fun m a v h => ⟨?_, ?_, ?_, ?_, fun e => store16_outside e m a v⟩⟩
  · simp only [load16, toNat_append_eq_add, Bool.false_eq_true, if_false]
    omega
  · simp only [load16, toNat_append_eq_add, if_true]
    omega
  · simp only [load32, toNat_append_eq_add, Bool.false_eq_true, if_false]
    omega
  · simp only [load32, toNat_append_eq_add, if_true]
    omega
  · exact (congrArg BitVec.toNat (m.read_write_pair_first a _ _ h)).trans (lowByte_toNat v)
  · exact (congrArg BitVec.toNat (m.read_write_pair_second a _ _ h)).trans (highByte_toNat v)
  · exact (congrArg BitVec.toNat (m.read_write_pair_first a _ _ h)).trans (highByte_toNat v)
  · exact (congrArg BitVec.toNat (m.read_write_pair_second a _ _ h)).trans (lowByte_toNat v)

/-! ## The region check of each command (20_memory.md R72, R73) -/

/-- A power of two up to the largest chunk is a legal `CHUNK` (41_bitperm.md R141). -/
theorem chunkLegal_of_two_pow {p : Params} {chunk : Word} {k : Nat} (hk : chunk.toNat = 2 ^ k)
    (bounded : 2 ^ k ≤ p.bpMaxChunk) : chunkLegal p chunk = true := by
  have pos : 0 < 2 ^ k := Nat.two_pow_pos k
  have nonzero : chunk ≠ 0 := by
    rintro rfl
    exact pos.ne hk
  have pred : (chunk - 1).toNat = 2 ^ k - 1 := by bv_omega
  have oneBit : chunk &&& (chunk - 1) = 0 := by
    apply BitVec.eq_of_toNat_eq
    rw [BitVec.toNat_and, pred, Nat.and_two_pow_sub_one_eq_mod, hk, Nat.mod_self]
    rfl
  rw [chunkLegal, Bool.and_eq_true, Bool.and_eq_true]
  exact ⟨⟨decide_eq_true nonzero, decide_eq_true oneBit⟩, decide_eq_true (hk.le.trans bounded)⟩

/-- Settles O13: past its own checks each command checks the region at `ADDR` first, and that check raises. -/
theorem regionsThatDoNotFitRaiseErrMem : Obligations.RegionsThatDoNotFitRaiseErrMem := by
  intro s nonempty tooLong
  have bad (body : Outcome) : checkRegions (sourceRegion s.regs) s body = failsWith s 4 s.regs.addr :=
    checkRegions_source_bad s body nonempty tooLong
  have badSource : ¬regionFits s.impl (s.regs.addr, s.regs.len) = true := by
    rw [regionFits_iff]
    exact not_or.2 ⟨nonempty, Nat.not_le.2 tooLong⟩
  refine ⟨fun dir k hk bounded => ?_, fun dir xf fence even => ?_, bad _, fun whole => ?_, bad _, ?_⟩
  · exact (if_pos (chunkLegal_of_two_pow hk bounded)).trans (bad _)
  · exact (if_neg fence).trans ((if_neg (by omega)).trans (bad _))
  · exact (if_neg (not_not.2 whole)).trans (bad _)
  · exact if_neg badSource

/-! ## Memory by its reads -/

/-- A listed byte of canonical memory reads as listed. -/
theorem Memory.read_of_mem {m : Memory} (h : m.wf) {c : Host.Cell} (hc : c ∈ m) : m.read c.1 = c.2 := by
  induction m with
  | nil => cases hc
  | cons d m ih =>
    obtain ⟨rising, -, rest⟩ := Memory.wf_cons.1 h
    rw [Memory.read_cons]
    rcases List.mem_cons.1 hc with rfl | hc
    · exact if_pos rfl
    · rw [if_neg (rising c hc).ne]
      exact ih rest hc

theorem Memory.read_of_below {m : Memory} {size a : Nat} (h : m.below size) (ha : size ≤ a) :
    m.read a = unlistedByte := by
  induction m with
  | nil => rfl
  | cons d m ih =>
    have first : d.1 < size := h d List.mem_cons_self
    rw [Memory.read_cons, if_neg (first.trans_le ha).ne]
    exact ih fun c hc => h c (List.mem_cons_of_mem d hc)

/-- Canonical memory that reads as unlisted from `size` up lists nothing there. -/
theorem Memory.below_of_read {m : Memory} {size : Nat} (h : m.wf) (hr : ∀ a, size ≤ a → m.read a = unlistedByte) :
    m.below size := by
  intro c hc
  by_contra above
  exact h.2 c hc ((Memory.read_of_mem h hc).symm.trans (hr c.1 (Nat.not_lt.1 above)))

/-! ## Writing inside regions -/

theorem inRegions_eq_false_iff (regions : List (Word × Word)) (a : Nat) :
    inRegions regions a = false ↔ ∀ region ∈ regions, ¬(region.1.toNat ≤ a ∧ a < region.1.toNat + region.2.toNat) := by
  simp [inRegions]

/-- Regions that fit hold no address past the buffer (20_memory.md R72). -/
theorem inRegions_of_fits {p : Params} {regions : List (Word × Word)} {a : Nat}
    (fits : ∀ region ∈ regions, regionFits p region = true) (ha : p.bufSize ≤ a) : inRegions regions a = false := by
  rw [inRegions_eq_false_iff]
  intro region hm
  rcases (regionFits_iff p region).1 (fits region hm) with empty | ends
  · simp [empty]
  · omega

/-- What memory `m` may become when bytes of `regions` and no others are written: nothing is written unless the regions
pass the check of 20_memory.md R72. -/
structure WritesInside (p : Params) (regions : List (Word × Word)) (m m' : Memory) : Prop where
  outside : ∀ a, inRegions regions a = false → m'.read a = m.read a
  wf : m.wf → m'.wf
  kept_or_fits : m' = m ∨ regions ≠ [] ∧ ∀ region ∈ regions, regionFits p region = true

namespace WritesInside
variable {p : Params} {regions : List (Word × Word)} {m m' : Memory}

theorem refl (p : Params) (regions : List (Word × Word)) (m : Memory) : WritesInside p regions m m :=
  ⟨fun _ _ => rfl, id, .inl rfl⟩

/-- A transform of one region that fits. -/
theorem of_region {region : Word × Word} (fits : regionFits p region = true)
    (outside : sameOutside m m' region.1.toNat region.2.toNat) (wf : m.wf → m'.wf) :
    WritesInside p [region] m m' where
  outside a ha := outside a ((inRegions_eq_false_iff [region] a).1 ha region List.mem_cons_self)
  wf := wf
  kept_or_fits := .inr ⟨List.cons_ne_nil _ _, by simpa using fits⟩

theorem eq_of_nil (h : WritesInside p [] m m') : m' = m :=
  h.kept_or_fits.resolve_right fun fits => fits.1 rfl

/-- Canonical memory inside the buffer stays inside it: past the buffer it still reads as unlisted. -/
theorem below (h : WritesInside p regions m m') (canonical : m.wf) (inside : m.below p.bufSize) :
    m'.below p.bufSize := by
  rcases h.kept_or_fits with rfl | ⟨-, fits⟩
  · exact inside
  · refine Memory.below_of_read (h.wf canonical) fun a ha => ?_
    exact (h.outside a (inRegions_of_fits fits ha)).trans (Memory.read_of_below inside ha)

end WritesInside

/-! ## BITPERM stays in its region (41_bitperm.md R142 to R145) -/

/-- An element of a list of bit indices, or the 0 that stands for a missing one. -/
theorem getD_zero_lt {pool : List Nat} {n : Nat} (h : ∀ b ∈ pool, b < n) (hn : 0 < n) {o : Option Nat}
    (ho : ∀ b, o = some b → b ∈ pool) : o.getD 0 < n := by
  cases o with
  | none => exact hn
  | some b => exact h b (ho b rfl)

theorem removeFromPool_lt {pool : List Nat} {n : Nat} (h : ∀ b ∈ pool, b < n) (hn : 0 < n) (shift : Bool) (j : Nat) :
    ∀ b ∈ removeFromPool shift pool j, b < n := by
  intro b hb
  cases shift with
  | true => exact h b (List.mem_of_mem_eraseIdx hb)
  | false =>
    rcases List.mem_or_eq_of_mem_set (List.mem_of_mem_dropLast hb) with hb | rfl
    · exact h b hb
    · rw [List.getLastD_eq_getLast?]
      exact getD_zero_lt h hn fun b => List.mem_of_getLast?

/-- A bound on the pool is a bound on the table drawn from it. -/
theorem drawTable_lt (c : Ctrl) (mul inc : Word) {n : Nat} (hn : 0 < n) (size : Nat) (pool : List Nat) (acc : Word)
    (h : ∀ b ∈ pool, b < n) : ∀ b ∈ (drawTable c mul inc size pool acc).1, b < n := by
  induction size generalizing pool acc with
  | zero => exact fun b hb => absurd hb List.not_mem_nil
  | succ size ih =>
    intro b hb
    rcases List.mem_cons.1 hb with rfl | hb
    · rw [List.getD_eq_getElem?_getD]
      exact getD_zero_lt h hn fun b => List.mem_of_getElem?
    · exact ih _ _ (removeFromPool_lt h hn _ _) b hb

theorem permutationTable_lt (c : Ctrl) (mul inc : Word) (n : Nat) (acc : Word) :
    ∀ b ∈ (permutationTable c mul inc n acc).1, b < n := by
  cases n with
  | zero => exact fun b hb => absurd hb List.not_mem_nil
  | succ n => exact drawTable_lt c mul inc n.succ_pos _ _ acc fun b hb => List.mem_range.1 hb

theorem bitpermSlices_outside (r : Regs) (dir : Direction) (count off : Nat) (m : Memory) (acc : Word) :
    sameOutside m (bitpermSlices r dir count off m acc).1 (r.addr.toNat + off) (r.len.toNat - off) := by
  induction count generalizing off m acc with
  | zero => exact fun _ _ => rfl
  | succ count ih =>
    intro b hb
    have entries := permutationTable_lt r.ctrl r.lcgMul r.lcgInc (8 * min r.chunk.toNat (r.len.toNat - off)) acc
    rw [bitpermSlices, ih _ _ _ b (by omega)]
    exact swapWalk_outside _ _ _ _ _ _ entries b (by omega)

/-! ## What a command ends in -/

/-- The regions a command writes: of those it names (20_memory.md R73), BITPERM's, FENCE's and ROTXOR's, and UNGLAZE's
destination (45_glaze.md R240). -/
def writtenRegions (i : Instr) (r : Regs) : List (Word × Word) :=
  match i with
  | .bitperm _ | .fence _ _ | .rotxor => sourceRegion r
  | .unglaze => [(r.dst, r.dstCap)]
  | _ => []

theorem writtenRegions_subset (i : Instr) (r : Regs) : writtenRegions i r ⊆ regionsOf i r := by
  cases i <;> simp [writtenRegions, regionsOf, glazeRegions]

/-- `t` is an end of a command that started in `s` and writes the regions `written`: a completion or an error
(60_exceptions.md R282, R284). -/
structure CommandEnded (written : List (Word × Word)) (s t : State) : Prop where
  mem : WritesInside s.impl written s.mem t.mem
  status : t.regs.status = statusComplete s.regs.status ∨ ∃ c, t.regs.status = statusError c s.regs.status
  glaze : t.glaze = none

/-- The outcome is an end of a command: neither a fault nor a refusal. -/
def EndsCommand (written : List (Word × Word)) (s : State) (o : Outcome) : Prop :=
  ∃ t, o = .next t ∧ CommandEnded written s t

namespace EndsCommand
variable {written : List (Word × Word)} {s u : State}

theorem completed (mem : WritesInside s.impl written s.mem u.mem) (status : u.regs.status = s.regs.status) :
    EndsCommand written s (.next (completeCommand u)) :=
  ⟨_, rfl, mem, .inl (congrArg statusComplete status), rfl⟩

theorem raised (mem : WritesInside s.impl written s.mem u.mem) (status : u.regs.status = s.regs.status)
    (c : ErrorCode) (info : Word) : EndsCommand written s (.next (raiseError c info u)) :=
  ⟨_, rfl, mem, .inr ⟨c, congrArg (statusError c) status⟩, rfl⟩

/-- An error raised before anything is written. -/
theorem raisedFirst (written : List (Word × Word)) (s : State) (c : ErrorCode) (info : Word) :
    EndsCommand written s (.next (raiseError c info s)) := raised (.refl _ _ _) rfl c info

theorem ite {p : Prop} [Decidable p] {o o' : Outcome} (h : EndsCommand written s o) (h' : EndsCommand written s o') :
    EndsCommand written s (if p then o else o') := by
  split
  · exact h
  · exact h'

theorem afterCheck {regions : List (Word × Word)} {body : Outcome}
    (h : (∀ region ∈ regions, regionFits s.impl region = true) → EndsCommand written s body) :
    EndsCommand written s (checkRegions regions s body) := by
  rcases checkRegions_cases regions s body with ⟨passed, fits⟩ | ⟨region, -, -, failed⟩
  · rw [passed]
    exact h fits
  · rw [failed]
    exact raisedFirst written s _ _

/-- A command that transforms the region at `ADDR` once it is checked. -/
theorem transformed {m : Memory} {r : Regs} (status : r.status = s.regs.status)
    (outside : sameOutside s.mem m s.regs.addr.toNat s.regs.len.toNat) (wf : s.mem.wf → m.wf) :
    EndsCommand (sourceRegion s.regs) s
      (checkRegions (sourceRegion s.regs) s (.next (completeCommand { s with mem := m, regs := r }))) :=
  afterCheck fun fits => completed (.of_region (fits _ List.mem_cons_self) outside wf) status

end EndsCommand

theorem execBitperm_ends (dir : Direction) (s : State) : EndsCommand (sourceRegion s.regs) s (execBitperm dir s) :=
  .ite (.transformed rfl (bitpermSlices_outside s.regs dir _ 0 s.mem _) (bitpermSlices_wf s.regs dir _ 0 s.mem _))
    (.raisedFirst _ s _ _)

theorem execFence_ends (dir : Direction) (xf : Bool) (s : State) :
    EndsCommand (sourceRegion s.regs) s (execFence dir xf s) := by
  refine .ite (.raisedFirst _ s _ _) (.ite (.raisedFirst _ s _ _) (.transformed rfl (fun b hb => ?_) ?_))
  · exact fenceWords_outside s.regs dir xf _ _ s.mem _ b (by omega)
  · exact fenceWords_wf s.regs dir xf _ _ s.mem _

theorem execRotxor_ends (s : State) : EndsCommand (sourceRegion s.regs) s (execRotxor s) :=
  .transformed rfl (rotBytes_outside s.regs _ _ s.mem _) (rotBytes_wf s.regs _ _ s.mem _)

/-- The cursors of a valid header: at the start of an output that the destination holds (45_glaze.md R234, R240). -/
theorem glazeHeader_ok {s : State} {g : GlazeDecode} (h : glazeHeader s = .ok g) :
    g.pos = 0 ∧ g.outLen ≤ s.regs.dstCap.toNat := by
  unfold glazeHeader at h
  dsimp only at h
  iterate 5
    split at h
    · cases h
  cases h
  exact ⟨rfl, Nat.not_lt.1 ‹¬_ > s.regs.dstCap.toNat›⟩

/-- The decode loop, from a valid header, writes in the destination region only. -/
theorem LoopEnded.commandEnded {s t : State} {g : GlazeDecode} {m : Memory} {pos : Nat}
    (header : glazeHeader s = .ok g) (fits : regionFits s.impl (s.regs.dst, s.regs.dstCap) = true)
    (ended : LoopEnded { s with glaze := some g } g t m pos) : CommandEnded [(s.regs.dst, s.regs.dstCap)] s t := by
  obtain ⟨start, capacity⟩ := glazeHeader_ok header
  have bounded := ended.bounded
  have mem : WritesInside s.impl [(s.regs.dst, s.regs.dstCap)] s.mem m := by
    refine .of_region fits (fun b hb => ended.outside b ?_) ended.wf
    dsimp only at hb ⊢
    omega
  rcases ended.ends with ⟨rfl, -⟩ | ⟨c, -, rfl⟩
  · exact ⟨mem, .inl rfl, rfl⟩
  · exact ⟨mem, .inr ⟨c, rfl⟩, rfl⟩

theorem execUnglaze_ends (s : State) : EndsCommand [(s.regs.dst, s.regs.dstCap)] s (execUnglaze s) := by
  rcases execUnglaze_cases s with
    ⟨c, info, -, refusedEarly⟩ | ⟨outLen, info, -, badHeader⟩ | ⟨g, t, m, pos, header, -, fits, looped, ended⟩
  · rw [refusedEarly]
    exact .raisedFirst _ s _ _
  · rw [badHeader]
    exact .raised (u := glazeResults outLen 0 s) (.refl _ _ s.mem) rfl _ _
  · have dstFits := fits (s.regs.dst, s.regs.dstCap) (List.mem_cons_of_mem _ List.mem_cons_self)
    exact ⟨t, looped, ended.commandEnded header dstFits⟩

/-- Every command ends, writing in its own regions only (20_memory.md R73). -/
theorem exec_ends (i : Instr) (s : State) (hi : isCommand i = true) :
    EndsCommand (writtenRegions i s.regs) s (exec i s) := by
  cases i with
  | nop => exact .completed (.refl _ _ _) rfl
  | lcgNext15 => exact .completed (.refl _ _ _) rfl
  | lcgNext16 => exact .completed (.refl _ _ _) rfl
  | bitperm dir => exact execBitperm_ends dir s
  | fence dir xf => exact execFence_ends dir xf s
  | rotxor => exact execRotxor_ends s
  | csum => exact .ite (.raisedFirst _ s _ _) (.afterCheck fun _ => .completed (.refl _ _ _) rfl)
  | adler32 => exact .afterCheck fun _ => .completed (.refl _ _ _) rfl
  | check cSum cXor cAdl => exact .ite (.completed (.refl _ _ _) rfl) (.raisedFirst _ s _ _)
  | unglaze => exact execUnglaze_ends s
  | lit | ref1 _ | ref _ _ | refd _ | refw _ _ | lits _ | litl => cases hi

theorem exec_commandEnded {i : Instr} {s t : State} (hi : isCommand i = true) (ran : exec i s = .next t) :
    CommandEnded (writtenRegions i s.regs) s t := by
  obtain ⟨u, ends, ended⟩ := exec_ends i s hi
  cases ends.symm.trans ran
  exact ended

/-- Settles O43: a command writes inside the written ones of its regions, and the commands named have none. -/
theorem commandsStayInTheirRegions : Obligations.CommandsStayInTheirRegions := by
  intro i s t hi ran
  have wrote := (exec_commandEnded hi ran).mem
  refine ⟨fun a ha => wrote.outside a ?_, fun storesNothing => ?_⟩
  · rw [inRegions_eq_false_iff] at ha ⊢
    exact fun region hm => ha region (writtenRegions_subset i s.regs hm)
  · have writesNone : writtenRegions i s.regs = [] := by
      rcases storesNothing with named | ⟨a, b, c, rfl⟩
      · fin_cases named <;> rfl
      · rfl
    exact (writesNone ▸ wrote).eq_of_nil

end Sys2Proof.Machine
end

section
/-! SUPPORT. The host's buffer accesses (20_memory.md R89, 70_reset_and_hazards.md R331) and the invariant `Sound`: what each
move of the host and of the engine does to it, and that from a sound state the engine always goes on. -/

namespace Sys2Proof.Machine

/-! ## The host's buffer accesses, case by case -/

section Bytes
variable {a : Nat} {v : Byte} {s : State}

theorem hostWriteByte_of_inside (h : inRegions (runningRegions s) a = true) :
    hostWriteByte a v s = s.withSpoiled true := if_pos h

theorem hostWriteByte_of_outside (h : inRegions (runningRegions s) a = false) :
    hostWriteByte a v s = s.withMem (s.mem.write a v) := if_neg (by simp [h])

theorem hostReadByte_of_inside (h : inRegions (runningRegions s) a = true) :
    hostReadByte a s =
      { s with readData := (Config.freeByte s.freeCount).setWidth 32, freeCount := s.freeCount + 1 } := if_pos h

theorem hostReadByte_of_outside (h : inRegions (runningRegions s) a = false) :
    hostReadByte a s = s.withReadData ((s.mem.read a).setWidth 32) := if_neg (by simp [h])

/-- A host read of a byte changes the answer and at most the count of free values. -/
theorem hostReadByte_frame (a : Nat) (s : State) :
    ∃ value count, hostReadByte a s = { s with readData := value, freeCount := count } := by
  cases h : inRegions (runningRegions s) a with
  | true => exact ⟨_, _, hostReadByte_of_inside h⟩
  | false => exact ⟨_, s.freeCount, hostReadByte_of_outside h⟩

end Bytes

section ByteSteps
variable {s : State} {a : Word} {v : Byte} {rest : List Turn}

theorem step_of_writeByte (ha : a.toNat < s.impl.bufSize) (h : s.agenda = .host (.writeByte a v) :: rest) :
    step s = .next (hostWriteByte a.toNat v (s.withAgenda rest)) := by
  rw [step_of_agenda_host h]
  exact if_pos ha

theorem step_of_readByte (ha : a.toNat < s.impl.bufSize) (h : s.agenda = .host (.readByte a) :: rest) :
    step s = .next (hostReadByte a.toNat (s.withAgenda rest)) := by
  rw [step_of_agenda_host h]
  exact if_pos ha

theorem step_writeByte_of_outside (ha : a.toNat < s.impl.bufSize)
    (outside : inRegions (runningRegions s) a.toNat = false) (h : s.agenda = .host (.writeByte a v) :: rest) :
    step s = .next ((s.withAgenda rest).withMem (s.mem.write a.toNat v)) := by
  rw [step_of_writeByte ha h, hostWriteByte_of_outside (s := s.withAgenda rest) outside, State.withAgenda_mem]

theorem step_readByte_of_outside (ha : a.toNat < s.impl.bufSize)
    (outside : inRegions (runningRegions s) a.toNat = false) (h : s.agenda = .host (.readByte a) :: rest) :
    step s = .next ((s.withAgenda rest).withReadData ((s.mem.read a.toNat).setWidth 32)) := by
  rw [step_of_readByte ha h, hostReadByte_of_outside (s := s.withAgenda rest) outside, State.withAgenda_mem]

end ByteSteps

/-- A value that fits in few bits still does when it is extended to a register. -/
theorem toNat_setWidth_lt {m : Nat} (x : BitVec m) (n : Nat) : (x.setWidth n).toNat < 2 ^ m := by
  rw [BitVec.toNat_setWidth]
  exact (Nat.mod_le _ _).trans_lt x.isLt

/-- Settles O53: outside the regions the accesses are a write and a read of memory; inside them the write marks the command
and the answer is a free byte. -/
theorem hostBytesReadBackWhatWasWritten : Obligations.HostBytesReadBackWhatWasWritten := by
  intro s a v rest ha
  refine ⟨fun canonical outside h => ?_, fun inside => ⟨fun h => ?_, fun h => ?_⟩⟩
  · have same := s.mem.read_write_same a.toNat v canonical
    refine ⟨s.mem.write a.toNat v, same, fun b => s.mem.read_write_other v, step_writeByte_of_outside ha outside h, ?_⟩
    have read := step_readByte_of_outside (rest := rest)
      (s := { s with mem := s.mem.write a.toNat v, agenda := .host (.readByte a) :: rest }) ha outside rfl
    rwa [same] at read
  · rw [step_of_writeByte ha h, hostWriteByte_of_inside (s := s.withAgenda rest) inside]
    rfl
  · refine ⟨_, s.freeCount + 1, toNat_setWidth_lt (Config.freeByte s.freeCount) 32, ?_⟩
    rw [step_of_readByte ha h, hostReadByte_of_inside (s := s.withAgenda rest) inside]
    rfl

/-! ## Sound status flags (10_state.md R26, 60_exceptions.md R281 to R285) -/

/-- What `Sound` says of `STATUS`. -/
structure SoundStatus (t : Status) : Prop where
  busy_flags : t.busy = true → t.done = false ∧ t.err = false
  no_stale_code : t.err = false → t.errCode = 0
  code_assigned : t.errCode.toNat ≤ 10

theorem errorNumber_le (c : ErrorCode) : (errorNumber c).toNat ≤ 10 := by
  cases c <;> decide

namespace SoundStatus
variable {t : Status}

theorem reset : SoundStatus Status.reset := ⟨(nomatch ·), fun _ => rfl, Nat.zero_le 10⟩

theorem start (t : Status) : SoundStatus (statusStart t) := ⟨fun _ => ⟨rfl, rfl⟩, fun _ => rfl, Nat.zero_le 10⟩

theorem complete (h : SoundStatus t) : SoundStatus (statusComplete t) :=
  ⟨(nomatch ·), h.no_stale_code, h.code_assigned⟩

theorem error (c : ErrorCode) (t : Status) : SoundStatus (statusError c t) where
  busy_flags busy := nomatch busy
  no_stale_code noError := nomatch noError
  code_assigned := errorNumber_le c

/-- Clearing `ERR` clears `ERRCODE` with it, so that no code is left stale (10_state.md R26). -/
theorem clear (h : SoundStatus t) (v : Word) : SoundStatus (statusClear v t) := by
  rw [statusClear_eq]
  cases v.getLsbD 2 with
  | true =>
    refine ⟨fun busy => ⟨?_, rfl⟩, fun _ => rfl, Nat.zero_le 10⟩
    simp [(h.busy_flags busy).1]
  | false =>
    refine ⟨fun busy => ⟨?_, (h.busy_flags busy).2⟩, h.no_stale_code, h.code_assigned⟩
    simp [(h.busy_flags busy).1]

/-- The sticky flags `CMD_OVR` and `WR_BUSY` are no part of soundness. -/
theorem withSticky (h : SoundStatus t) (cmdOvr wrBusy : Bool) :
    SoundStatus { t with cmdOvr := cmdOvr, wrBusy := wrBusy } :=
  ⟨h.busy_flags, h.no_stale_code, h.code_assigned⟩

end SoundStatus

/-! ## Sound blocks -/

/-- What `Sound` says of the block itself, the model's mark of a spoiled command (log 11) apart. -/
structure SoundBlock (s : State) : Prop where
  memory_canonical : s.mem.wf
  memory_inside : s.mem.below s.impl.bufSize
  no_decode_left : s.glaze = none
  status : SoundStatus s.regs.status
  out_is_draw : s.regs.lcgOut.toNat < 2 ^ 16

theorem sound_iff (s : State) :
    Sound s ↔ SoundBlock s ∧ (s.spoiled = true → ∃ a, inRegions (runningRegions s) a = true) :=
  ⟨fun ⟨canonical, inside, noDecode, busy, stale, code, out, runs⟩ =>
      ⟨⟨canonical, inside, noDecode, ⟨busy, stale, code⟩, out⟩, runs⟩,
    fun ⟨⟨canonical, inside, noDecode, ⟨busy, stale, code⟩, out⟩, runs⟩ =>
      ⟨canonical, inside, noDecode, busy, stale, code, out, runs⟩⟩

theorem Sound.block {s : State} (h : Sound s) : SoundBlock s := ((sound_iff s).1 h).1

theorem SoundBlock.sound {s : State} (h : SoundBlock s) (unspoiled : s.spoiled = false) : Sound s :=
  (sound_iff s).2 ⟨h, fun spoiled => absurd (unspoiled.symm.trans spoiled) Bool.false_ne_true⟩

theorem SoundBlock.withRegs {s : State} (h : SoundBlock s) {r : Regs} (status : SoundStatus r.status)
    (out : r.lcgOut.toNat < 2 ^ 16) : SoundBlock (s.withRegs r) :=
  { h with status := status, out_is_draw := out }

theorem SoundBlock.freeRegions {s : State} (h : SoundBlock s) (regions : List (Word × Word)) :
    SoundBlock (freeRegions regions s) := by
  obtain ⟨impl, regs, glaze, -⟩ := freeRegions_frame regions s
  refine ⟨freeRegions_wf regions s h.memory_canonical, ?_, glaze.trans h.no_decode_left, ?_, ?_⟩
  · rw [impl]
    exact freeRegions_below regions s h.memory_inside
  · rw [regs]
    exact h.status
  · rw [regs]
    exact h.out_is_draw

theorem SoundBlock.freeRegisters {s : State} (h : SoundBlock s) {names : List RegName} (notStatus : .status ∉ names)
    (notOut : .lcgOut ∉ names) : SoundBlock (freeRegisters names s) := by
  obtain ⟨impl, mem, glaze, -⟩ := freeRegisters_frame names s
  have out : (Machine.freeRegisters names s).regs.lcgOut = s.regs.lcgOut :=
    readRegister_freeRegisters names s .lcgOut notOut
  refine ⟨?_, ?_, glaze.trans h.no_decode_left, ?_, ?_⟩
  · rw [mem]
    exact h.memory_canonical
  · rw [mem, impl]
    exact h.memory_inside
  · rw [freeRegisters_status names s notStatus]
    exact h.status
  · rw [out]
    exact h.out_is_draw

/-! ## What the running command's regions depend on -/

theorem runningRegions_congr {s t : State} (h : t.regs = s.regs) : runningRegions t = runningRegions s := by
  simp only [runningRegions, runningCommand, h]

theorem regionsOf_withStatus (i : Instr) (r : Regs) (t : Status) :
    regionsOf i { r with status := t } = regionsOf i r := by
  cases i <;> rfl

theorem runningRegions_withStatus (s : State) {t : Status} (h : t.busy = s.regs.status.busy) :
    runningRegions (s.withRegs { s.regs with status := t }) = runningRegions s := by
  simp only [runningRegions, runningCommand, State.withRegs_regs, h, regionsOf_withStatus]

theorem runningCommand_of_idle {s : State} (idle : s.regs.status.busy = false) : runningCommand s = none :=
  if_neg (by simp [idle])

/-- A byte in the running command's regions is in the regions of a command. -/
theorem runningCommand_of_inRegions {s : State} {a : Nat} (h : inRegions (runningRegions s) a = true) :
    ∃ i, runningCommand s = some i ∧ inRegions (regionsOf i s.regs) a = true := by
  unfold runningRegions at h
  cases hc : runningCommand s with
  | none => simp [hc, inRegions_nil] at h
  | some i =>
    rw [hc] at h
    exact ⟨i, rfl, h⟩

theorem Sound.unspoiled_of_idle {s : State} (h : Sound s) (idle : s.regs.status.busy = false) : s.spoiled = false := by
  by_contra spoiled
  obtain ⟨a, inside⟩ := h.spoiled_runs (by simpa using spoiled)
  obtain ⟨i, running, -⟩ := runningCommand_of_inRegions inside
  simp [runningCommand_of_idle idle] at running

/-! ## The host's moves keep the invariant -/

theorem Sound.withAgenda {s : State} (h : Sound s) (agenda : List Turn) : Sound (s.withAgenda agenda) := { h with }

theorem Sound.withAnswer {s : State} (h : Sound s) (value : Word) (count : Nat) :
    Sound { s with readData := value, freeCount := count } := { h with }

/-- New flags that leave `BUSY` alone leave the running command its regions. -/
theorem Sound.withStatus {s : State} (h : Sound s) {t : Status} (sound : SoundStatus t)
    (busy : t.busy = s.regs.status.busy) : Sound (s.withRegs { s.regs with status := t }) := by
  refine (sound_iff _).2 ⟨h.block.withRegs sound h.out_is_draw, fun spoiled => ?_⟩
  rw [runningRegions_withStatus s busy]
  exact h.spoiled_runs spoiled

theorem Sound.discardWrite {s : State} (h : Sound s) (name : RegName) : Sound (discardWrite name s) := by
  refine h.withStatus ?_ ?_
  · split
    · exact h.block.status.withSticky true s.regs.status.wrBusy
    · exact h.block.status.withSticky s.regs.status.cmdOvr true
  · split <;> rfl

theorem storeRegister_lcgOut (r : Regs) (v : Word) {name : RegName} (h : name ≠ .lcgOut) :
    (storeRegister r v name).lcgOut = r.lcgOut :=
  readRegister_storeRegister r v name .lcgOut h.symm

theorem Sound.writeNamed {s : State} (h : Sound s) (name : RegName) (v : Word) (writable : readOnly name = false) :
    Sound (writeNamed name v s) := by
  by_cases isStatus : name = .status
  · subst isStatus
    exact h.withStatus (h.block.status.clear v) rfl
  cases busy : s.regs.status.busy with
  | true =>
    rw [writeNamed_of_busy isStatus busy]
    exact h.discardWrite name
  | false =>
    have unspoiled := h.unspoiled_of_idle busy
    by_cases isCmd : name = .cmd
    · subst isCmd
      rw [writeNamed_cmd_of_idle busy]
      exact (h.block.withRegs (r := (acceptCommand v s).regs) (.start s.regs.status) h.out_is_draw).sound unspoiled
    · have notOut : name ≠ .lcgOut := by
        rintro rfl
        cases writable
      rw [writeNamed_of_idle isStatus isCmd busy]
      refine (h.block.withRegs ?_ ?_).sound unspoiled
      · rw [storeRegister_status _ _ _ isStatus]
        exact h.block.status
      · rw [storeRegister_lcgOut _ _ notOut]
        exact h.out_is_draw

theorem Sound.writeOffset {s : State} (h : Sound s) (offset : BitVec 12) (v : Word) : Sound (writeOffset offset v s) := by
  cases named : registerAt offset with
  | none =>
    rw [writeOffset_of_reserved named]
    exact h
  | some name =>
    cases writable : readOnly name with
    | true =>
      rw [writeOffset_of_readOnly named writable]
      exact h
    | false =>
      rw [writeOffset_of_writable named writable]
      exact h.writeNamed name v writable

theorem Sound.readOffset {s : State} (h : Sound s) (offset : BitVec 12) : Sound (readOffset offset s) := by
  obtain ⟨value, count, read⟩ := readOffset_frame offset s
  rw [read]
  exact h.withAnswer value count

/-- A byte the host writes is stored inside the buffer, or is one of a running command, which it spoils. -/
theorem Sound.hostWriteByte {s : State} (h : Sound s) {a : Nat} (ha : a < s.impl.bufSize) (v : Byte) :
    Sound (hostWriteByte a v s) := by
  cases hit : inRegions (runningRegions s) a with
  | true =>
    rw [hostWriteByte_of_inside hit]
    exact { h with spoiled_runs := fun _ => ⟨a, hit⟩ }
  | false =>
    rw [hostWriteByte_of_outside hit]
    exact
      { h with
        memory_canonical := s.mem.write_wf a v h.memory_canonical
        memory_inside := s.mem.write_below a v _ ha h.memory_inside }

theorem Sound.hostReadByte {s : State} (h : Sound s) (a : Nat) : Sound (hostReadByte a s) := by
  obtain ⟨value, count, read⟩ := hostReadByte_frame a s
  rw [read]
  exact h.withAnswer value count

/-- Reset values in the registers and nothing running: sound with any sound memory. -/
theorem sound_of_reset_registers {s : State} (canonical : s.mem.wf) (inside : s.mem.below s.impl.bufSize) :
    Sound { s with regs := Regs.reset s.impl.lcgIncReset, glaze := none, spoiled := false } :=
  SoundBlock.sound ⟨canonical, inside, rfl, .reset, Nat.two_pow_pos 16⟩ rfl

theorem Sound.resetBlock {s : State} (h : Sound s) : Sound (resetBlock s) :=
  have freed := h.block.freeRegions (runningRegions s)
  sound_of_reset_registers freed.memory_canonical freed.memory_inside

/-- Power-on needs nothing of the state before it (70_reset_and_hazards.md R321). -/
theorem powerOnBlock_sound (s : State) : Sound (powerOnBlock s) := by
  refine sound_of_reset_registers (freeBytesAt_wf 0 s.impl.bufSize { s with mem := [] } ?_)
    (freeBytesAt_below 0 s.impl.bufSize { s with mem := [] } ?_)
  · exact ⟨List.Pairwise.nil, fun c hc => nomatch hc⟩
  · exact fun c hc => nomatch hc

/-- A guarded move that answers a next state had its guard. -/
theorem guard_of_guarded_next {p : Prop} [Decidable p] {r : Refusal} {t u : State}
    (h : (if p then .next u else .refused r : Outcome) = .next t) : p := by
  by_contra unguarded
  rw [if_neg unguarded] at h
  cases h

theorem Sound.hostMove {s t : State} (h : Sound s) {op : HostOp} (move : hostMove op s = .next t) : Sound t := by
  cases op with
  | writeReg bytes offset v => exact eq_of_guarded_next move ▸ h.writeOffset offset v
  | readReg bytes offset => exact eq_of_guarded_next move ▸ h.readOffset offset
  | writeByte a v => exact eq_of_guarded_next move ▸ h.hostWriteByte (guard_of_guarded_next move) v
  | readByte a => exact eq_of_guarded_next move ▸ h.hostReadByte a.toNat
  | reset =>
    cases move
    exact h.resetBlock
  | powerOn =>
    cases move
    exact powerOnBlock_sound s

/-! ## The engine's moves keep the invariant and never stop -/

/-- The two draws are the only commands with `LCG_OUT` among their results (10_state.md R45). -/
theorem draw_of_lcgOut_result {i : Instr} (h : .lcgOut ∈ resultRegisters i) : i = .lcgNext15 ∨ i = .lcgNext16 := by
  cases i <;> simp [resultRegisters] at h ⊢

/-- `LCG_OUT` holds a draw of 15 or 16 bits after a command if it does before (40_lcg.md R124, R125). -/
theorem exec_out_is_draw {i : Instr} {s t : State} (ran : exec i s = .next t) (h : s.regs.lcgOut.toNat < 2 ^ 16) :
    t.regs.lcgOut.toNat < 2 ^ 16 := by
  by_cases draws : .lcgOut ∈ resultRegisters i
  · rcases draw_of_lcgOut_result draws with rfl | rfl
    · cases ran
      exact (toNat_setWidth_lt (m := 15) _ 32).trans (by decide)
    · cases ran
      exact toNat_setWidth_lt (m := 16) _ 32
  · have kept : t.regs.lcgOut = s.regs.lcgOut :=
      exec_endsWriting i s t ran .lcgOut draws (by decide) (by decide)
    rwa [kept]

theorem CommandEnded.idle {written : List (Word × Word)} {s t : State} (ended : CommandEnded written s t) :
    t.regs.status.busy = false := by
  rcases ended.status with status | ⟨c, status⟩ <;> rw [status] <;> rfl

theorem CommandEnded.soundBlock {written : List (Word × Word)} {s t : State} (ended : CommandEnded written s t)
    (h : SoundBlock s) (impl : t.impl = s.impl) (out : t.regs.lcgOut.toNat < 2 ^ 16) : SoundBlock t where
  memory_canonical := ended.mem.wf h.memory_canonical
  memory_inside := impl ▸ ended.mem.below h.memory_canonical h.memory_inside
  no_decode_left := ended.glaze
  status := by
    rcases ended.status with status | ⟨c, status⟩ <;> rw [status]
    · exact h.status.complete
    · exact .error c _
  out_is_draw := out

/-- The engine's turn between streams ends its command at once and keeps the block sound. -/
theorem SoundBlock.engineTurn {s : State} (h : SoundBlock s) :
    ∃ t, engineTurn s = .next t ∧ t.spoiled = s.spoiled ∧ t.regs.status.busy = false ∧ SoundBlock t := by
  rcases engineTurn_command s h.no_decode_left with ⟨idle, turn⟩ | ⟨-, -, turn⟩ | ⟨-, i, decoded, turn⟩
  · exact ⟨s, turn, rfl, idle, h⟩
  · obtain ⟨t, raised, ended⟩ := EndsCommand.raisedFirst [] s .cmd s.regs.cmd
    cases raised
    exact ⟨_, turn, rfl, ended.idle, ended.soundBlock h rfl h.out_is_draw⟩
  · obtain ⟨t, ran, ended⟩ := exec_ends i s (decodeCommand_isCommand decoded)
    have frame := exec_frame ran
    exact ⟨t, turn.trans ran, frame.spoiled, ended.idle,
      ended.soundBlock h frame.impl (exec_out_is_draw ran h.out_is_draw)⟩

/-- A command that names a byte does not write `LCG_OUT`: the draws name none (20_memory.md R73). -/
theorem lcgOut_not_result_of_inRegions {i : Instr} {r : Regs} {a : Nat} (h : inRegions (regionsOf i r) a = true) :
    .lcgOut ∉ resultRegisters i := by
  intro draws
  rcases draw_of_lcgOut_result draws with rfl | rfl <;> cases h

/-- The end of a spoiled command frees bytes and results, and `LCG_OUT` is none of these. -/
theorem SoundBlock.endSpoiled {s t : State} (h : SoundBlock t) (idle : t.regs.status.busy = false)
    (runs : ∃ a, inRegions (runningRegions s) a = true) : Sound (endSpoiled s t) := by
  obtain ⟨a, inside⟩ := runs
  obtain ⟨i, running, inside⟩ := runningCommand_of_inRegions inside
  have freed := (h.freeRegions (runningRegions s)).freeRegisters (status_not_result i)
    (lcgOut_not_result_of_inRegions inside)
  have ends : Machine.endSpoiled s t =
      (Machine.freeRegisters (resultRegisters i) (Machine.freeRegions (runningRegions s) t)).withSpoiled false := by
    simp only [Machine.endSpoiled, idle, running, Bool.false_eq_true, if_false, Option.elim_some, State.withSpoiled]
  rw [ends]
  exact SoundBlock.sound { freed with } rfl

/-- From a sound state the engine goes on, to a sound state, be the command spoiled or not. -/
theorem Sound.engineMove {s : State} (h : Sound s) : ∃ t, engineMove s = .next t ∧ Sound t := by
  cases spoiled : s.spoiled with
  | false =>
    obtain ⟨t, turn, kept, -, sound⟩ := h.block.engineTurn
    exact ⟨t, (engineMove_of_unspoiled spoiled).trans turn, sound.sound (kept.trans spoiled)⟩
  | true =>
    obtain ⟨t, turn, -, idle, sound⟩ := (h.block.freeRegions (runningRegions s)).engineTurn
    refine ⟨Machine.endSpoiled s t, ?_, sound.endSpoiled idle (h.spoiled_runs spoiled)⟩
    simp only [Machine.engineMove, spoiled, if_true, spoiledTurn, turn]

/-- Settles O58: by whose turn the step was, each move keeping soundness; and the engine's move always answers. -/
theorem soundnessIsKept : Obligations.SoundnessIsKept := by
  refine ⟨fun s t h stepped => ?_, fun s h turn => ?_⟩
  · rcases step_cases stepped with ⟨-, move⟩ | ⟨rest, -, move⟩ | ⟨op, rest, -, move⟩
    · obtain ⟨u, moved, sound⟩ := h.engineMove
      cases moved.symm.trans move
      exact sound
    · obtain ⟨u, moved, sound⟩ := (h.withAgenda rest).engineMove
      cases moved.symm.trans move
      exact sound
    · exact (h.withAgenda rest).hostMove move
  · rcases turn with empty | ⟨rest, engine⟩
    · obtain ⟨t, moved, -⟩ := h.engineMove
      exact ⟨t, (step_of_agenda_nil empty).trans moved⟩
    · obtain ⟨t, moved, -⟩ := (h.withAgenda rest).engineMove
      exact ⟨t, (step_of_agenda_engine engine).trans moved⟩

end Sys2Proof.Machine
end

section
/-! SUPPORT. Decoding and encoding (30_encoding.md): the command word and its flags (R101 to R106, R111), the code of a
bytecode as a two-way rule (R108, 45_glaze.md R236), and the Glaze operations over it (R109). -/

namespace Sys2Proof.Machine

/-! ## The code of a bytecode (30_encoding.md R108) -/

theorem bitsMsbFirst_succ (n v : Nat) : bitsMsbFirst (n + 1) v = v.testBit n :: bitsMsbFirst n v := by
  simp [bitsMsbFirst, List.range_succ]

/-- A value of `k` bits after its leading 1: `k` zeros, the 1, and the bits after it. -/
theorem bytecodeCode_of_log2 {v k : Nat} (nonzero : v ≠ 0) (h : v.log2 = k) :
    bytecodeCode v = List.replicate k false ++ true :: bitsMsbFirst k v := by
  have leading : v.testBit v.log2 = true := Nat.testBit_log2 nonzero
  rw [bytecodeCode, if_neg nonzero, bitsMsbFirst_succ, leading, h]

/-! ## Reading a bytecode (45_glaze.md R236) -/

/-- Fewer than eight zeros and a 1 are counted and taken. -/
theorem codePrefix_zeros_one {k n : Nat} (h : k + n < 8) (rest : List Bool) :
    codePrefix k (List.replicate n false ++ true :: rest) = some (k + n, rest) := by
  induction n generalizing k with
  | zero => rfl
  | succ n ih =>
    rw [List.replicate_succ, List.cons_append, codePrefix, if_neg (by omega), ih (by omega)]
    congr 2
    omega

/-- Eight zeros end the code without a 1. -/
theorem codePrefix_eight_zeros {k n : Nat} (h : k + n + 1 = 8) (rest : List Bool) :
    codePrefix k (List.replicate (n + 1) false ++ rest) = some (8, rest) := by
  induction n generalizing k with
  | zero => exact if_pos h
  | succ n ih => rw [List.replicate_succ, List.cons_append, codePrefix, if_neg (by omega), ih (by omega)]

/-- What is taken before the tail: eight zeros in all, or `z` zeros in all and a 1. -/
theorem codePrefix_some {k z : Nat} {bits rest : List Bool} (hk : k < 8) (h : codePrefix k bits = some (z, rest)) :
    (z = 8 ∧ bits = List.replicate (8 - k) false ++ rest)
    ∨ (k ≤ z ∧ z < 8 ∧ bits = List.replicate (z - k) false ++ true :: rest) := by
  induction bits generalizing k with
  | nil => cases h
  | cons b bits ih =>
    cases b with
    | true =>
      cases h
      exact .inr ⟨le_rfl, hk, by rw [Nat.sub_self]; rfl⟩
    | false =>
      rw [codePrefix] at h
      split at h
      · next last =>
        cases h
        exact .inl ⟨rfl, by rw [show 8 - k = 1 by omega]; rfl⟩
      · rcases ih (by omega) h with ⟨hz, rfl⟩ | ⟨le, lt, rfl⟩
        · exact .inl ⟨hz, by rw [show 8 - k = 8 - (k + 1) + 1 by omega]; rfl⟩
        · exact .inr ⟨by omega, lt, by rw [show z - k = z - (k + 1) + 1 by omega]; rfl⟩

/-- One more bit of a value: its high part is the bits before and that bit. -/
theorem div_two_pow_eq_iff (w n v : Nat) (b : Bool) :
    w / 2 ^ n = 2 * v + b.toNat ↔ w / 2 ^ (n + 1) = v ∧ b = w.testBit n := by
  rw [Nat.testBit_eq_decide_div_mod_eq, pow_succ, ← Nat.div_div_eq_div_mul]
  cases b <;> simp <;> omega

/-- The tail reads exactly the low `n` bits of a value whose high part was read before. -/
theorem codeTail_eq_some_iff {n v w : Nat} {bits rest : List Bool} :
    codeTail n v bits = some (w, rest) ↔ w / 2 ^ n = v ∧ bits = bitsMsbFirst n w ++ rest := by
  induction n generalizing v bits with
  | zero => simp [codeTail, bitsMsbFirst, eq_comm]
  | succ n ih =>
    cases bits with
    | nil => simp [codeTail, bitsMsbFirst_succ]
    | cons b bits =>
      rw [codeTail, ih, div_two_pow_eq_iff, bitsMsbFirst_succ, List.cons_append, List.cons.injEq, and_assoc]

/-- The values with `k` bits after their leading 1. -/
theorem div_two_pow_eq_one_iff {v k : Nat} : v / 2 ^ k = 1 ↔ v ≠ 0 ∧ v.log2 = k := by
  have positive : 0 < 2 ^ k := Nat.two_pow_pos k
  rw [Nat.div_eq_iff positive]
  constructor
  · rintro ⟨lower, upper⟩
    have nonzero : v ≠ 0 := by omega
    exact ⟨nonzero, (Nat.log2_eq_iff nonzero).2 ⟨by omega, by rw [pow_succ]; omega⟩⟩
  · rintro ⟨nonzero, h⟩
    obtain ⟨lower, upper⟩ := (Nat.log2_eq_iff nonzero).1 h
    rw [pow_succ] at upper
    omega

/-- `getbc()` takes exactly the code of the bytecode it answers (R108, R236). -/
theorem getBytecode_eq_some_iff {v : Nat} {bits rest : List Bool} :
    getBytecode bits = some (v, rest) ↔ isBytecode v = true ∧ bits = bytecodeCode v ++ rest := by
  constructor
  · intro h
    unfold getBytecode at h
    split at h
    · cases h
    · next zeros left taken =>
      rcases codePrefix_some (by decide) taken with ⟨rfl, rfl⟩ | ⟨-, few, rfl⟩
      · cases h
        exact ⟨rfl, rfl⟩
      · rw [if_neg (by omega), codeTail_eq_some_iff, div_two_pow_eq_one_iff] at h
        obtain ⟨⟨nonzero, length⟩, rfl⟩ := h
        have small : v < 2 ^ 8 := (Nat.log2_lt nonzero).1 (by omega)
        exact ⟨decide_eq_true small, by simp [bytecodeCode_of_log2 nonzero length]⟩
  · rintro ⟨small, rfl⟩
    by_cases zero : v = 0
    · subst zero
      have taken : codePrefix 0 (bytecodeCode 0 ++ rest) = some (8, rest) := codePrefix_eight_zeros (n := 7) rfl rest
      simp [getBytecode, taken]
    · have few : v.log2 < 8 := (Nat.log2_lt zero).2 (of_decide_eq_true small)
      have taken : codePrefix 0 (bytecodeCode v ++ rest) = some (v.log2, bitsMsbFirst v.log2 v ++ rest) := by
        rw [bytecodeCode_of_log2 zero rfl, List.append_assoc, List.cons_append,
          codePrefix_zeros_one (by omega), Nat.zero_add]
      simp only [getBytecode, taken, if_neg few.ne]
      exact codeTail_eq_some_iff.2 ⟨div_two_pow_eq_one_iff.2 ⟨zero, rfl⟩, rfl⟩

/-- An operand's code gives its value to what follows. -/
theorem withBytecode_code {v : Nat} (h : isBytecode v = true) (rest : List Bool)
    (k : Nat → List Bool → Except Reject (Instr × List Bool)) :
    withBytecode (bytecodeCode v ++ rest) k = k v rest := by
  rw [withBytecode, getBytecode_eq_some_iff.2 ⟨h, rfl⟩]

/-- Where decoding goes on after a bytecode, the bits began with that bytecode's code. -/
theorem withBytecode_took_code {bits : List Bool} {k : Nat → List Bool → Except Reject (Instr × List Bool)}
    {r : Instr × List Bool} (h : withBytecode bits k = .ok r) :
    ∃ v rest, isBytecode v = true ∧ bits = bytecodeCode v ++ rest ∧ k v rest = .ok r := by
  obtain ⟨v, rest, got, next⟩ := withBytecode_ok h
  obtain ⟨small, code⟩ := getBytecode_eq_some_iff.1 got
  exact ⟨v, rest, small, code, next⟩

/-! ## The Glaze operations (30_encoding.md R109) -/

/-- The decoder gives a well-formed operation back from its code, whatever bits follow. -/
theorem decodeGlaze_encode {i : Instr} (op : isGlazeOp i = true) (wf : i.wellFormed = true) :
    ∃ bs, encode i = .bits bs ∧ ∀ rest, decodeGlaze (bs ++ rest) = .ok (i, rest) := by
  cases i with
  | nop | lcgNext15 | lcgNext16 | bitperm | fence | rotxor | csum | adler32 | check | unglaze => cases op
  | lit => exact ⟨_, rfl, fun rest => withBytecode_code rfl rest _⟩
  | litl => exact ⟨_, rfl, fun rest => withBytecode_code rfl rest _⟩
  | ref1 v | refd v | lits v =>
    refine ⟨_, rfl, fun rest => ?_⟩
    rw [List.append_assoc, decodeGlaze, withBytecode_code rfl]
    exact withBytecode_code wf rest _
  | ref v w | refw v w =>
    obtain ⟨hv, hw⟩ := Bool.and_eq_true_iff.1 wf
    refine ⟨_, rfl, fun rest => ?_⟩
    rw [List.append_assoc, List.append_assoc, decodeGlaze, withBytecode_code rfl]
    exact (withBytecode_code hv _ _).trans (withBytecode_code hw rest _)

/-- What the decoder answers is well formed, and the bits it took are its code. -/
theorem encode_of_decodeGlaze {bits rest : List Bool} {i : Instr} (h : decodeGlaze bits = .ok (i, rest)) :
    i.wellFormed = true ∧ ∃ bs, encode i = .bits bs ∧ bits = bs ++ rest := by
  obtain ⟨op, left, -, rfl, operands⟩ := withBytecode_took_code h
  split at operands
  case h_1 | h_7 =>
    cases operands
    exact ⟨rfl, _, rfl, rfl⟩
  case h_2 | h_4 | h_6 =>
    obtain ⟨v, left, hv, rfl, done⟩ := withBytecode_took_code operands
    cases done
    exact ⟨hv, _, rfl, (List.append_assoc ..).symm⟩
  case h_3 | h_5 =>
    obtain ⟨v, left, hv, rfl, operand⟩ := withBytecode_took_code operands
    obtain ⟨w, left, hw, rfl, done⟩ := withBytecode_took_code operand
    cases done
    exact ⟨Bool.and_eq_true_iff.2 ⟨hv, hw⟩, _, rfl, by simp only [List.append_assoc]⟩
  case h_8 => cases operands

/-- A well-formed operation's code has at most 45 bits: `EncodedSize` of each constructor. -/
theorem encode_length_le {i : Instr} {bs : List Bool} (wf : i.wellFormed = true) (code : encode i = .bits bs) :
    bs.length ≤ maxGlazeBits := by
  have size : Laws.EncodedSize.Statement i := by
    cases i with
    | nop | lcgNext15 | lcgNext16 | bitperm | fence | rotxor | csum | adler32 | check | unglaze => cases code
    | lit => exact Laws.EncodedSize.lit
    | ref1 d => exact Laws.EncodedSize.ref1 d
    | ref d l => exact Laws.EncodedSize.ref d l
    | refd l => exact Laws.EncodedSize.refd l
    | refw l dh => exact Laws.EncodedSize.refw l dh
    | lits l => exact Laws.EncodedSize.lits l
    | litl => exact Laws.EncodedSize.litl
  have bounded := size wf
  rw [code] at bounded
  exact bounded.2

/-- Settles O3: a bytecode is read exactly by its code (`getBytecode_eq_some_iff`), operand by operand. -/
theorem glazeDecodeAndEncodeAgree : Obligations.GlazeDecodeAndEncodeAgree := by
  refine ⟨fun i op wf => ?_, fun bits rest i decoded => ?_⟩
  · obtain ⟨bs, code, decodes⟩ := decodeGlaze_encode op wf
    exact ⟨bs, code, encode_length_le wf code, decodes⟩
  · exact ⟨decodeGlaze_isGlazeOp decoded, encode_of_decodeGlaze decoded⟩

/-! ## Command words (30_encoding.md R101 to R104) -/

/-- A word with zero reserved bits is its `OP` and `FLAGS` put together. -/
theorem commandWord_of_fields {w : Word} (reserved : w.extractLsb' 16 16 = (0 : Half)) :
    commandWord (w.extractLsb' 0 8) (w.extractLsb' 8 8) = w := by
  rw [commandWord, ← reserved, BitVec.extractLsb'_append_extractLsb'_eq_extractLsb' (by decide),
    BitVec.extractLsb'_append_extractLsb'_eq_extractLsb' (by decide)]
  exact BitVec.extractLsb'_eq_self

/-- A word that decodes has zero reserved bits, an assigned `OP`, and flags its row allows. -/
theorem decodeCommand_ok {w : Word} {i : Instr} (h : decodeCommand w = .ok i) :
    ∃ op flags allowed build, commandWord op flags = w ∧ commandRow op = some (allowed, build)
      ∧ flags &&& ~~~allowed = 0 ∧ build flags = i := by
  unfold decodeCommand at h
  dsimp only at h
  split at h
  · cases h
  · next reserved =>
    split at h
    · cases h
    · next allowed build row =>
      split at h
      · cases h
      · next flags =>
        cases h
        exact ⟨_, _, allowed, build, commandWord_of_fields (not_not.1 reserved), row, not_not.1 flags, rfl⟩

/-! ## The flags a row allows (30_encoding.md R103) -/

theorem flags_eq_zero {f : Byte} (h : f &&& ~~~0x00 = 0) : f = 0 :=
  (BitVec.and_allOnes (x := f)).symm.trans h

/-- `DIR` is all that BITPERM's flags hold. -/
theorem directionFlag_directionOf : ∀ f : Byte, f &&& ~~~0x01 = 0 → directionFlag (directionOf f) = f := by
  decide

/-- `DIR` and `XF` are all that FENCE's flags hold. -/
theorem fenceFlags_of_flags : ∀ f : Byte, f &&& ~~~0x03 = 0 →
    directionFlag (directionOf f) ||| flagBit 1 (f.getLsbD 1) = f := by
  decide

/-- `C_SUM`, `C_XOR` and `C_ADL` are all that CHECK's flags hold. -/
theorem checkFlags_of_flags : ∀ f : Byte, f &&& ~~~0x07 = 0 →
    flagBit 0 (f.getLsbD 0) ||| flagBit 1 (f.getLsbD 1) ||| flagBit 2 (f.getLsbD 2) = f := by
  decide

/-- Each row's instruction encodes to the row's `OP` with the flags it was built from. -/
theorem encode_of_commandRow {op allowed flags : Byte} {build : Byte → Instr}
    (row : commandRow op = some (allowed, build)) (legal : flags &&& ~~~allowed = 0) :
    encode (build flags) = .command (commandWord op flags) := by
  unfold commandRow at row
  split_ifs at row with hop hop hop hop hop hop hop hop hop hop <;> cases row <;> subst hop
  -- the seven commands without flags
  any_goals (rw [flags_eq_zero legal]; rfl)
  · rw [encode, directionFlag_directionOf flags legal]
  · rw [encode, fenceFlags_of_flags flags legal]
  · rw [encode, checkFlags_of_flags flags legal]

/-- What decodes from a word has that word as its encoding. -/
theorem encode_of_decodeCommand {w : Word} {i : Instr} (h : decodeCommand w = .ok i) : encode i = .command w := by
  obtain ⟨op, flags, allowed, build, rfl, row, legal, rfl⟩ := decodeCommand_ok h
  exact encode_of_commandRow row legal

/-- A command's encoding is one of the words of 30_encoding.md R111, and it decodes to the command. -/
theorem decodeCommand_encode {i : Instr} (command : isCommand i = true) :
    ∃ w, w ∈ commandWords ∧ encode i = .command w ∧ decodeCommand w = .ok i := by
  cases i with
  | nop | lcgNext15 | lcgNext16 | rotxor | csum | adler32 | unglaze => exact ⟨_, by decide, rfl, rfl⟩
  | bitperm dir => exact ⟨_, by cases dir <;> decide, rfl, by cases dir <;> rfl⟩
  | fence dir xf => exact ⟨_, by cases dir <;> cases xf <;> decide, rfl, by cases dir <;> cases xf <;> rfl⟩
  | check s x a =>
    exact ⟨_, by cases s <;> cases x <;> cases a <;> decide, rfl, by cases s <;> cases x <;> cases a <;> rfl⟩
  | lit | ref1 | ref | refd | refw | lits | litl => cases command

/-- Settles O2: the flags a row allows are those its instruction is built from. -/
theorem commandDecodeAndEncodeAgree : Obligations.CommandDecodeAndEncodeAgree := by
  refine ⟨fun i command => ?_, fun w i decoded => ?_⟩
  · obtain ⟨w, -, code, decodes⟩ := decodeCommand_encode command
    exact ⟨w, code, decodes⟩
  · exact ⟨decodeCommand_isCommand decoded, encode_of_decodeCommand decoded⟩

/-! ## Illegal command words (30_encoding.md R104, R106) -/

theorem commandWords_decode : ∀ w ∈ commandWords, (decodeCommand w).toOption.isSome = true :=
  List.all_eq_true.1 rfl

/-- The words that decode are exactly those of 30_encoding.md R111. -/
theorem decodes_iff_mem_commandWords (w : Word) : (∃ i, decodeCommand w = .ok i) ↔ w ∈ commandWords := by
  constructor
  · rintro ⟨i, decoded⟩
    obtain ⟨v, listed, code, -⟩ := decodeCommand_encode (decodeCommand_isCommand decoded)
    obtain rfl : v = w := by simpa [encode_of_decodeCommand decoded] using code.symm
    exact listed
  · intro listed
    have decodes := commandWords_decode w listed
    cases decoded : decodeCommand w with
    | ok i => exact ⟨i, rfl⟩
    | error e => simp [decoded, Except.toOption] at decodes

/-- Settles O7: a word outside R111's does not decode, and the engine's turn on it raises `ERR_CMD`. -/
theorem illegalCommandWordsRaiseErrCmd : Obligations.IllegalCommandWordsRaiseErrCmd := by
  refine ⟨decodes_iff_mem_commandWords, fun s ⟨agenda, unspoiled⟩ glaze busy illegal => ?_⟩
  rw [step_of_agenda_nil agenda, engineMove_of_unspoiled unspoiled]
  rcases engineTurn_command s glaze with ⟨idle, -⟩ | ⟨-, -, raised⟩ | ⟨-, i, decoded, -⟩
  · simp [busy] at idle
  · exact raised
  · exact absurd ((decodes_iff_mem_commandWords _).1 ⟨i, decoded⟩) illegal

/-! ## The words and codes the spec writes out (30_encoding.md R108, R109, R111) -/

/-- Settles O1: each word and code is closed, and the decoder runs on it. -/
theorem writtenOutEncodingsDecode : Obligations.WrittenOutEncodingsDecode :=
  ⟨rfl, rfl, rfl, rfl, rfl, rfl, rfl, rfl, rfl, rfl, rfl, rfl⟩

end Sys2Proof.Machine
end

section
/-! SUPPORT. `NOP` and the two draws of the generator (40_lcg.md R120 to R125): each draw as the bit field its rule
writes, and the end of a command that draws once. -/

namespace Sys2Proof.Machine

/-! ## The draws as bit fields (40_lcg.md R122, R123) -/

theorem setWidth_draw15 (n15sel : Bool) (acc : Word) (w : Nat) :
    (draw15 n15sel acc).setWidth w =
      if n15sel then (acc.extractLsb 30 16).setWidth w else (acc.extractLsb 31 17).setWidth w := by
  cases n15sel with
  | true => rfl
  | false => rfl

theorem draw16_eq_extractLsb (acc : Word) : draw16 acc = acc.extractLsb 31 16 := rfl

/-! ## The ends of the commands (40_lcg.md R120, R124, R125) -/

theorem completeDraw_eq (s : State) (acc out : Word) :
    .next (completeDraw acc out s) = completesWith s { s.regs with lcgAcc := acc, lcgOut := out } s.mem := rfl

theorem exec_nop (s : State) : exec .nop s = completesWith s s.regs s.mem := rfl

theorem exec_lcgNext15 (s : State) :
    exec .lcgNext15 s =
      let acc := lcgStep s.regs.lcgMul s.regs.lcgInc s.regs.lcgAcc
      .next (completeDraw acc ((draw15 s.regs.ctrl.n15sel acc).setWidth 32) s) := rfl

theorem exec_lcgNext16 (s : State) :
    exec .lcgNext16 s =
      let acc := lcgStep s.regs.lcgMul s.regs.lcgInc s.regs.lcgAcc
      .next (completeDraw acc ((draw16 acc).setWidth 32) s) := rfl

/-- Settles O10: a command that draws once ends by `completeDraw`, and its draw is the rule's bit field. -/
theorem nopAndTheDrawsComplete : Obligations.NopAndTheDrawsComplete := by
  refine ⟨rfl, rfl, rfl, fun s => ⟨exec_nop s, ?_, ?_⟩⟩
  · rw [exec_lcgNext15, completeDraw_eq, setWidth_draw15, lcgStep]
  · rw [exec_lcgNext16, completeDraw_eq, draw16_eq_extractLsb, lcgStep]

end Sys2Proof.Machine
end

section
/-! SUPPORT. BITPERM's check of its `CHUNK` and its table (41_bitperm.md R141, R143, R149): the chunks it accepts, the pool
that each removal leaves, and the entries drawn from it. -/

namespace Sys2Proof.Machine

/-! ## The chunk (41_bitperm.md R141) -/

/-- A legal `CHUNK` is a power of two up to the largest chunk. -/
theorem two_pow_of_chunkLegal {p : Params} {chunk : Word} (legal : chunkLegal p chunk = true) :
    ∃ k, chunk.toNat = 2 ^ k ∧ 2 ^ k ≤ p.bpMaxChunk := by
  rw [chunkLegal, Bool.and_eq_true, Bool.and_eq_true] at legal
  obtain ⟨⟨nonzero, oneBit⟩, bounded⟩ := legal
  have pos : chunk.toNat ≠ 0 := BitVec.toNat_ne.1 (of_decide_eq_true nonzero)
  have pred : (chunk - 1).toNat = chunk.toNat - 1 := by bv_omega
  have bits : chunk.toNat &&& (chunk.toNat - 1) = 0 := by
    rw [← pred, ← BitVec.toNat_and, of_decide_eq_true oneBit]
    rfl
  obtain ⟨k, hk⟩ := Nat.ne_zero_and_sub_one_eq_zero_iff_isPowerOfTwo.1 ⟨pos, bits⟩
  exact ⟨k, hk, hk ▸ of_decide_eq_true bounded⟩

/-- Settles O11: the check of `CHUNK` is the first, and it passes for powers of two only. -/
theorem bitpermRejectsIllegalChunk : Obligations.BitpermRejectsIllegalChunk := fun _ _ illegal =>
  if_neg fun legal => illegal (two_pow_of_chunkLegal legal)

/-! ## The pool and its removals (41_bitperm.md R143) -/

theorem removeFromPool_shift (pool : List Nat) (j : Nat) : removeFromPool true pool j = pool.eraseIdx j := rfl

/-- Swap-with-last removal: the last element goes into the hole, unless it is the one removed. -/
theorem removeFromPool_last (pool : List Nat) (x j : Nat) : removeFromPool false (pool ++ [x]) j = pool.set j x := by
  have last : (pool ++ [x]).getLastD 0 = x := by simp
  rw [removeFromPool, last, if_neg Bool.false_ne_true]
  rcases Nat.lt_or_ge j pool.length with inside | outside
  · rw [List.set_append_left _ _ inside, List.dropLast_concat]
  · have kept : [x].set (j - pool.length) x = [x] := by cases j - pool.length <;> rfl
    rw [List.set_append_right _ _ outside, kept, List.dropLast_concat, List.set_eq_of_length_le outside]

/-- The element drawn and what its removal leaves are the pool. -/
theorem cons_removeFromPool_perm (shift : Bool) {pool : List Nat} {j : Nat} (h : j < pool.length) :
    (pool.getD j 0 :: removeFromPool shift pool j).Perm pool := by
  cases shift with
  | true =>
    rw [List.getD_eq_getElem _ _ h]
    exact List.getElem_cons_eraseIdx_perm h
  | false =>
    obtain ⟨live, x, rfl⟩ := (List.eq_nil_or_concat' pool).resolve_left (List.length_pos_iff.1 (by omega))
    rw [List.length_append, List.length_singleton] at h
    have drawn : (live ++ [x]).getD j 0 = live[j]?.getD x := by
      rcases Nat.lt_or_ge j live.length with inside | last
      · simp [List.getD_eq_getElem?_getD, List.getElem?_append_left, inside]
      · simp [List.getD_eq_getElem?_getD, List.getElem?_append_right, last, show j - live.length = 0 by omega]
    rw [removeFromPool_last, drawn]
    exact (List.getD_set_perm_cons live j x).trans (List.perm_append_singleton x live).symm

/-- Both removals on a pool given by its elements, written as 41_bitperm.md R143 writes them. -/
theorem removeFromPool_map_range (shift : Bool) (f : Nat → Nat) {size j : Nat} (h : j ≤ size) :
    removeFromPool shift ((List.range (size + 1)).map f) j
      = (List.range size).map fun k =>
          if shift then (if j ≤ k then f (k + 1) else f k) else (if k = j then f size else f k) := by
  cases shift with
  | true =>
    rw [removeFromPool_shift]
    refine List.ext_getElem (by simp [List.length_eraseIdx_of_lt, Nat.lt_succ_of_le h]) fun k _ _ => ?_
    rw [List.getElem_eraseIdx]
    rcases Nat.lt_or_ge k j with before | after
    · simp [before, Nat.not_le.2 before]
    · simp [after, Nat.not_lt.2 after]
  | false =>
    rw [List.range_succ, List.map_append, List.map_singleton, removeFromPool_last]
    refine List.ext_getElem (by simp) fun k _ _ => ?_
    simp only [List.getElem_set, List.getElem_map, List.getElem_range, eq_comm, Bool.false_eq_true, if_false]

/-! ## The table (41_bitperm.md R143, R149) -/

theorem drawTable_succ (c : Ctrl) (mul inc : Word) (size : Nat) (pool : List Nat) (acc : Word) :
    drawTable c mul inc (size + 1) pool acc =
      let next := lcgStep mul inc acc
      let j := tableDraw c next % (size + 1)
      let rest := drawTable c mul inc size (removeFromPool c.bpShift pool j) next
      (pool.getD j 0 :: rest.1, rest.2) := rfl

/-- One draw an entry. -/
theorem drawTable_acc (c : Ctrl) (mul inc : Word) (size : Nat) (pool : List Nat) (acc : Word) :
    (drawTable c mul inc size pool acc).2 = lcgAfter mul inc size acc := by
  induction size generalizing pool acc with
  | zero => rfl
  | succ size ih => exact ih _ _

/-- A table drawn until the pool is empty holds the pool's elements. -/
theorem drawTable_perm (c : Ctrl) (mul inc : Word) (size : Nat) (pool : List Nat) (acc : Word)
    (h : pool.length = size) : (drawTable c mul inc size pool acc).1.Perm pool := by
  induction size generalizing pool acc with
  | zero => rw [List.length_eq_zero_iff.1 h]; exact .nil
  | succ size ih =>
    rw [drawTable_succ]
    set j := tableDraw c (lcgStep mul inc acc) % (size + 1)
    have inside : j < pool.length := h ▸ Nat.mod_lt _ size.succ_pos
    have removed := cons_removeFromPool_perm c.bpShift inside
    have left : (removeFromPool c.bpShift pool j).length = size := by
      have := removed.length_eq
      rw [List.length_cons, h] at this
      exact Nat.succ_inj.1 this
    exact ((ih _ _ left).cons _).trans removed

theorem permutationTable_acc (c : Ctrl) (mul inc : Word) (n : Nat) (acc : Word) :
    (permutationTable c mul inc n acc).2 = lcgAfter mul inc n acc := drawTable_acc c mul inc n _ acc

theorem permutationTable_perm (c : Ctrl) (mul inc : Word) (n : Nat) (acc : Word) :
    (permutationTable c mul inc n acc).1.Perm (List.range n) :=
  drawTable_perm c mul inc n _ acc List.length_range

theorem permutationTable_nodup (c : Ctrl) (mul inc : Word) (n : Nat) (acc : Word) :
    (permutationTable c mul inc n acc).1.Nodup :=
  (permutationTable_perm c mul inc n acc).nodup_iff.2 List.nodup_range

theorem permutationTable_length (c : Ctrl) (mul inc : Word) (n : Nat) (acc : Word) :
    (permutationTable c mul inc n acc).1.length = n :=
  (permutationTable_perm c mul inc n acc).length_eq.trans List.length_range

/-- The pool's live part when entry `i` is drawn. -/
def livePool (c : Ctrl) (mul inc acc : Word) (n i : Nat) : List Nat :=
  (List.range (n - i)).map (tablePool c mul inc acc n i)

theorem livePool_zero (c : Ctrl) (mul inc acc : Word) (n : Nat) : livePool c mul inc acc n 0 = List.range n :=
  List.map_id _

theorem livePool_getD (c : Ctrl) (mul inc acc : Word) {n i k : Nat} (h : k < n - i) :
    (livePool c mul inc acc n i).getD k 0 = tablePool c mul inc acc n i k := by
  simp [livePool, List.getD_eq_getElem?_getD, h]

/-- The rule's pool loses its drawn element as the model's does. -/
theorem removeFromPool_livePool (c : Ctrl) (mul inc acc : Word) {n i : Nat} (h : i < n) :
    removeFromPool c.bpShift (livePool c mul inc acc n i) (tableIndex c mul inc acc n i)
      = livePool c mul inc acc n (i + 1) := by
  obtain ⟨size, hsize⟩ : ∃ size, n - i = size + 1 := ⟨n - i - 1, by omega⟩
  have drawn : tableIndex c mul inc acc n i ≤ size :=
    Nat.le_of_lt_succ ((tableIndex_lt c mul inc acc h).trans_eq hsize)
  rw [livePool, hsize, removeFromPool_map_range _ _ drawn, livePool, show n - (i + 1) = size by omega]
  refine List.map_congr_left fun k hk => ?_
  have inside : k + 1 < size + 1 := Nat.succ_lt_succ (List.mem_range.1 hk)
  simp only [tablePool, hsize, inside, and_true, Nat.add_sub_cancel]

/-- From entry `i` on the table follows the rule. -/
theorem drawTable_livePool (c : Ctrl) (mul inc acc : Word) (n size i : Nat) (h : i + size = n) :
    (drawTable c mul inc size (livePool c mul inc acc n i) (lcgAfter mul inc i acc)).1
      = (List.range' i size).map fun i => tablePool c mul inc acc n i (tableIndex c mul inc acc n i) := by
  induction size generalizing i with
  | zero => rfl
  | succ size ih =>
    have index : tableDraw c (lcgAfter mul inc (i + 1) acc) % (size + 1) = tableIndex c mul inc acc n i := by
      rw [tableIndex_eq, show n - i = size + 1 by omega]
    have inside := tableIndex_lt c mul inc acc (show i < n by omega)
    rw [drawTable_succ, ← lcgAfter_last]
    dsimp only
    rw [index, removeFromPool_livePool c mul inc acc (by omega), livePool_getD c mul inc acc inside,
      ih (i + 1) (by omega), List.range'_succ, List.map_cons]

theorem permutationTable_eq (c : Ctrl) (mul inc acc : Word) (n : Nat) :
    (permutationTable c mul inc n acc).1
      = (List.range n).map fun i => tablePool c mul inc acc n i (tableIndex c mul inc acc n i) := by
  have := drawTable_livePool c mul inc acc n n 0 (Nat.zero_add n)
  rwa [livePool_zero, ← List.range_eq_range'] at this

theorem permutationTable_getElem? (c : Ctrl) (mul inc acc : Word) {n i : Nat} (h : i < n) :
    (permutationTable c mul inc n acc).1[i]? = some (tablePool c mul inc acc n i (tableIndex c mul inc acc n i)) := by
  rw [permutationTable_eq, List.getElem?_map, List.getElem?_range h]
  rfl

/-- The second entry: what the first removal has left at its index. -/
theorem tablePool_one (c : Ctrl) (mul inc acc : Word) {n k : Nat} (h : k < n - 1) :
    tablePool c mul inc acc n 1 k =
      let j := tableIndex c mul inc acc n 0
      if c.bpShift then (if k < j then k else k + 1) else (if k = j then n - 1 else k) := by
  simp only [tablePool, Nat.sub_zero]
  split_ifs <;> omega

/-- Settles O14: the model's pool is the rule's before each draw, and both lose the entry drawn. -/
theorem tableHoldsEveryBitIndexOnce : Obligations.TableHoldsEveryBitIndexOnce := by
  intro c mul inc acc n
  refine ⟨permutationTable_perm c mul inc n acc, permutationTable_acc c mul inc n acc,
    fun i hi => permutationTable_getElem? c mul inc acc hi, fun two => ⟨?_, ?_⟩⟩
  · rw [permutationTable_getElem? c mul inc acc (by omega), tableIndex_eq]
    rfl
  · rw [permutationTable_getElem? c mul inc acc (by omega),
      tablePool_one c mul inc acc (tableIndex_lt c mul inc acc two), tableIndex_eq, tableIndex_eq]
    rfl

end Sys2Proof.Machine
end

section
/-! SUPPORT. BITPERM's swaps (41_bitperm.md R144, R145): what a swap does to the bits of memory, a list of swaps as a
permutation of the bits, and the pairs of the swap walk. -/

namespace Sys2Proof.Machine

/-! ## The bits of memory (41_bitperm.md R145) -/

theorem getLsbD_putBit (x : Byte) (k i : Nat) (v : Bool) (hi : i < 8) :
    (putBit x k v).getLsbD i = if i = k then v else x.getLsbD i := by
  have mask : (1#8 <<< k).getLsbD i = decide (i = k) := by
    rw [BitVec.getLsbD_shiftLeft, BitVec.getLsbD_one, Bool.eq_iff_iff]
    simp only [Nat.ofNat_pos, decide_true, Bool.true_and, Bool.and_eq_true, decide_eq_true_eq, Bool.not_eq_eq_eq_not,
      Bool.not_true, decide_eq_false_iff_not, not_lt]
    omega
  cases v with
  | true =>
    rw [putBit, if_pos rfl, BitVec.getLsbD_or, mask]
    by_cases h : i = k <;> simp [h]
  | false =>
    rw [putBit, if_neg Bool.false_ne_true, BitVec.getLsbD_and, BitVec.getLsbD_not, mask]
    by_cases h : i = k <;> simp [h, hi]

theorem sliceBit_setSliceBit {m : Memory} (h : m.wf) (base p b : Nat) (v : Bool) :
    sliceBit (setSliceBit m base p v) base b = if b = p then v else sliceBit m base b := by
  rw [sliceBit, setSliceBit, Memory.read_write _ _ _ _ h]
  split
  · next sameByte =>
    have hbyte : b / 8 = p / 8 := Nat.add_left_cancel sameByte
    have same_iff : b % 8 = p % 8 ↔ b = p := by omega
    simp only [getLsbD_putBit _ _ _ _ (Nat.mod_lt b (by decide : 0 < 8)), same_iff, sliceBit, hbyte]
  · next otherByte => rw [if_neg (fun same => otherByte (by rw [same])), sliceBit]

/-- A swap exchanges two bits of the slice. -/
theorem sliceBit_swapBit {m : Memory} (h : m.wf) (base : Nat) (pq : Nat × Nat) :
    sliceBit (swapBit base m pq) base = swapBits (sliceBit m base) pq := by
  funext b
  simp only [swapBit, sliceBit_setSliceBit (setSliceBit_wf _ _ _ _ h), sliceBit_setSliceBit h, swapBits]
  split_ifs with hq hp <;> simp_all

/-- The bits of a slice after a list of swaps. -/
theorem sliceBit_foldl_swapBit {m : Memory} (h : m.wf) (base : Nat) (pairs : List (Nat × Nat)) :
    sliceBit (pairs.foldl (swapBit base) m) base = pairs.foldl swapBits (sliceBit m base) := by
  induction pairs generalizing m with
  | nil => rfl
  | cons pq pairs ih => rw [List.foldl_cons, ih (swapBit_wf base m pq h), sliceBit_swapBit h, List.foldl_cons]

/-- Memories with the same bits, counted from address 0, read alike. -/
theorem sameMemory_of_bits {m m' : Memory} (h : sliceBit m' 0 = sliceBit m 0) : sameMemory m m' := by
  intro a
  apply BitVec.eq_of_getLsbD_eq
  intro i hi
  have bit := congrFun h (8 * a + i)
  rwa [sliceBit, sliceBit, show 0 + (8 * a + i) / 8 = a by omega, show (8 * a + i) % 8 = i by omega] at bit

/-- A pair of bits of the slice at `base`, counted from address 0. -/
def pairAt (base : Nat) (pq : Nat × Nat) : Nat × Nat := (8 * base + pq.1, 8 * base + pq.2)

theorem swapBit_eq_pairAt (base : Nat) (m : Memory) (pq : Nat × Nat) :
    swapBit base m pq = swapBit 0 m (pairAt base pq) := by
  have byte (b : Nat) : 0 + (8 * base + b) / 8 = base + b / 8 := by omega
  have bit (b : Nat) : (8 * base + b) % 8 = b % 8 := by omega
  simp only [swapBit, setSliceBit, sliceBit, pairAt, byte, bit]

/-! ## Swaps as permutations (41_bitperm.md R144, R147) -/

/-- The bit that each bit is taken from when the pairs are swapped one after another. -/
def swapsPerm (pairs : List (Nat × Nat)) : Equiv.Perm Nat := (pairs.map fun pq => Equiv.swap pq.1 pq.2).prod

theorem swapsPerm_cons (pq : Nat × Nat) (pairs : List (Nat × Nat)) :
    swapsPerm (pq :: pairs) = Equiv.swap pq.1 pq.2 * swapsPerm pairs := List.prod_cons

theorem swapsPerm_append (ps qs : List (Nat × Nat)) : swapsPerm (ps ++ qs) = swapsPerm ps * swapsPerm qs := by
  rw [swapsPerm, List.map_append, List.prod_append, swapsPerm, swapsPerm]

theorem foldl_swapBits (bits : Nat → Bool) (pairs : List (Nat × Nat)) :
    pairs.foldl swapBits bits = bits ∘ swapsPerm pairs := by
  induction pairs generalizing bits with
  | nil => rfl
  | cons pq pairs ih =>
    have swapped : swapBits bits pq = bits ∘ Equiv.swap pq.1 pq.2 := by
      funext b
      rw [swapBits, Function.comp_apply, Equiv.swap_apply_def]
      split_ifs <;> rfl
    rw [List.foldl_cons, ih, swapped, swapsPerm_cons, Equiv.Perm.coe_mul, Function.comp_assoc]

/-- Swaps made in reverse undo those made in order. -/
theorem swapsPerm_reverse (pairs : List (Nat × Nat)) : swapsPerm pairs.reverse = (swapsPerm pairs)⁻¹ := by
  simp [swapsPerm, List.map_reverse, List.prod_reverse_noncomm, Function.comp_def]

theorem swapsPerm_apply_of_not_mem {pairs : List (Nat × Nat)} {b : Nat}
    (h : ∀ pq ∈ pairs, b ≠ pq.1 ∧ b ≠ pq.2) : swapsPerm pairs b = b := by
  induction pairs with
  | nil => rfl
  | cons pq pairs ih =>
    obtain ⟨⟨first, second⟩, rest⟩ := List.forall_mem_cons.1 h
    rw [swapsPerm_cons, Equiv.Perm.mul_apply, ih rest, Equiv.swap_apply_of_ne_of_ne first second]

/-- Two pairs without a common bit. -/
def ApartPairs (pq rs : Nat × Nat) : Prop := (pq.1 ≠ rs.1 ∧ pq.1 ≠ rs.2) ∧ (pq.2 ≠ rs.1 ∧ pq.2 ≠ rs.2)

/-- Lists of pairs without a common bit make disjoint permutations. -/
theorem swapsPerm_disjoint {ps qs : List (Nat × Nat)} (h : ∀ pq ∈ ps, ∀ rs ∈ qs, ApartPairs pq rs) :
    (swapsPerm ps).Disjoint (swapsPerm qs) := by
  intro b
  by_cases touched : ∀ pq ∈ ps, b ≠ pq.1 ∧ b ≠ pq.2
  · exact .inl (swapsPerm_apply_of_not_mem touched)
  · right
    obtain ⟨pq, hpq, hb⟩ : ∃ pq ∈ ps, b ≠ pq.1 → b = pq.2 := by simpa using touched
    refine swapsPerm_apply_of_not_mem fun rs hrs => ?_
    obtain ⟨first, second⟩ := h pq hpq rs hrs
    by_cases isFirst : b = pq.1
    · exact isFirst ▸ first
    · exact hb isFirst ▸ second

/-- First swaps that are reversed cancel, past later swaps of other bits. -/
theorem swapsPerm_append_inverse {ps qs rs : List (Nat × Nat)} (apart : ∀ pq ∈ ps, ∀ x ∈ qs, ApartPairs pq x)
    (rest : swapsPerm qs * swapsPerm rs = 1) : swapsPerm (ps ++ qs) * swapsPerm (ps.reverse ++ rs) = 1 := by
  rw [swapsPerm_append, swapsPerm_append, swapsPerm_reverse, (swapsPerm_disjoint apart).commute.eq, mul_assoc,
    mul_inv_cancel_left, rest]

/-- Swaps of pairs without common bits exchange the bits of each pair. -/
theorem swapsPerm_apply_of_mem {pairs : List (Nat × Nat)} (apart : pairs.Pairwise ApartPairs) {pq : Nat × Nat}
    (h : pq ∈ pairs) : swapsPerm pairs pq.1 = pq.2 ∧ swapsPerm pairs pq.2 = pq.1 := by
  induction pairs with
  | nil => cases h
  | cons rs pairs ih =>
    obtain ⟨head, rest⟩ := List.pairwise_cons.1 apart
    simp only [swapsPerm_cons, Equiv.Perm.mul_apply]
    rcases List.mem_cons.1 h with rfl | h
    · rw [swapsPerm_apply_of_not_mem fun x hx => (head x hx).1, swapsPerm_apply_of_not_mem fun x hx => (head x hx).2]
      exact ⟨Equiv.swap_apply_left _ _, Equiv.swap_apply_right _ _⟩
    · obtain ⟨⟨h11, h12⟩, h21, h22⟩ := head pq h
      rw [(ih rest h).1, (ih rest h).2]
      exact ⟨Equiv.swap_apply_of_ne_of_ne h12.symm h22.symm, Equiv.swap_apply_of_ne_of_ne h11.symm h21.symm⟩

/-- Swaps of pairs without common bits give the same in either order. -/
theorem swapsPerm_reverse_of_apart {pairs : List (Nat × Nat)} (apart : pairs.Pairwise ApartPairs) :
    swapsPerm pairs.reverse = swapsPerm pairs := by
  induction pairs with
  | nil => rfl
  | cons pq pairs ih =>
    obtain ⟨head, rest⟩ := List.pairwise_cons.1 apart
    have commute : Commute (swapsPerm [pq]) (swapsPerm pairs) :=
      (swapsPerm_disjoint fun x hx rs hrs => List.mem_singleton.1 hx ▸ head rs hrs).commute
    rw [List.reverse_cons, swapsPerm_append, ih rest, ← commute.eq, ← swapsPerm_append, List.singleton_append]

/-! ## The swap walk (41_bitperm.md R144) -/

/-- The pairs of the swap walk in the order of its direction. -/
def walkPairs (slide : Bool) (dir : Direction) (t : List Nat) : List (Nat × Nat) :=
  match dir with
  | .scramble => swapPairs slide t
  | .descramble => (swapPairs slide t).reverse

theorem swapWalk_eq_foldl (slide : Bool) (dir : Direction) (t : List Nat) (base : Nat) (m : Memory) :
    swapWalk slide dir t base m = (walkPairs slide dir t).foldl (swapBit base) m := by
  cases dir <;> rfl

theorem walkPairs_entries {slide : Bool} {dir : Direction} {t : List Nat} {pq : Nat × Nat}
    (h : pq ∈ walkPairs slide dir t) : pq.1 ∈ t ∧ pq.2 ∈ t := by
  cases dir with
  | scramble => exact mem_swapPairs slide t pq h
  | descramble => exact mem_swapPairs slide t pq (List.mem_reverse.1 h)

/-- The disjoint pairs of a table without repetitions have no common bit. -/
theorem disjointPairs_apart {t : List Nat} (nodup : t.Nodup) : (disjointPairs t).Pairwise ApartPairs := by
  induction t using disjointPairs.induct with
  | case1 p q rest ih =>
    obtain ⟨hp, hq, hrest⟩ : p ∉ q :: rest ∧ q ∉ rest ∧ rest.Nodup := by simpa [and_assoc] using nodup
    refine List.pairwise_cons.2 ⟨fun rs hrs => ?_, ih hrest⟩
    obtain ⟨h1, h2⟩ := mem_disjointPairs rest rs hrs
    have ne_of_not_mem {x y : Nat} (hx : x ∉ rest) (hy : y ∈ rest) : x ≠ y := fun same => hx (same ▸ hy)
    have hp' : p ∉ rest := fun h => hp (List.mem_cons_of_mem q h)
    exact ⟨⟨ne_of_not_mem hp' h1, ne_of_not_mem hp' h2⟩, ne_of_not_mem hq h1, ne_of_not_mem hq h2⟩
  | case2 t short =>
    rw [disjointPairs]
    · exact .nil
    · exact short

/-- The pairs without common bits are `(t[2k], t[2k+1])`. -/
theorem mem_disjointPairs_getD {t : List Nat} {k : Nat} (h : 2 * k + 1 < t.length) :
    (t.getD (2 * k) 0, t.getD (2 * k + 1) 0) ∈ disjointPairs t := by
  induction k generalizing t with
  | zero =>
    match t, h with
    | p :: q :: rest, _ => exact List.mem_cons_self
  | succ k ih =>
    match t, h with
    | p :: q :: rest, h =>
      simp only [List.length_cons] at h
      exact List.mem_cons_of_mem _ (ih (t := rest) (by omega))

/-- The sliding window's pairs are the neighbours in the table. -/
theorem swapPairs_slide (t : List Nat) :
    swapPairs true t = (List.range (t.length - 1)).map fun k => (t.getD k 0, t.getD (k + 1) 0) := by
  rw [swapPairs, if_pos rfl]
  refine List.ext_getElem (by simp) fun k hk _ => ?_
  have inside : k + 1 < t.length := by
    rw [List.length_zip, List.length_tail] at hk
    omega
  simp [List.getD_eq_getElem?_getD, inside, Nat.lt_of_succ_lt inside]

end Sys2Proof.Machine
end

section
/-! SUPPORT. The slices of BITPERM (41_bitperm.md R142, R146 to R148): what they depend on, their draws, their swaps as
one list of pairs, and the statements about the whole command. -/

namespace Sys2Proof.Machine

/-! ## The slices (41_bitperm.md R142) -/

theorem bitpermSlices_succ (r : Regs) (dir : Direction) (count off : Nat) (m : Memory) (acc : Word) :
    bitpermSlices r dir (count + 1) off m acc =
      let size := min r.chunk.toNat (r.len.toNat - off)
      let table := permutationTable r.ctrl r.lcgMul r.lcgInc (8 * size) acc
      bitpermSlices r dir count (off + size) (swapWalk r.ctrl.bpSlide dir table.1 (r.addr.toNat + off) m) table.2 := rfl

/-- One draw a bit (41_bitperm.md R148). -/
theorem bitpermSlices_acc (r : Regs) (dir : Direction) (count off : Nat) (m : Memory) (acc : Word) :
    (bitpermSlices r dir count off m acc).2
      = lcgAfter r.lcgMul r.lcgInc (8 * min (count * r.chunk.toNat) (r.len.toNat - off)) acc := by
  induction count generalizing off m acc with
  | zero => simp [bitpermSlices]
  | succ count ih =>
    rw [bitpermSlices_succ, ih, permutationTable_acc, ← lcgAfter_add, Nat.succ_mul count]
    congr 1
    omega

/-- Slices after slices. -/
theorem bitpermSlices_add (r : Regs) (dir : Direction) (first second off : Nat) (m : Memory) (acc : Word) :
    bitpermSlices r dir (first + second) off m acc =
      let result := bitpermSlices r dir first off m acc
      bitpermSlices r dir second (off + min (first * r.chunk.toNat) (r.len.toNat - off)) result.1 result.2 := by
  induction first generalizing off m acc with
  | zero => simp [bitpermSlices]
  | succ first ih =>
    rw [Nat.add_right_comm, bitpermSlices_succ, ih, bitpermSlices_succ]
    have next (size : Nat) (h : size = min r.chunk.toNat (r.len.toNat - off)) :
        off + size + min (first * r.chunk.toNat) (r.len.toNat - (off + size))
          = off + min ((first + 1) * r.chunk.toNat) (r.len.toNat - off) := by
      rw [Nat.succ_mul]
      omega
    dsimp only
    rw [next _ rfl]

/-- The operands of BITPERM but for its region (41_bitperm.md R146). -/
structure SameBitpermSetting (r r' : Regs) : Prop where
  ctrl : r'.ctrl = r.ctrl
  mul : r'.lcgMul = r.lcgMul
  inc : r'.lcgInc = r.lcgInc
  chunk : r'.chunk = r.chunk

/-- Slices at the same addresses are the same when as many bytes are left, or whole chunks for all of them. -/
theorem bitpermSlices_congr {r r' : Regs} (setting : SameBitpermSetting r r') (dir : Direction) {count off off' : Nat}
    (start : r'.addr.toNat + off' = r.addr.toNat + off)
    (left : r'.len.toNat - off' = r.len.toNat - off
      ∨ count * r.chunk.toNat ≤ r.len.toNat - off ∧ count * r.chunk.toNat ≤ r'.len.toNat - off')
    (m : Memory) (acc : Word) : bitpermSlices r' dir count off' m acc = bitpermSlices r dir count off m acc := by
  induction count generalizing off off' m acc with
  | zero => rfl
  | succ count ih =>
    rw [Nat.succ_mul] at left
    have size : min r.chunk.toNat (r'.len.toNat - off') = min r.chunk.toNat (r.len.toNat - off) := by omega
    rw [bitpermSlices_succ, bitpermSlices_succ, setting.ctrl, setting.mul, setting.inc, setting.chunk, size, start]
    exact ih (by omega) (by omega) _ _

/-! ## A region that fits (41_bitperm.md R141, R142, R146) -/

/-- The slices reach the end of the region. -/
theorem len_le_sliceCount_mul {r : Regs} (h : 0 < r.chunk.toNat) : r.len.toNat ≤ sliceCount r * r.chunk.toNat := by
  have rounded := Nat.div_add_mod' (r.len.toNat + r.chunk.toNat - 1) r.chunk.toNat
  have rest := Nat.mod_lt (r.len.toNat + r.chunk.toNat - 1) h
  rw [sliceCount]
  omega

/-- BITPERM past its checks: every slice, and then the completion. -/
theorem exec_bitperm_of_fits {s : State} (dir : Direction) {k : Nat} (chunk : s.regs.chunk.toNat = 2 ^ k)
    (bounded : 2 ^ k ≤ s.impl.bpMaxChunk)
    (fits : s.regs.len = 0 ∨ s.regs.addr.toNat + s.regs.len.toNat ≤ s.impl.bufSize) :
    exec (.bitperm dir) s =
      let result := bitpermSlices s.regs dir (sliceCount s.regs) 0 s.mem s.regs.lcgAcc
      completesWith s { s.regs with lcgAcc := result.2 } result.1 :=
  (if_pos (chunkLegal_of_two_pow chunk bounded)).trans (checkRegions_source s _ fits)

/-- Settles O12: the slices' draws add up, and each slice's swaps stay in it. -/
theorem bitpermCompletesAfterEightDrawsAByte : Obligations.BitpermCompletesAfterEightDrawsAByte := by
  intro s dir k chunk bounded fits
  refine ⟨_, bitpermSlices_outside s.regs dir (sliceCount s.regs) 0 s.mem s.regs.lcgAcc, ?_⟩
  have covered := len_le_sliceCount_mul (r := s.regs) (chunk ▸ Nat.two_pow_pos k)
  rw [exec_bitperm_of_fits dir chunk bounded fits]
  dsimp only
  rw [bitpermSlices_acc, Nat.sub_zero, Nat.min_eq_right covered]

/-! ## One slice (41_bitperm.md R144, R145) -/

theorem bitpermSlices_of_one_slice {r : Regs} (dir : Direction) (nonempty : 0 < r.len.toNat)
    (short : r.len.toNat ≤ r.chunk.toNat) (m : Memory) (acc : Word) :
    (bitpermSlices r dir (sliceCount r) 0 m acc).1 =
      let table := permutationTable r.ctrl r.lcgMul r.lcgInc (8 * r.len.toNat) acc
      swapWalk r.ctrl.bpSlide dir table.1 r.addr.toNat m := by
  have one : sliceCount r = 1 := Nat.div_eq_of_lt_le (by omega) (by omega)
  have size : min r.chunk.toNat (r.len.toNat - 0) = r.len.toNat := by omega
  rw [one, bitpermSlices_succ, size]
  rfl

/-- The bits of the slice after the walk: what its swaps leave, one after another. -/
theorem sliceBit_swapWalk {m : Memory} (h : m.wf) (slide : Bool) (dir : Direction) (t : List Nat) (base : Nat) :
    sliceBit (swapWalk slide dir t base m) base = (walkPairs slide dir t).foldl swapBits (sliceBit m base) := by
  rw [swapWalk_eq_foldl, sliceBit_foldl_swapBit h]

/-- The bits of the slice after a walk along disjoint pairs. -/
theorem sliceBit_swapWalk_disjoint {m : Memory} (h : m.wf) (dir : Direction) {t : List Nat} (nodup : t.Nodup)
    (base : Nat) {pq : Nat × Nat} (hpq : pq ∈ disjointPairs t) :
    sliceBit (swapWalk false dir t base m) base pq.1 = sliceBit m base pq.2
      ∧ sliceBit (swapWalk false dir t base m) base pq.2 = sliceBit m base pq.1 := by
  have same : swapsPerm (walkPairs false dir t) = swapsPerm (disjointPairs t) := by
    cases dir with
    | scramble => rfl
    | descramble => exact swapsPerm_reverse_of_apart (disjointPairs_apart nodup)
  obtain ⟨first, second⟩ := swapsPerm_apply_of_mem (disjointPairs_apart nodup) hpq
  rw [sliceBit_swapWalk h, foldl_swapBits, same, Function.comp_apply, Function.comp_apply, first, second]
  exact ⟨rfl, rfl⟩

/-- Settles O15: the walk over the only slice, as a permutation of its bits or as its swaps in turn. -/
theorem bitpermExchangesThePairsOfASlice : Obligations.BitpermExchangesThePairsOfASlice := by
  intro s dir e wf chunk bounded fits short n t bit neighbours
  have nonempty {b : Nat} (hb : b < n) : 0 < s.regs.len.toNat := by omega
  have walk {b : Nat} (hb : b < n) :=
    bitpermSlices_of_one_slice (r := s.regs) dir (nonempty hb) short s.mem s.regs.lcgAcc
  have length : t.length = n := permutationTable_length _ _ _ _ _
  refine ⟨_, exec_bitperm_of_fits dir chunk bounded fits, fun disjoint k hk => ?_, fun slide b hb => ?_⟩
  · have inside : 2 * k + 1 < n := by omega
    have bits := sliceBit_swapWalk_disjoint wf dir (permutationTable_nodup _ _ _ _ _ : t.Nodup) s.regs.addr.toNat
      (mem_disjointPairs_getD (inside.trans_eq length.symm))
    rw [← disjoint, ← walk inside] at bits
    exact bits
  · have pairs : swapPairs true t = neighbours := by rw [swapPairs_slide, length]
    have bits := congrFun (sliceBit_swapWalk wf true dir t s.regs.addr.toNat) b
    rw [← slide, ← walk hb, slide] at bits
    refine bits.trans ?_
    cases dir with
    | scramble => rw [walkPairs, pairs]; rfl
    | descramble => rw [walkPairs, pairs]; rfl

/-! ## Adjacent parts (41_bitperm.md R142) -/

/-- The slices of a region are those of a first part of whole chunks and then those of the rest. -/
theorem bitpermSlices_split {r r1 r2 : Regs} (setting1 : SameBitpermSetting r r1)
    (setting2 : SameBitpermSetting r r2) (dir : Direction) (pos : 0 < r.chunk.toNat)
    (whole : r1.len.toNat % r.chunk.toNat = 0)
    (sum : r1.len.toNat + r2.len.toNat = r.len.toNat) (start1 : r1.addr = r.addr)
    (start2 : r2.addr.toNat = r.addr.toNat + r1.len.toNat) (m : Memory) (acc : Word) :
    bitpermSlices r dir (sliceCount r) 0 m acc =
      let result := bitpermSlices r1 dir (sliceCount r1) 0 m acc
      bitpermSlices r2 dir (sliceCount r2) 0 result.1 result.2 := by
  obtain ⟨q, hq⟩ : ∃ q, r1.len.toNat = q * r.chunk.toNat := by
    obtain ⟨q, hq⟩ := Nat.dvd_of_mod_eq_zero whole
    exact ⟨q, hq.trans (Nat.mul_comm _ _)⟩
  have count1 : sliceCount r1 = q := by
    rw [sliceCount, setting1.chunk, hq]
    exact Nat.div_eq_of_lt_le (by omega) (by rw [Nat.succ_mul]; omega)
  have count : sliceCount r = q + sliceCount r2 := by
    rw [sliceCount, sliceCount, setting2.chunk, Nat.add_comm q, ← Nat.add_mul_div_right _ _ pos]
    congr 1
    omega
  have first : bitpermSlices r1 dir q 0 m acc = bitpermSlices r dir q 0 m acc :=
    bitpermSlices_congr setting1 dir (by rw [start1]) (.inr ⟨by omega, by omega⟩) m acc
  have second (m : Memory) (acc : Word) : bitpermSlices r2 dir (sliceCount r2) 0 m acc
      = bitpermSlices r dir (sliceCount r2) r1.len.toNat m acc :=
    bitpermSlices_congr setting2 dir (by omega) (.inl (by omega)) m acc
  have boundary : 0 + min (q * r.chunk.toNat) (r.len.toNat - 0) = r1.len.toNat := by omega
  rw [count, bitpermSlices_add, boundary, count1, first]
  exact (second _ _).symm

/-- Settles O16: the slices of the whole are those of the first part and then those of the second. -/
theorem bitpermSplitsAtAChunkBoundary : Obligations.BitpermSplitsAtAChunkBoundary := by
  intro s dir e n1 n2 chunk bounded whole sum fits inRange
  have start : (s.regs.addr + n1).toNat = s.regs.addr.toNat + n1.toNat := BitVec.toNat_add_of_lt inRange
  let r1 : Regs := { s.regs with len := n1 }
  let done1 := bitpermSlices r1 dir (sliceCount r1) 0 s.mem s.regs.lcgAcc
  let r2 : Regs :=
    { r1 with addr := s.regs.addr + n1, len := n2, lcgAcc := done1.2, status := completed s.regs.status }
  have split := bitpermSlices_split (r := s.regs) (r1 := r1) (r2 := r2) ⟨rfl, rfl, rfl, rfl⟩ ⟨rfl, rfl, rfl, rfl⟩
    dir (chunk ▸ Nat.two_pow_pos e) whole sum rfl start s.mem s.regs.lcgAcc
  have fits1 : s.regs.addr.toNat + n1.toNat ≤ s.impl.bufSize := by omega
  have fits2 : (s.regs.addr + n1).toNat + n2.toNat ≤ s.impl.bufSize := by omega
  exact ⟨_, _, _, exec_bitperm_of_fits dir chunk bounded (.inr fits),
    exec_bitperm_of_fits (s := { s with regs := r1 }) dir chunk bounded (.inr fits1),
    exec_bitperm_of_fits (s := { s with mem := done1.1, regs := r2, glaze := none }) dir chunk bounded (.inr fits2),
    congrArg Prod.fst split.symm, congrArg Prod.snd split.symm⟩

/-! ## Both directions (41_bitperm.md R144, R147) -/

/-- The pairs of a slice's swap walk, counted from address 0. -/
def slicePairs (slide : Bool) (dir : Direction) (t : List Nat) (base : Nat) : List (Nat × Nat) :=
  (walkPairs slide dir t).map (pairAt base)

/-- A walk permutes the bits of memory. -/
theorem bits_swapWalk {m : Memory} (h : m.wf) (slide : Bool) (dir : Direction) (t : List Nat) (base : Nat) :
    sliceBit (swapWalk slide dir t base m) 0 = sliceBit m 0 ∘ swapsPerm (slicePairs slide dir t base) := by
  have walk : swapWalk slide dir t base m = (slicePairs slide dir t base).foldl (swapBit 0) m := by
    rw [swapWalk_eq_foldl, slicePairs, List.foldl_map]
    congr 1
    funext m pq
    exact swapBit_eq_pairAt base m pq
  rw [walk, sliceBit_foldl_swapBit h, foldl_swapBits]

theorem slicePairs_descramble (slide : Bool) (t : List Nat) (base : Nat) :
    slicePairs slide .descramble t base = (slicePairs slide .scramble t base).reverse := List.map_reverse

theorem slicePairs_disjoint_apart {t : List Nat} (nodup : t.Nodup) (base : Nat) :
    (slicePairs false .scramble t base).Pairwise ApartPairs := by
  refine List.pairwise_map.2 ((disjointPairs_apart nodup).imp fun {pq rs} apart => ?_)
  simpa [ApartPairs, pairAt] using apart

/-- With disjoint pairs the walks of both directions leave the same memory. -/
theorem swapWalk_disjoint_directions {m : Memory} (h : m.wf) {t : List Nat} (nodup : t.Nodup) (base : Nat) :
    swapWalk false .scramble t base m = swapWalk false .descramble t base m := by
  refine Memory.eq_of_read_eq _ _ (swapWalk_wf _ _ _ _ _ h) (swapWalk_wf _ _ _ _ _ h) (sameMemory_of_bits ?_)
  rw [bits_swapWalk h, bits_swapWalk h, slicePairs_descramble,
    swapsPerm_reverse_of_apart (slicePairs_disjoint_apart nodup base)]

theorem bitpermSlices_disjoint_directions {r : Regs} (disjoint : r.ctrl.bpSlide = false) (count off : Nat) {m : Memory}
    (h : m.wf) (acc : Word) :
    bitpermSlices r .scramble count off m acc = bitpermSlices r .descramble count off m acc := by
  induction count generalizing off m acc with
  | zero => rfl
  | succ count ih =>
    rw [bitpermSlices_succ, bitpermSlices_succ, disjoint]
    dsimp only
    rw [swapWalk_disjoint_directions h (permutationTable_nodup _ _ _ _ _)]
    exact ih _ (swapWalk_wf _ _ _ _ _ h) _

/-- Settles O17: each slice's walk leaves the same memory in both directions. -/
theorem disjointPairsMakeDirectionsEqual : Obligations.DisjointPairsMakeDirectionsEqual := by
  intro s wf disjoint
  show execBitperm .scramble s = execBitperm .descramble s
  simp only [execBitperm, bitpermSlices_disjoint_directions disjoint _ _ wf]

/-- The pairs of all slices in the order of their swaps, counted from address 0. -/
def bitpermPairs (r : Regs) (dir : Direction) : (count : Nat) → (off : Nat) → (acc : Word) → List (Nat × Nat)
  | 0, _, _ => []
  | count + 1, off, acc =>
    let size := min r.chunk.toNat (r.len.toNat - off)
    let table := permutationTable r.ctrl r.lcgMul r.lcgInc (8 * size) acc
    slicePairs r.ctrl.bpSlide dir table.1 (r.addr.toNat + off) ++ bitpermPairs r dir count (off + size) table.2

theorem bits_bitpermSlices (r : Regs) (dir : Direction) (count off : Nat) {m : Memory} (h : m.wf) (acc : Word) :
    sliceBit (bitpermSlices r dir count off m acc).1 0
      = sliceBit m 0 ∘ swapsPerm (bitpermPairs r dir count off acc) := by
  induction count generalizing off m acc with
  | zero => rfl
  | succ count ih =>
    rw [bitpermSlices_succ, ih _ (swapWalk_wf _ _ _ _ _ h), bits_swapWalk h, bitpermPairs, swapsPerm_append,
      Equiv.Perm.coe_mul, Function.comp_assoc]

/-- The pairs of a walk are bits of its own slice. -/
theorem mem_slicePairs {slide : Bool} {dir : Direction} {t : List Nat} {base n : Nat} (entries : ∀ b ∈ t, b < 8 * n)
    {pq : Nat × Nat} (h : pq ∈ slicePairs slide dir t base) :
    (8 * base ≤ pq.1 ∧ 8 * base ≤ pq.2) ∧ pq.1 < 8 * (base + n) ∧ pq.2 < 8 * (base + n) := by
  obtain ⟨rs, hrs, rfl⟩ := List.mem_map.1 h
  obtain ⟨first, second⟩ := walkPairs_entries hrs
  have h1 := entries _ first
  have h2 := entries _ second
  simp only [pairAt]
  omega

theorem mem_bitpermPairs {r : Regs} {dir : Direction} {count off : Nat} {acc : Word} {pq : Nat × Nat}
    (h : pq ∈ bitpermPairs r dir count off acc) :
    8 * (r.addr.toNat + off) ≤ pq.1 ∧ 8 * (r.addr.toNat + off) ≤ pq.2 := by
  induction count generalizing off acc with
  | zero => cases h
  | succ count ih =>
    rcases List.mem_append.1 h with h | h
    · exact (mem_slicePairs (permutationTable_lt _ _ _ _ _) h).1
    · have := ih h
      omega

/-- The swaps of all slices in one direction and then in the other leave every bit: later slices share no bit with the
first, whose own swaps are reversed. -/
theorem swapsPerm_bitpermPairs_inverse (r : Regs) (count off : Nat) (acc : Word) :
    swapsPerm (bitpermPairs r .scramble count off acc) * swapsPerm (bitpermPairs r .descramble count off acc) = 1 := by
  induction count generalizing off acc with
  | zero => rfl
  | succ count ih =>
    rw [bitpermPairs, bitpermPairs, slicePairs_descramble]
    refine swapsPerm_append_inverse (fun pq hpq rs hrs => ?_) (ih _ _)
    obtain ⟨-, top1, top2⟩ := mem_slicePairs (permutationTable_lt _ _ _ _ _) hpq
    obtain ⟨bottom1, bottom2⟩ := mem_bitpermPairs hrs
    rw [ApartPairs]
    omega

/-- Settles O18: the swaps of both commands together leave every bit where it was. -/
theorem bitpermDescrambleUndoesScramble : Obligations.BitpermDescrambleUndoesScramble := by
  intro s k wf chunk bounded fits
  let scrambled := bitpermSlices s.regs .scramble (sliceCount s.regs) 0 s.mem s.regs.lcgAcc
  let again : Regs := { s.regs with status := completed s.regs.status }
  have slices := bitpermSlices_congr (r := s.regs) (r' := again) ⟨rfl, rfl, rfl, rfl⟩ .descramble
    (count := sliceCount s.regs) (off := 0) rfl (.inl rfl) scrambled.1 s.regs.lcgAcc
  refine ⟨_, _, exec_bitperm_of_fits .scramble chunk bounded fits,
    exec_bitperm_of_fits (s := { s with mem := scrambled.1, regs := again, glaze := none })
      .descramble chunk bounded fits,
    sameMemory_of_bits ?_⟩
  calc sliceBit (bitpermSlices again .descramble (sliceCount s.regs) 0 scrambled.1 s.regs.lcgAcc).1 0
      = sliceBit scrambled.1 0 ∘ swapsPerm (bitpermPairs s.regs .descramble (sliceCount s.regs) 0 s.regs.lcgAcc) := by
        rw [slices, bits_bitpermSlices _ _ _ _ (bitpermSlices_wf _ _ _ _ _ _ wf)]
    _ = sliceBit s.mem 0 := by
        rw [bits_bitpermSlices _ _ _ _ wf, Function.comp_assoc, ← Equiv.Perm.coe_mul, swapsPerm_bitpermPairs_inverse]
        rfl

end Sys2Proof.Machine
end

section
/-! SUPPORT. FENCE (42_fence.md): 16-bit words in memory, the draws and the transform of one word as its rules write them,
and what the command does to every word of its region. -/

namespace Sys2Proof.Machine

/-! ## Words stored and loaded (20_memory.md R74) -/

theorem highByte_append_lowByte (v : Half) : v.extractLsb' 8 8 ++ v.extractLsb' 0 8 = v := by
  apply BitVec.eq_of_toNat_eq
  rw [toNat_append_eq_add, highByte_toNat, lowByte_toNat]
  exact Nat.div_add_mod _ _

theorem load16_store16_same (e : Bool) {m : Memory} (a : Nat) (v : Half) (h : m.wf) :
    load16 e (store16 e m a v) a = v := by
  have first (x y : Byte) := m.read_write_pair_first a x y h
  have second (x y : Byte) := m.read_write_pair_second a x y h
  cases e with
  | true => exact (congrArg₂ _ (first _ _) (second _ _)).trans (highByte_append_lowByte v)
  | false => exact (congrArg₂ _ (second _ _) (first _ _)).trans (highByte_append_lowByte v)

/-- A word is unchanged by what changes no byte of it. -/
theorem load16_of_sameOutside (e : Bool) {m m' : Memory} {a n b : Nat} (same : sameOutside m m' a n)
    (apart : b + 2 ≤ a ∨ a + n ≤ b) : load16 e m' b = load16 e m b := by
  rw [load16, load16, same b (by omega), same (b + 1) (by omega)]

theorem byte_append_inj {x y x' y' : Byte} (h : x ++ y = x' ++ y') : x = x' ∧ y = y' := by
  have high := congrArg (BitVec.extractLsb' 8 8) h
  have low := congrArg (BitVec.extractLsb' 0 8) h
  rw [BitVec.extractLsb'_append_eq_left, BitVec.extractLsb'_append_eq_left] at high
  rw [BitVec.extractLsb'_append_eq_right, BitVec.extractLsb'_append_eq_right] at low
  exact ⟨high, low⟩

/-- Equal words are made of equal bytes. -/
theorem read_eq_of_load16_eq {e : Bool} {m m' : Memory} {a : Nat} (h : load16 e m' a = load16 e m a) :
    m'.read a = m.read a ∧ m'.read (a + 1) = m.read (a + 1) := by
  cases e with
  | true => exact byte_append_inj h
  | false => exact (byte_append_inj h).symm

/-- Memories that differ at most in a region of whole words read alike when these words are equal. -/
theorem sameMemory_of_words (e : Bool) {m m' : Memory} {a n : Nat} (outside : sameOutside m m' a (2 * n))
    (words : ∀ k < n, load16 e m' (a + 2 * k) = load16 e m (a + 2 * k)) : sameMemory m m' := by
  intro b
  by_cases inside : a ≤ b ∧ b < a + 2 * n
  · obtain ⟨first, second⟩ := read_eq_of_load16_eq (words ((b - a) / 2) (by omega))
    obtain hb | hb : b = a + 2 * ((b - a) / 2) ∨ b = a + 2 * ((b - a) / 2) + 1 := by omega
    · rwa [← hb] at first
    · rwa [← hb] at second
  · exact outside b inside

/-! ## One word's draws and transform (42_fence.md R162, R163) -/

/-- The first draw of a word that is drawn from `acc` on. -/
def fenceFirstDraw (r : Regs) (acc : Word) : Half := fenceDraw r (lcgStep r.lcgMul r.lcgInc acc)

/-- A word drawn from `acc` on toggles (42_fence.md R163). -/
def fenceToggles (r : Regs) (acc : Word) : Bool :=
  r.fence.toNat ≤ (fenceFirstDraw r acc).toNat % (2 * r.fence.toNat)

/-- With `XF`, a word drawn from `acc` on makes a second draw: when it toggles, or for `FX_YALL` (42_fence.md R162). -/
def fenceDrawsTwice (r : Regs) (acc : Word) : Bool := r.ctrl.fxYall || fenceToggles r acc

/-- The accumulator after the draws of a word. -/
def fenceNextAcc (r : Regs) (xf : Bool) (acc : Word) : Word := (fenceDraws r xf acc).2.2.2

/-- The word that replaces `w` when it is drawn from `acc` on. -/
def fenceTransform (r : Regs) (dir : Direction) (xf : Bool) (acc : Word) (w : Half) : Half :=
  let draws := fenceDraws r xf acc
  fenceWord dir draws.1 draws.2.1 draws.2.2.1 w

/-- The model's draw and toggle are the rule's: zero extension leaves the draw's value. -/
theorem fenceToggle_draw15 (r : Regs) (acc : Word) :
    fenceToggle r.fence (draw15 r.ctrl.n15sel (lcgStep r.lcgMul r.lcgInc acc)) = fenceToggles r acc := by
  rw [fenceToggle, fenceToggles, fenceFirstDraw, fenceDraw_eq, BitVec.toNat_setWidth_of_le (by decide)]

/-- What the model draws for one word, in the rule's terms. -/
theorem fenceDraws_eq (r : Regs) (xf : Bool) (acc : Word) :
    fenceDraws r xf acc =
      if xf && fenceDrawsTwice r acc then
        (fenceFirstDraw r acc, fenceToggles r acc, fenceDraw r (lcgAfter r.lcgMul r.lcgInc 2 acc),
          lcgAfter r.lcgMul r.lcgInc 2 acc)
      else
        (fenceFirstDraw r acc, fenceToggles r acc, if xf then 0 else fenceFirstDraw r acc,
          lcgAfter r.lcgMul r.lcgInc 1 acc) := by
  simp only [fenceDraws, fenceToggle_draw15, ← fenceDraw_eq]
  cases xf <;> rfl

/-- A word makes one step, and a second with the second draw (42_fence.md R162, R166). -/
theorem fenceNextAcc_eq (r : Regs) (xf : Bool) (acc : Word) :
    fenceNextAcc r xf acc = lcgAfter r.lcgMul r.lcgInc (1 + (xf && fenceDrawsTwice r acc).toNat) acc := by
  rw [fenceNextAcc, fenceDraws_eq]
  cases xf && fenceDrawsTwice r acc <;> rfl

/-- A word that does not toggle is not masked. -/
theorem fenceWord_untoggled (dir : Direction) (x mask mask' w : Half) :
    fenceWord dir x false mask w = fenceWord dir x false mask' w := by
  cases dir <;> rfl

/-- The mask is the second draw with `XF` and the first without; where no second draw is made the word does not toggle. -/
theorem fenceTransform_eq (r : Regs) (dir : Direction) (xf : Bool) (acc : Word) (w : Half) :
    fenceTransform r dir xf acc w =
      fenceWord dir (fenceFirstDraw r acc) (fenceToggles r acc)
        (if xf then fenceDraw r (lcgAfter r.lcgMul r.lcgInc 2 acc) else fenceFirstDraw r acc) w := by
  rw [fenceTransform, fenceDraws_eq]
  cases xf with
  | false => rfl
  | true =>
    cases twice : fenceDrawsTwice r acc with
    | true => rfl
    | false =>
      obtain ⟨-, untoggled⟩ := Bool.or_eq_false_iff.1 twice
      rw [untoggled]
      exact fenceWord_untoggled _ _ _ _ _

/-- XOR and subtraction undo addition and XOR with the same draws (42_fence.md R165). -/
theorem fenceWord_descramble_scramble (x : Half) (toggle : Bool) (mask w : Half) :
    fenceWord .descramble x toggle mask (fenceWord .scramble x toggle mask w) = w := by
  cases toggle with
  | false => exact BitVec.add_sub_cancel w x
  | true =>
    show ((w + x) ^^^ mask ^^^ mask) - x = w
    rw [BitVec.xor_assoc, BitVec.xor_self, BitVec.xor_zero, BitVec.add_sub_cancel]

theorem fenceTransform_descramble_scramble (r : Regs) (xf : Bool) (acc : Word) (w : Half) :
    fenceTransform r .descramble xf acc (fenceTransform r .scramble xf acc w) = w :=
  fenceWord_descramble_scramble _ _ _ w

/-! ## The words of a region (42_fence.md R162, R164, R166) -/

/-- The accumulator before word `k` of a region whose first draw is made from `acc`. -/
def fenceAccBefore (r : Regs) (xf : Bool) (acc : Word) (k : Nat) : Word := (fenceNextAcc r xf)^[k] acc

theorem fenceAccBefore_succ (r : Regs) (xf : Bool) (acc : Word) (k : Nat) :
    fenceAccBefore r xf acc (k + 1) = fenceNextAcc r xf (fenceAccBefore r xf acc k) :=
  Function.iterate_succ_apply' _ _ _

/-- Without `XF` every word makes one step. -/
theorem fenceAccBefore_false (r : Regs) (acc : Word) (k : Nat) :
    fenceAccBefore r false acc k = lcgAfter r.lcgMul r.lcgInc k acc := by
  induction k with
  | zero => rfl
  | succ k ih => rw [fenceAccBefore_succ, ih, lcgAfter_last]; rfl

/-- The rule's recursion steps as a word's draws do. -/
theorem fenceAccAt_succ (r : Regs) (k : Nat) : fenceAccAt r (k + 1) = fenceNextAcc r true (fenceAccAt r k) := by
  have twice_iff : fenceDrawsTwice r (fenceAccAt r k) = true ↔ r.ctrl.fxYall = true
      ∨ r.fence.toNat ≤ (fenceFirstDraw r (fenceAccAt r k)).toNat % (2 * r.fence.toNat) := by
    rw [fenceDrawsTwice, fenceToggles, Bool.or_eq_true, decide_eq_true_eq]
  rw [fenceNextAcc_eq, Bool.true_and]
  by_cases twice : fenceDrawsTwice r (fenceAccAt r k) = true
  · rw [twice]
    exact if_pos (twice_iff.1 twice)
  · rw [Bool.eq_false_iff.2 twice]
    exact if_neg (mt twice_iff.2 twice)

theorem fenceAccBefore_true (r : Regs) (k : Nat) : fenceAccBefore r true r.lcgAcc k = fenceAccAt r k := by
  induction k with
  | zero => rfl
  | succ k ih => rw [fenceAccBefore_succ, ih, fenceAccAt_succ]

theorem fenceWords_succ (r : Regs) (dir : Direction) (xf : Bool) (count a : Nat) (m : Memory) (acc : Word) :
    fenceWords r dir xf (count + 1) a m acc =
      fenceWords r dir xf count (a + 2)
        (store16 r.ctrl.endian m a (fenceTransform r dir xf acc (load16 r.ctrl.endian m a)))
        (fenceNextAcc r xf acc) := rfl

theorem fenceWords_acc (r : Regs) (dir : Direction) (xf : Bool) (count a : Nat) (m : Memory) (acc : Word) :
    (fenceWords r dir xf count a m acc).2 = fenceAccBefore r xf acc count := by
  induction count generalizing a m acc with
  | zero => rfl
  | succ count ih => exact ih _ _ _

/-- Each word is transformed with its own draws: neither an earlier nor a later word's store reaches it. -/
theorem load16_fenceWords (r : Regs) (dir : Direction) (xf : Bool) {count k : Nat} (a : Nat) {m : Memory} (acc : Word)
    (wf : m.wf) (hk : k < count) :
    load16 r.ctrl.endian (fenceWords r dir xf count a m acc).1 (a + 2 * k) =
      fenceTransform r dir xf (fenceAccBefore r xf acc k) (load16 r.ctrl.endian m (a + 2 * k)) := by
  induction count generalizing a m acc k with
  | zero => omega
  | succ count ih =>
    rw [fenceWords_succ]
    set w := fenceTransform r dir xf acc (load16 r.ctrl.endian m a)
    cases k with
    | zero =>
      have later := fenceWords_outside r dir xf count (a + 2) (store16 r.ctrl.endian m a w) (fenceNextAcc r xf acc)
      exact (load16_of_sameOutside _ later (.inl le_rfl)).trans (load16_store16_same _ a w wf)
    | succ k =>
      have earlier := store16_outside r.ctrl.endian m a w
      rw [show a + 2 * (k + 1) = a + 2 + 2 * k by omega, ih _ _ (store16_wf _ _ _ _ wf) (by omega),
        load16_of_sameOutside _ earlier (.inr (by omega))]
      rfl

/-! ## The command (42_fence.md R161, R164) -/

section Command
variable {s : State} (dir : Direction) (xf : Bool)

/-- FENCE past its own checks: the region check, and then every word. -/
theorem exec_fence_of_fits (fence : s.regs.fence ≠ 0) (even : s.regs.len.toNat % 2 = 0)
    (fits : s.regs.len = 0 ∨ s.regs.addr.toNat + s.regs.len.toNat ≤ s.impl.bufSize) :
    exec (.fence dir xf) s =
      let result := fenceWords s.regs dir xf (s.regs.len.toNat / 2) s.regs.addr.toNat s.mem s.regs.lcgAcc
      completesWith s { s.regs with lcgAcc := result.2 } result.1 :=
  (if_neg fence).trans ((if_neg (by omega)).trans (checkRegions_source s _ fits))

/-- FENCE over a region that fits, said once: the accumulator it leaves, the bytes it may change, and each word. -/
theorem exec_fence_completes (fence : s.regs.fence ≠ 0) (even : s.regs.len.toNat % 2 = 0)
    (fits : s.regs.len = 0 ∨ s.regs.addr.toNat + s.regs.len.toNat ≤ s.impl.bufSize) :
    ∃ m, exec (.fence dir xf) s =
          completesWith s
            { s.regs with lcgAcc := fenceAccBefore s.regs xf s.regs.lcgAcc (s.regs.len.toNat / 2) } m
      ∧ sameOutside s.mem m s.regs.addr.toNat s.regs.len.toNat
      ∧ (s.mem.wf → m.wf ∧ ∀ k < s.regs.len.toNat / 2,
          load16 s.regs.ctrl.endian m (s.regs.addr.toNat + 2 * k) =
            fenceTransform s.regs dir xf (fenceAccBefore s.regs xf s.regs.lcgAcc k)
              (load16 s.regs.ctrl.endian s.mem (s.regs.addr.toNat + 2 * k))) := by
  refine ⟨(fenceWords s.regs dir xf (s.regs.len.toNat / 2) s.regs.addr.toNat s.mem s.regs.lcgAcc).1, ?_,
    fun b hb => fenceWords_outside _ _ _ _ _ _ _ b (by omega),
    fun wf => ⟨fenceWords_wf _ _ _ _ _ _ _ wf, fun k hk => load16_fenceWords _ _ _ _ _ wf hk⟩⟩
  rw [exec_fence_of_fits dir xf fence even fits]
  dsimp only
  rw [fenceWords_acc]

end Command

/-- Settles O19: the checks in their order, and past them the end of `exec_fence_completes`. -/
theorem fenceChecksInOrder : Obligations.FenceChecksInOrder := by
  refine fun s dir xf => ⟨fun zero => if_pos zero, fun fence odd => ?_, fun fence even nonempty tooLong => ?_,
    fun fence even fits => ?_⟩
  · exact (if_neg fence).trans (if_pos odd)
  · obtain ⟨-, fenceFails, -⟩ := regionsThatDoNotFitRaiseErrMem s nonempty tooLong
    exact fenceFails dir xf fence even
  · obtain ⟨m, completes, -⟩ := exec_fence_completes dir xf fence even fits
    exact ⟨_, m, completes⟩

/-- Settles O20: the only word of the region, and the accumulator after its draws. -/
theorem fenceTransformsAWord : Obligations.FenceTransformsAWord := by
  intro s dir xf wf fence two fits F next15 acc1 acc2 x toggle drawsY mask w w'
  have len : s.regs.len.toNat = 2 := congrArg BitVec.toNat two
  obtain ⟨m, completes, outside, transformed⟩ := exec_fence_completes dir xf fence (by omega) (.inr (by omega))
  obtain ⟨-, words⟩ := transformed wf
  rw [len] at completes outside words
  refine ⟨m, completes.trans ?_, (words 0 Nat.one_pos).trans ?_, outside⟩
  · have acc : fenceAccBefore s.regs xf s.regs.lcgAcc (2 / 2) = if drawsY then acc2 else acc1 := by
      refine (fenceNextAcc_eq s.regs xf s.regs.lcgAcc).trans ?_
      show lcgAfter _ _ (1 + drawsY.toNat) _ = _
      cases drawsY <;> rfl
    rw [acc]
  · rw [fenceTransform_eq]
    cases dir <;> rfl

/-- Settles O21: without `XF` the accumulator before word `k` has made `k` steps. -/
theorem fenceTransformsEveryWordInOrder : Obligations.FenceTransformsEveryWordInOrder := by
  intro s dir wf fence even fits n
  obtain ⟨m, completes, outside, transformed⟩ := exec_fence_completes dir false fence even fits
  obtain ⟨-, words⟩ := transformed wf
  rw [fenceAccBefore_false] at completes
  refine ⟨m, completes, outside, fun k hk => (words k hk).trans ?_⟩
  have draw : (draw15 s.regs.ctrl.n15sel (lcgAfter s.regs.lcgMul s.regs.lcgInc (k + 1) s.regs.lcgAcc)).setWidth 16
      = fenceFirstDraw s.regs (lcgAfter s.regs.lcgMul s.regs.lcgInc k s.regs.lcgAcc) := by
    rw [fenceFirstDraw, ← lcgAfter_last, fenceDraw_eq]
  rw [fenceAccBefore_false, fenceTransform_eq, draw]
  cases dir <;> rfl

/-- The second draws that the first `n` words make with `XF` (42_fence.md R166). -/
def fenceSecondDraws (r : Regs) (n : Nat) : Nat := (List.range n).countP fun k => fenceDrawsTwice r (fenceAccAt r k)

/-- Every word makes a second draw with `FX_YALL`, and the toggled ones without. -/
theorem fenceSecondDraws_eq (r : Regs) (n : Nat) :
    fenceSecondDraws r n =
      if r.ctrl.fxYall then n else ((List.range n).filter fun k => fenceToggles r (fenceAccAt r k)).length := by
  cases hy : r.ctrl.fxYall with
  | true => simp [fenceSecondDraws, fenceDrawsTwice, hy]
  | false => simp [fenceSecondDraws, fenceDrawsTwice, hy, List.countP_eq_length_filter]

theorem fenceSecondDraws_succ (r : Regs) (n : Nat) :
    fenceSecondDraws r (n + 1) = fenceSecondDraws r n + (fenceDrawsTwice r (fenceAccAt r n)).toNat := by
  rw [fenceSecondDraws, List.range_succ, List.countP_append, List.countP_singleton, fenceSecondDraws]
  cases fenceDrawsTwice r (fenceAccAt r n) <;> rfl

/-- With `XF` the accumulator has made a step for every draw. -/
theorem fenceAccAt_eq_lcgAfter (r : Regs) (n : Nat) :
    fenceAccAt r n = lcgAfter r.lcgMul r.lcgInc (n + fenceSecondDraws r n) r.lcgAcc := by
  induction n with
  | zero => rfl
  | succ n ih =>
    have steps (second : Nat) : n + 1 + (fenceSecondDraws r n + second) = n + fenceSecondDraws r n + (1 + second) := by
      omega
    rw [fenceAccAt_succ, fenceNextAcc_eq, fenceSecondDraws_succ, Bool.true_and, steps,
      lcgAfter_add _ _ (n + fenceSecondDraws r n), ← ih]

/-- Settles O22: with `XF` the accumulator before word `k` is the rule's. -/
theorem fenceWithExtraFudgeCompletes : Obligations.FenceWithExtraFudgeCompletes := by
  intro s dir fence even fits n acc1 x y toggles secondDraws
  obtain ⟨m, completes, outside, transformed⟩ := exec_fence_completes dir true fence even fits
  rw [fenceAccBefore_true] at completes
  have steps := fenceAccAt_eq_lcgAfter s.regs n
  rw [fenceSecondDraws_eq] at steps
  refine ⟨m, completes, steps, outside, fun wf k hk => ?_⟩
  obtain ⟨-, words⟩ := transformed wf
  refine (words k hk).trans ?_
  rw [fenceAccBefore_true, fenceTransform_eq]
  cases dir <;> rfl

/-- Settles O23: the same draws in the same order, and each word's transform undone. -/
theorem fenceDescrambleUndoesScramble : Obligations.FenceDescrambleUndoesScramble := by
  intro s xf wf fence even fits
  obtain ⟨m, scrambles, outside, scrambled⟩ := exec_fence_completes .scramble xf fence even fits
  obtain ⟨wf', words⟩ := scrambled wf
  let again : State :=
    { s with mem := m, regs := { s.regs with status := completed s.regs.status }, glaze := none }
  obtain ⟨m', descrambles, outside', descrambled⟩ := exec_fence_completes (s := again) .descramble xf fence even fits
  obtain ⟨-, words'⟩ := descrambled wf'
  have restored : ∀ k < s.regs.len.toNat / 2, load16 s.regs.ctrl.endian m' (s.regs.addr.toNat + 2 * k)
      = load16 s.regs.ctrl.endian s.mem (s.regs.addr.toNat + 2 * k) := fun k hk => by
    refine (words' k hk).trans ((congrArg _ (words k hk)).trans ?_)
    exact fenceTransform_descramble_scramble s.regs xf _ _
  refine ⟨_, _, scrambles, descrambles, sameMemory_of_words s.regs.ctrl.endian (fun b hb => ?_) restored⟩
  exact (outside' b (by dsimp only [again]; omega)).trans (outside b (by omega))

end Sys2Proof.Machine
end

section
/-! SUPPORT. The pass of ROTXOR (43_rotxor.md): where in which segment it stands after each byte, the key of each byte,
and the statements about the whole command. -/

namespace Sys2Proof.Machine

/-! ## The segments (43_rotxor.md R183) -/

/-- The register that keys segment `j`. -/
def segmentRegister (j : Nat) : RotIndex :=
  match j % 3 with
  | 0 => .i0
  | 1 => .i1
  | _ => .i2

theorem rotIndexBits_segmentRegister (j : Nat) : rotIndexBits (segmentRegister j) = BitVec.ofNat 2 (j % 3) := by
  obtain h | h | h : j % 3 = 0 ∨ j % 3 = 1 ∨ j % 3 = 2 := by omega
  all_goals simp [segmentRegister, rotIndexBits, h]

/-- The rule's segment length in the terms of the model's switch test. -/
theorem segmentLength_eq (r : Regs) (j : Nat) :
    segmentLength r j = max 1 (rotLength r (segmentRegister j) + j / 3) := by
  obtain h | h | h : j % 3 = 0 ∨ j % 3 = 1 ∨ j % 3 = 2 := by omega
  all_goals simp [segmentLength, segmentRegister, rotLength, h]

/-- The segments cover every byte: each is some number of bytes into one of them. -/
theorem exists_segment (r : Regs) (k : Nat) : ∃ j o, o < segmentLength r j ∧ segmentStart r j + o = k := by
  induction k with
  | zero => exact ⟨0, 0, segmentLength_pos r 0, rfl⟩
  | succ k ih =>
    obtain ⟨j, o, inside, rfl⟩ := ih
    by_cases last : o + 1 < segmentLength r j
    · exact ⟨j, o + 1, last, rfl⟩
    · exact ⟨j + 1, 0, segmentLength_pos r (j + 1), by rw [segmentStart_succ]; omega⟩

/-- At the start every register holds its seed. -/
theorem rotAccAt_zero (r : Regs) (i : Nat) : rotAccAt r i 0 0 = [r.rotSeed0, r.rotSeed1, r.rotSeed2].getD i 0 := rfl

/-- Before its first segment ends, a register has stepped for the bytes of that segment only. -/
theorem rotAccAt_of_le (r : Regs) {i j : Nat} (n : Nat) (hj : j ≤ i) (hi : i < 3) :
    rotAccAt r i j n = lcgAfter r.lcgMul r.lcgInc n ([r.rotSeed0, r.rotSeed1, r.rotSeed2].getD i 0) := by
  have none_before : (List.range j).filter (fun k => k % 3 = i) = [] := by
    simp only [List.filter_eq_nil_iff, List.mem_range, decide_eq_true_eq]
    omega
  simp [rotAccAt, none_before]

/-- After the first cycle, a register has stepped for the bytes of its first segment. -/
theorem rotAccAt_first_cycle (r : Regs) {i : Nat} (hi : i < 3) :
    rotAccAt r i 3 0 = rotAccAt r i i (segmentLength r i) := by
  have own : (List.range 3).filter (fun k => k % 3 = i) = [i] := by
    revert i
    decide
  rw [rotAccAt_of_le r _ le_rfl hi]
  simp [rotAccAt, own]

/-! ## The pass inside a segment (43_rotxor.md R181 to R183) -/

/-- The pass `o` bytes into segment `j`. -/
def segmentPass (r : Regs) (j o : Nat) : RotPass where
  w0 := rotAccAt r 0 j 0
  w1 := rotAccAt r 1 j 0
  w2 := rotAccAt r 2 j 0
  active := segmentRegister j
  cnt := o
  fudge := j / 3
  acc := rotAccAt r (j % 3) j o

/-- The switch at the end of a segment: the register that keyed it is saved, and the next one begins. -/
theorem rotSwitch_segmentPass (r : Regs) (j : Nat) :
    rotSwitch (segmentPass r j (segmentLength r j)) = segmentPass r (j + 1) 0 := by
  have saved := rotAccAt_active r j 0
  obtain h | h | h : j % 3 = 0 ∨ j % 3 = 1 ∨ j % 3 = 2 := by omega
  all_goals
    rw [h] at saved
    simp [rotSwitch, segmentPass, segmentRegister, rotAccAt_other, saved, h, Nat.add_mod, Nat.succ_div,
      Nat.dvd_iff_mod_eq_zero]

theorem rotByte_segmentPass (r : Regs) (j o : Nat) :
    rotByte r (segmentPass r j o) =
      (rotKey r.ctrl.rotHi (draw16 (rotAccAt r (j % 3) j (o + 1))), rotSwitchTest r (segmentPass r j (o + 1))) := by
  simp only [rotByte, segmentPass, rotAccAt_step]

/-- Inside a segment the switch test keeps the register. -/
theorem rotSwitchTest_inside (r : Regs) {j o : Nat} (positive : 0 < o) (inside : o < segmentLength r j) :
    rotSwitchTest r (segmentPass r j o) = segmentPass r j o := by
  rw [segmentLength_eq] at inside
  exact if_neg (show ¬rotLength r (segmentRegister j) + j / 3 ≤ o by omega)

/-- At the end of a segment the switch test goes on to the next. -/
theorem rotSwitchTest_end (r : Regs) (j : Nat) :
    rotSwitchTest r (segmentPass r j (segmentLength r j)) = segmentPass r (j + 1) 0 := by
  have reached : rotLength r (segmentRegister j) + j / 3 ≤ segmentLength r j := by rw [segmentLength_eq]; omega
  exact (if_pos reached).trans (rotSwitch_segmentPass r j)

/-! ## The bytes of a region (43_rotxor.md R182) -/

/-- The pass after `k` bytes. -/
def rotPassAfter (r : Regs) (p : RotPass) (k : Nat) : RotPass := (fun p => (rotByte r p).2)^[k] p

/-- The key of byte `k`. -/
def rotKeyAt (r : Regs) (p : RotPass) (k : Nat) : Byte := (rotByte r (rotPassAfter r p k)).1

theorem rotPassAfter_succ (r : Regs) (p : RotPass) (k : Nat) :
    rotPassAfter r p (k + 1) = (rotByte r (rotPassAfter r p k)).2 :=
  Function.iterate_succ_apply' _ _ _

theorem rotBytes_succ (r : Regs) (count a : Nat) (m : Memory) (p : RotPass) :
    rotBytes r (count + 1) a m p =
      rotBytes r count (a + 1) (m.write a (m.read a ^^^ (rotByte r p).1)) (rotByte r p).2 := rfl

theorem rotBytes_pass (r : Regs) (count a : Nat) (m : Memory) (p : RotPass) :
    (rotBytes r count a m p).2 = rotPassAfter r p count := by
  induction count generalizing a m p with
  | zero => rfl
  | succ count ih => exact ih _ _ _

/-- Each byte is XORed with its own key: neither an earlier nor a later byte's store reaches it. -/
theorem read_rotBytes (r : Regs) {count k : Nat} (a : Nat) {m : Memory} (p : RotPass) (wf : m.wf) (hk : k < count) :
    (rotBytes r count a m p).1.read (a + k) = m.read (a + k) ^^^ rotKeyAt r p k := by
  induction count generalizing a m p k with
  | zero => omega
  | succ count ih =>
    rw [rotBytes_succ]
    cases k with
    | zero => exact (rotBytes_outside r count (a + 1) _ _ a (by omega)).trans (Memory.read_write_same m a _ wf)
    | succ k =>
      rw [show a + (k + 1) = a + 1 + k by omega, ih _ _ (Memory.write_wf _ _ _ wf) (by omega),
        Memory.read_write_other _ _ (by omega)]
      rfl

/-- A pass that begins segment `j` stands `o` bytes later still in it. -/
theorem rotPassAfter_segmentPass (r : Regs) {j o : Nat} (inside : o < segmentLength r j) :
    rotPassAfter r (segmentPass r j 0) o = segmentPass r j o := by
  induction o with
  | zero => rfl
  | succ o ih =>
    rw [rotPassAfter_succ, ih (by omega), rotByte_segmentPass]
    exact rotSwitchTest_inside r o.succ_pos inside

/-- A pass that begins segment `j` begins the next once it is through with it. -/
theorem rotPassAfter_segmentLength (r : Regs) (j : Nat) :
    rotPassAfter r (segmentPass r j 0) (segmentLength r j) = segmentPass r (j + 1) 0 := by
  obtain ⟨o, ho⟩ := Nat.exists_eq_add_one.2 (segmentLength_pos r j)
  rw [ho, rotPassAfter_succ, rotPassAfter_segmentPass r (by omega), rotByte_segmentPass, ← ho]
  exact rotSwitchTest_end r j

theorem rotPassAfter_add (r : Regs) (p : RotPass) (k n : Nat) :
    rotPassAfter r p (k + n) = rotPassAfter r (rotPassAfter r p k) n := by
  rw [Nat.add_comm]
  exact Function.iterate_add_apply _ n k p

theorem rotPassAfter_segmentStart (r : Regs) (j : Nat) :
    rotPassAfter r (rotStart r) (segmentStart r j) = segmentPass r j 0 := by
  induction j with
  | zero => rfl
  | succ j ih => rw [segmentStart_succ, rotPassAfter_add, ih, rotPassAfter_segmentLength]

/-- The pass `o` bytes into segment `j` of a region. -/
theorem rotPassAfter_rotStart (r : Regs) {j o : Nat} (inside : o < segmentLength r j) :
    rotPassAfter r (rotStart r) (segmentStart r j + o) = segmentPass r j o := by
  rw [rotPassAfter_add, rotPassAfter_segmentStart, rotPassAfter_segmentPass r inside]

/-- The key of a byte, from the accumulator after its step (43_rotxor.md R182). -/
def accKey (r : Regs) (acc : Word) : Byte := if r.ctrl.rotHi then acc.extractLsb' 24 8 else acc.extractLsb' 16 8

/-- The draw's byte is a byte of the accumulator. -/
theorem rotKey_draw16 (r : Regs) (acc : Word) : rotKey r.ctrl.rotHi (draw16 acc) = accKey r acc := by
  unfold rotKey accKey draw16
  split
  all_goals
    ext i hi
    simp [← Nat.add_assoc]
    omega

/-- The key of the byte `o` bytes into segment `j`. -/
theorem rotKeyAt_segment (r : Regs) {j o : Nat} (inside : o < segmentLength r j) :
    rotKeyAt r (rotStart r) (segmentStart r j + o) = accKey r (rotAccAt r (j % 3) j (o + 1)) := by
  rw [rotKeyAt, rotPassAfter_rotStart r inside, rotByte_segmentPass, rotKey_draw16]

/-! ## The command (43_rotxor.md R184, R185) -/

/-- Memory after ROTXOR over a region that fits. -/
def rotMemory (s : State) : Memory :=
  (rotBytes s.regs s.regs.len.toNat s.regs.addr.toNat s.mem (rotStart s.regs)).1

/-- The result registers of a pass that ends `o` bytes into segment `j` (43_rotxor.md R184). -/
def segmentResults (r : Regs) (j o : Nat) : Regs :=
  { r with
    lcgAcc := rotAccAt r (j % 3) j o
    rotWork0 := rotAccAt r 0 j 0
    rotWork1 := rotAccAt r 1 j 0
    rotWork2 := rotAccAt r 2 j 0
    rotState := BitVec.ofNat 2 (j % 3)
    rotCount := BitVec.ofNat 32 o
    rotFudge := BitVec.ofNat 32 (j / 3) }

theorem rotResults_segmentPass (r : Regs) (j o : Nat) : rotResults (segmentPass r j o) r = segmentResults r j o := by
  rw [segmentResults, ← rotIndexBits_segmentRegister]
  rfl

/-- ROTXOR past its region check: every byte, and then the completion. -/
theorem exec_rotxor_of_fits {s : State}
    (fits : s.regs.len = 0 ∨ s.regs.addr.toNat + s.regs.len.toNat ≤ s.impl.bufSize) :
    exec .rotxor s =
      completesWith s (rotResults (rotPassAfter s.regs (rotStart s.regs) s.regs.len.toNat) s.regs) (rotMemory s) := by
  rw [← rotBytes_pass]
  exact checkRegions_source s _ fits

/-- ROTXOR over a region that ends `o` bytes into segment `j`. -/
theorem exec_rotxor_of_segment {s : State}
    (fits : s.regs.len = 0 ∨ s.regs.addr.toNat + s.regs.len.toNat ≤ s.impl.bufSize) {j o : Nat}
    (inside : o < segmentLength s.regs j) (whole : segmentStart s.regs j + o = s.regs.len.toNat) :
    exec .rotxor s = completesWith s (segmentResults s.regs j o) (rotMemory s) := by
  rw [exec_rotxor_of_fits fits, ← whole, rotPassAfter_rotStart s.regs inside, rotResults_segmentPass]

theorem rotMemory_outside (s : State) : sameOutside s.mem (rotMemory s) s.regs.addr.toNat s.regs.len.toNat :=
  rotBytes_outside _ _ _ _ _

/-- The region's bytes, `o` bytes into segment `j`. -/
theorem read_rotMemory {s : State} (wf : s.mem.wf) {j o : Nat} (inside : o < segmentLength s.regs j)
    (short : segmentStart s.regs j + o < s.regs.len.toNat) :
    (rotMemory s).read (s.regs.addr.toNat + segmentStart s.regs j + o) =
      s.mem.read (s.regs.addr.toNat + segmentStart s.regs j + o)
        ^^^ accKey s.regs (rotAccAt s.regs (j % 3) j (o + 1)) := by
  rw [Nat.add_assoc, ← rotKeyAt_segment s.regs inside]
  exact read_rotBytes _ _ _ wf short

/-- Settles O24: the pass ends where it starts, at the first byte of segment 0. -/
theorem rotxorOfNothingReportsTheSeeds : Obligations.RotxorOfNothingReportsTheSeeds := by
  intro s empty
  have len : s.regs.len.toNat = 0 := congrArg BitVec.toNat empty
  rw [exec_rotxor_of_fits (.inl empty), rotMemory, len]
  rfl

/-- Settles O25: the region lies in segment 0, which the first register keys from its seed. -/
theorem rotxorFirstSegmentUsesTheFirstSeed : Obligations.RotxorFirstSegmentUsesTheFirstSeed := by
  intro s wf fits short acc
  have length : segmentLength s.regs 0 = s.regs.rotLen0.toNat := Nat.max_eq_right (Nat.one_le_of_lt short)
  have drawn (n : Nat) : rotAccAt s.regs 0 0 n = acc n := rotAccAt_of_le s.regs n le_rfl (by decide)
  refine ⟨rotMemory s, ?_, fun k hk => ?_, rotMemory_outside s⟩
  · rw [exec_rotxor_of_segment (.inr fits) (short.trans_eq length.symm) (Nat.zero_add _)]
    simp [segmentResults, rotAccAt_zero, drawn s.regs.len.toNat]
  · refine (read_rotMemory wf (j := 0) (by omega) ((Nat.zero_add k).trans_lt hk)).trans ?_
    rw [drawn]
    rfl

/-- Settles O26: the end of `exec_rotxor_of_segment` and the keys of `read_rotMemory`; three one-byte segments end where
segment 3 begins, after one step of each register. -/
theorem rotxorCycleSavesEveryRegister : Obligations.RotxorCycleSavesEveryRegister := by
  constructor
  · intro s wf fits key
    obtain ⟨j, o, inside, whole⟩ := exists_segment s.regs s.regs.len.toNat
    exact ⟨j, o, rotMemory s, inside, whole, exec_rotxor_of_segment fits inside whole,
      fun _ _ inside' short => read_rotMemory wf inside' short, rotMemory_outside s⟩
  · intro s wf three fits short0 short1 short2 next key a
    have len : s.regs.len.toNat = 3 := congrArg BitVec.toNat three
    have one_byte : ∀ i < 3, segmentLength s.regs i = 1 := fun i hi => by
      interval_cases i
      exacts [Nat.max_eq_left short0, Nat.max_eq_left short1, Nat.max_eq_left short2]
    have start : ∀ i ≤ 3, segmentStart s.regs i = i := fun i hi => by
      induction i with
      | zero => rfl
      | succ i ih => rw [segmentStart_succ, ih (by omega), one_byte i hi]
    have drawn : ∀ i < 3, rotAccAt s.regs i i 1 = next (rotAccAt s.regs i 0 0) := fun i hi =>
      rotAccAt_of_le s.regs 1 le_rfl hi
    have saved : ∀ i < 3, rotAccAt s.regs i 3 0 = rotAccAt s.regs i i 1 := fun i hi => by
      rw [rotAccAt_first_cycle s.regs hi, one_byte i hi]
    have byte : ∀ i < 3, (rotMemory s).read (a + i) = s.mem.read (a + i) ^^^ key (rotAccAt s.regs i i 1) :=
      fun i hi => by
        have read := read_rotMemory wf (j := i) (o := 0) (by rw [one_byte i hi]; omega) (by rw [start i hi.le]; omega)
        rwa [start i hi.le, Nat.mod_eq_of_lt hi] at read
    refine ⟨rotMemory s, ?_, ?_, ?_, ?_, len ▸ rotMemory_outside s⟩
    · rw [exec_rotxor_of_segment (.inr (by omega)) (segmentLength_pos s.regs 3) (by rw [start 3 le_rfl, len])]
      simp [segmentResults, saved, drawn, rotAccAt_zero]
    · exact drawn 0 (by decide) ▸ byte 0 (by decide)
    · exact drawn 1 (by decide) ▸ byte 1 (by decide)
    · exact drawn 2 (by decide) ▸ byte 2 (by decide)

/-! ## A second pass (43_rotxor.md R187) -/

/-- What a command leaves in ROTXOR's result registers and in `STATUS` is no operand of its keys (43_rotxor.md R181). -/
theorem rotKeyAt_rotResults (r : Regs) (p : RotPass) (t : Status) (k : Nat) :
    rotKeyAt { rotResults p r with status := t } (rotStart { rotResults p r with status := t }) k
      = rotKeyAt r (rotStart r) k := rfl

/-- A second pass over the same region with the same keys restores it. -/
theorem rotMemory_restores {s t : State} (wf : s.mem.wf) (mem : t.mem = rotMemory s) (addr : t.regs.addr = s.regs.addr)
    (len : t.regs.len = s.regs.len)
    (keys : ∀ k, rotKeyAt t.regs (rotStart t.regs) k = rotKeyAt s.regs (rotStart s.regs) k) :
    sameMemory s.mem (rotMemory t) := by
  intro b
  by_cases inside : s.regs.addr.toNat ≤ b ∧ b < s.regs.addr.toNat + s.regs.len.toNat
  · obtain ⟨k, rfl⟩ := Nat.exists_eq_add_of_le inside.1
    have hk : k < s.regs.len.toNat := by omega
    have wf' : (rotMemory s).wf := rotBytes_wf _ _ _ _ _ wf
    rw [rotMemory, mem, addr, len, read_rotBytes _ _ _ wf' hk, keys, rotMemory, read_rotBytes _ _ _ wf hk,
      BitVec.xor_assoc, BitVec.xor_self, BitVec.xor_zero]
  · rw [rotMemory_outside t b (by rwa [addr, len]), mem, rotMemory_outside s b inside]

/-- Settles O27: the first pass leaves the operands of the keys in place, and every byte is XORed twice with its key. -/
theorem rotxorIsItsOwnInverse : Obligations.RotxorIsItsOwnInverse := by
  intro s wf fits
  refine ⟨_, _, exec_rotxor_of_fits fits, rfl, rfl, rotMemory_outside s, exec_rotxor_of_fits fits, ?_⟩
  exact rotMemory_restores wf rfl rfl rfl fun k => rotKeyAt_rotResults s.regs _ _ k

end Sys2Proof.Machine
end

section
/-! SUPPORT. The checksum validator (44_checksum.md): the words and the bytes of a region as lists, the two rolling
accumulators and the two Adler-32 sums as folds over them, and the mask of CHECK. -/

namespace Sys2Proof.Machine

/-! ## The words of a region (44_checksum.md R201) -/

/-- The `n` words from address `a` up, in the selected byte order. -/
def regionWords (bigEndian : Bool) (m : Memory) (a n : Nat) : List Word :=
  (List.range n).map fun k => load32 bigEndian m (a + 4 * k)

theorem regionWords_succ (bigEndian : Bool) (m : Memory) (a n : Nat) :
    regionWords bigEndian m a (n + 1) = load32 bigEndian m a :: regionWords bigEndian m (a + 4) n := by
  have shift (k : Nat) : a + 4 * (k + 1) = a + 4 + 4 * k := by omega
  simp [regionWords, List.range_succ_eq_map, Function.comp_def, shift]

/-- `CSUM_XOR` after the words: each complement XORed in (44_checksum.md R201). -/
def xorComplements (words : List Word) (xor : Word) : Word := words.foldr (fun w x => x ^^^ ~~~w) xor

/-- The complements may be XORed in any order: the first word's first, or last as the fold does. -/
theorem xorComplements_xor (words : List Word) (xor w : Word) :
    xorComplements words (xor ^^^ ~~~w) = xorComplements words xor ^^^ ~~~w :=
  List.foldr_hom (fun x : Word => x ^^^ ~~~w) fun _ _ => by ac_rfl

/-- The loop of CSUM as folds over the words. -/
theorem csumWords_eq (bigEndian : Bool) (m : Memory) (n a : Nat) (sum xor : Word) :
    csumWords bigEndian m n a sum xor =
      (sum - (regionWords bigEndian m a n).foldr (· + ·) 0, xorComplements (regionWords bigEndian m a n) xor) := by
  induction n generalizing a sum xor with
  | zero => exact congrArg (·, xor) (BitVec.sub_zero sum).symm
  | succ n ih =>
    rw [csumWords, ih, regionWords_succ, xorComplements_xor, List.foldr_cons, ← BitVec.sub_sub]
    rfl

/-- The words of the whole are those of a first part and then those of the rest (44_checksum.md R202). -/
theorem csumWords_add (bigEndian : Bool) (m : Memory) (n1 n2 a : Nat) (sum xor : Word) :
    csumWords bigEndian m (n1 + n2) a sum xor =
      let first := csumWords bigEndian m n1 a sum xor
      csumWords bigEndian m n2 (a + 4 * n1) first.1 first.2 := by
  induction n1 generalizing a sum xor with
  | zero => rw [Nat.zero_add]; rfl
  | succ n1 ih =>
    have next : a + 4 + 4 * n1 = a + 4 * (n1 + 1) := by omega
    rw [Nat.succ_add, csumWords, ih, next]
    rfl

/-- The words of a region are those of two parts of whole words that follow one another. -/
theorem csumWords_adjacent (bigEndian : Bool) (m : Memory) {addr len n1 n2 : Word} (whole1 : n1.toNat % 4 = 0)
    (len_eq : n1.toNat + n2.toNat = len.toNat) (inRange : addr.toNat + n1.toNat < 2 ^ 32) (sum xor : Word) :
    csumWords bigEndian m (len.toNat / 4) addr.toNat sum xor =
      let first := csumWords bigEndian m (n1.toNat / 4) addr.toNat sum xor
      csumWords bigEndian m (n2.toNat / 4) (addr + n1).toNat first.1 first.2 := by
  have count : len.toNat / 4 = n1.toNat / 4 + n2.toNat / 4 := by omega
  have boundary : addr.toNat + 4 * (n1.toNat / 4) = addr.toNat + n1.toNat := by omega
  rw [count, csumWords_add, boundary, BitVec.toNat_add_of_lt inRange]

/-! ## CSUM (44_checksum.md R201, R202) -/

/-- CSUM past its checks: every word, and then the completion. -/
theorem exec_csum_of_fits {s : State} (whole : s.regs.len.toNat % 4 = 0)
    (fits : s.regs.len = 0 ∨ s.regs.addr.toNat + s.regs.len.toNat ≤ s.impl.bufSize) :
    exec .csum s =
      let result :=
        csumWords s.regs.ctrl.endian s.mem (s.regs.len.toNat / 4) s.regs.addr.toNat s.regs.csumSum s.regs.csumXor
      completesWith s { s.regs with csumSum := result.1, csumXor := result.2 } s.mem :=
  (if_neg (not_not.2 whole)).trans (checkRegions_source s _ fits)

/-- Settles O28: the length check, and past it the loop as folds over the words. -/
theorem csumAccumulatesOverTheWords : Obligations.CsumAccumulatesOverTheWords := by
  refine fun s => ⟨fun partialWord => if_pos partialWord, fun whole fits => ?_⟩
  rw [exec_csum_of_fits whole fits, csumWords_eq]
  rfl

/-- Settles O29: the first part leaves memory and the byte order in place, and the second goes on from its
accumulators. -/
theorem csumSplitsIntoAdjacentParts : Obligations.CsumSplitsIntoAdjacentParts := by
  intro s n1 n2 whole1 whole2 len_eq fits inRange
  have start : (s.regs.addr + n1).toNat = s.regs.addr.toNat + n1.toNat := BitVec.toNat_add_of_lt inRange
  have split :=
    csumWords_adjacent s.regs.ctrl.endian s.mem whole1 len_eq inRange s.regs.csumSum s.regs.csumXor
  have whole : s.regs.len.toNat % 4 = 0 := by omega
  have fits1 : s.regs.addr.toNat + n1.toNat ≤ s.impl.bufSize := by omega
  have fits2 : (s.regs.addr + n1).toNat + n2.toNat ≤ s.impl.bufSize := by omega
  exact ⟨_, _, _, exec_csum_of_fits whole (.inr fits), exec_csum_of_fits whole1 (.inr fits1),
    exec_csum_of_fits whole2 (.inr fits2), congrArg Prod.fst split.symm, congrArg Prod.snd split.symm⟩

/-! ## ADLER32 (44_checksum.md R203) -/

/-- The values of the `n` bytes from address `a` up. -/
def byteValues (m : Memory) (a n : Nat) : List Nat := (List.range n).map fun k => (m.read (a + k)).toNat

theorem byteValues_succ (m : Memory) (a n : Nat) :
    byteValues m a (n + 1) = (m.read a).toNat :: byteValues m (a + 1) n := by
  have shift (k : Nat) : a + 1 + k = a + (k + 1) := by omega
  simp [byteValues, List.range_succ_eq_map, Function.comp_def, shift]

/-- One byte folded into both Adler-32 sums (44_checksum.md R203). -/
def adlerStep (ab : Nat × Nat) (v : Nat) : Nat × Nat := ((ab.1 + v) % 65521, (ab.2 + (ab.1 + v) % 65521) % 65521)

/-- The loop of ADLER32 as a fold over the bytes. -/
theorem adlerBytes_eq (m : Memory) (n at_ a b : Nat) :
    adlerBytes m n at_ a b = (byteValues m at_ n).foldl adlerStep (a, b) := by
  induction n generalizing at_ a b with
  | zero => rfl
  | succ n ih =>
    rw [adlerBytes, ih, byteValues_succ]
    rfl

/-- The low sum stays a 16-bit number, also from a start that is not reduced. -/
theorem foldl_adlerStep_lt (bytes : List Nat) (ab : Nat × Nat) (h : ab.1 < 2 ^ 16) :
    (bytes.foldl adlerStep ab).1 < 2 ^ 16 := by
  induction bytes generalizing ab with
  | nil => exact h
  | cons v bytes ih => exact ih _ ((Nat.mod_lt _ (by decide)).trans (by decide : 65521 < 2 ^ 16))

/-- Two halves put together are their sum, the upper one shifted (44_checksum.md R203: `ADLER` = b·2^16 + a). -/
theorem ofNat_append_ofNat {a b : Nat} (h : a < 2 ^ 16) :
    BitVec.ofNat 16 b ++ BitVec.ofNat 16 a = BitVec.ofNat 32 (b * 2 ^ 16 + a) := by
  apply BitVec.eq_of_toNat_eq
  rw [toNat_append_eq_add, BitVec.toNat_ofNat, BitVec.toNat_ofNat, BitVec.toNat_ofNat]
  omega

theorem lowHalf_toNat (v : Word) : (v.extractLsb' 0 16).toNat = v.toNat % 2 ^ 16 := by
  rw [BitVec.extractLsb'_toNat, Nat.shiftRight_zero]

theorem highHalf_toNat (v : Word) : (v.extractLsb' 16 16).toNat = v.toNat / 2 ^ 16 := by
  rw [BitVec.extractLsb'_toNat, Nat.shiftRight_eq_div_pow]
  omega

/-- The two sums that ADLER32 starts from, as `ADLER` holds them (44_checksum.md R203). -/
def adlerStart (r : Regs) : Nat × Nat := (r.adler.toNat % 2 ^ 16, r.adler.toNat / 2 ^ 16)

/-- ADLER32 past its region check: the fold over the bytes, and then the completion. -/
theorem exec_adler32_of_fits {s : State}
    (fits : s.regs.len = 0 ∨ s.regs.addr.toNat + s.regs.len.toNat ≤ s.impl.bufSize) :
    exec .adler32 s =
      let result := (byteValues s.mem s.regs.addr.toNat s.regs.len.toNat).foldl adlerStep (adlerStart s.regs)
      completesWith s { s.regs with adler := BitVec.ofNat 16 result.2 ++ BitVec.ofNat 16 result.1 } s.mem := by
  rw [adlerStart, ← lowHalf_toNat, ← highHalf_toNat, ← adlerBytes_eq]
  exact checkRegions_source s _ fits

/-- Settles O30: the loop as a fold, and `ADLER` put together from both sums. -/
theorem adler32SumsTheBytes : Obligations.Adler32SumsTheBytes := by
  intro s fits bytes start result
  have low : result.1 < 2 ^ 16 := foldl_adlerStep_lt bytes start (Nat.mod_lt _ (by decide))
  rw [← ofNat_append_ofNat low]
  exact exec_adler32_of_fits fits

/-! ## CHECK (44_checksum.md R205) -/

/-- The mask of three comparisons, bit by bit and as a number. -/
theorem maskBits_eq_ofNat : ∀ sum xor adl : Bool,
    ((if sum then 1 else 0) ||| (if xor then 2 else 0) ||| (if adl then 4 else 0) : Word)
      = BitVec.ofNat 32 (sum.toNat + 2 * xor.toNat + 4 * adl.toNat) := by
  decide

/-- The mask is 0 exactly when no comparison failed. -/
theorem mask_eq_zero_iff : ∀ sum xor adl : Bool,
    BitVec.ofNat 32 (sum.toNat + 2 * xor.toNat + 4 * adl.toNat) = 0 ↔ ¬(sum || xor || adl) = true := by
  decide

/-- Each of CHECK's eight words decodes to the comparisons its flags select. -/
theorem decodeCommand_checkWord : ∀ cSum cXor cAdl : Bool,
    decodeCommand (BitVec.ofNat 32 (0x22 + 2 ^ 8 * (cSum.toNat + 2 * cXor.toNat + 4 * cAdl.toNat)))
      = .ok (.check cSum cXor cAdl) := by
  decide

theorem bne_eq_decide_ne (v w : Word) : (v != w) = decide (v ≠ w) := (decide_not ..).symm

/-- CHECK ends in `ERR_CSUM` with its mask, unless the mask is 0. -/
theorem exec_check (cSum cXor cAdl : Bool) (s : State) :
    exec (.check cSum cXor cAdl) s =
      if checkMask cSum cXor cAdl s.regs = 0 then completesWith s s.regs s.mem
      else failsWith s 6 (checkMask cSum cXor cAdl s.regs) := rfl

/-- Settles O31: the eight words decode, and the mask is 0 exactly when no selected comparison fails. -/
theorem checkReportsEveryMismatch : Obligations.CheckReportsEveryMismatch := by
  intro s cSum cXor cAdl flags failedSum failedXor failedAdl
  have mask : checkMask cSum cXor cAdl s.regs
      = BitVec.ofNat 32 (failedSum.toNat + 2 * failedXor.toNat + 4 * failedAdl.toNat) := by
    rw [checkMask, bne_eq_decide_ne, bne_eq_decide_ne, bne_eq_decide_ne]
    exact maskBits_eq_ofNat failedSum failedXor failedAdl
  refine ⟨decodeCommand_checkWord cSum cXor cAdl, ?_⟩
  rw [exec_check, mask, ← ite_not]
  exact if_congr ((not_congr (mask_eq_zero_iff ..)).trans not_not) rfl rfl

end Sys2Proof.Machine
end

section
/-! SUPPORT. The engine's turn inside UNGLAZE (45_glaze.md R235 to R241): the bits the decoder sees, a bytecode cut
short, and what the turn does with the operation at the bit cursor or where there is none. -/

namespace Sys2Proof.Machine

/-! ## The bits at the cursor (45_glaze.md R235) -/

/-- The `k`th bit the decoder sees is the stream's `k`th from the cursor. -/
theorem upcomingBits_getElem? (g : GlazeDecode) (s : State) {k : Nat} (hk : k < maxGlazeBits) :
    (upcomingBits g s)[k]? = if g.bitPos + k < g.bitEnd then some (streamBit s (g.bitPos + k)) else none := by
  have inside : k < min maxGlazeBits (g.bitEnd - g.bitPos) ↔ g.bitPos + k < g.bitEnd := by omega
  rw [upcomingBits, List.getElem?_map]
  split
  · next before => rw [List.getElem?_range (inside.2 before), Option.map_some]
  · next after =>
    rw [List.getElem?_eq_none (by rw [List.length_range]; exact Nat.not_lt.1 (mt inside.1 after)), Option.map_none]

/-- Settles O40: the decoder's bits are the stream's, and a bit of the stream is read by its definition. -/
theorem bitstreamIsReadInItsBitOrder : Obligations.BitstreamIsReadInItsBitOrder :=
  fun s g _ hk => upcomingBits_getElem? g s hk

/-! ## A bytecode cut short (45_glaze.md R235, R236) -/

/-- The first bits of a code, not all of them, are no code followed by other bits: the bitstream ends inside the bytecode. -/
theorem getBytecode_of_cut {v : Nat} {left missing : List Bool} (small : isBytecode v = true)
    (code : bytecodeCode v = left ++ missing) (cut : missing ≠ []) : getBytecode left = none := by
  rw [Option.eq_none_iff_forall_ne_some]
  rintro ⟨w, rest⟩ taken
  obtain ⟨smallW, rfl⟩ := getBytecode_eq_some_iff.1 taken
  have whole : getBytecode (bytecodeCode v) = some (v, []) :=
    getBytecode_eq_some_iff.2 ⟨small, (List.append_nil _).symm⟩
  have continued : getBytecode (bytecodeCode v) = some (w, rest ++ missing) :=
    getBytecode_eq_some_iff.2 ⟨smallW, code.trans (List.append_assoc ..)⟩
  rw [whole, Option.some.injEq, Prod.mk.injEq] at continued
  obtain ⟨-, after⟩ := continued
  obtain ⟨-, complete⟩ := List.append_eq_nil_iff.1 after.symm
  exact cut complete

theorem withBytecode_of_end {bits : List Bool} (h : getBytecode bits = none)
    (k : Nat → List Bool → Except Reject (Instr × List Bool)) : withBytecode bits k = .error .bitstreamEnd := by
  rw [withBytecode, h]

/-- After whole bytecodes of an operation that takes one more, the end of the bits is the decoder's answer. -/
theorem decodeGlaze_of_end {whole : List Nat} {left : List Bool}
    (operands : whole = [] ∨ (∃ op ∈ [2, 3, 4, 5, 6], whole = [op]) ∨ ∃ op ∈ [3, 5], ∃ w < 256, whole = [op, w])
    (ended : getBytecode left = none) : decodeGlaze (whole.flatMap bytecodeCode ++ left) = .error .bitstreamEnd := by
  rcases operands with rfl | ⟨op, member, rfl⟩ | ⟨op, member, w, small, rfl⟩
  · exact withBytecode_of_end ended _
  · rw [List.flatMap_singleton, decodeGlaze]
    fin_cases member
    all_goals
      rw [withBytecode_code (by decide)]
      exact withBytecode_of_end ended _
  · rw [List.flatMap_cons, List.flatMap_singleton, List.append_assoc, decodeGlaze]
    fin_cases member
    all_goals
      rw [withBytecode_code (by decide)]
      exact (withBytecode_code (decide_eq_true small) left _).trans (withBytecode_of_end ended _)

/-- A reserved opcode (30_encoding.md R110): rejected whatever bits follow it. -/
theorem decodeGlaze_of_reserved {v : Nat} (small : v < 256) (reserved : v = 0 ∨ 8 ≤ v) (rest : List Bool) :
    decodeGlaze (bytecodeCode v ++ rest) = .error .reservedOpcode := by
  rw [decodeGlaze, withBytecode_code (decide_eq_true small)]
  split
  case h_8 => rfl
  all_goals omega

/-! ## The turn (45_glaze.md R241) -/

section Fetching
variable {g : GlazeDecode} {s : State}

theorem fetchGlaze_of_reached (reached : g.outLen ≤ g.pos) : fetchGlaze g s = .ended (completeGlaze g s) :=
  if_pos reached

theorem fetchGlaze_of_reserved (unfinished : g.pos < g.outLen)
    (h : decodeGlaze (upcomingBits g s) = .error .reservedOpcode) :
    fetchGlaze g s = .ended (raiseGlaze .glzOp g s) := by
  rw [fetchGlaze, if_neg (Nat.not_le.2 unfinished), h]

theorem fetchGlaze_of_end (unfinished : g.pos < g.outLen)
    (h : decodeGlaze (upcomingBits g s) = .error .bitstreamEnd) :
    fetchGlaze g s = .ended (raiseGlaze .glzOvf g s) := by
  rw [fetchGlaze, if_neg (Nat.not_le.2 unfinished), h]

/-- The operation at the cursor is fetched, and the cursor moved by the length of its code. -/
theorem fetchGlaze_of_code {i : Instr} {bs rest : List Bool} (unfinished : g.pos < g.outLen)
    (op : isGlazeOp i = true) (wf : i.wellFormed = true) (code : encode i = .bits bs)
    (bits : upcomingBits g s = bs ++ rest) :
    fetchGlaze g s = .run i { s with glaze := some { g with bitPos := g.bitPos + bs.length } } := by
  obtain ⟨bs', code', decodes⟩ := decodeGlaze_encode op wf
  obtain rfl : bs = bs' := Encoding.bits.inj (code.symm.trans code')
  have taken : (bs ++ rest).length - rest.length = bs.length := by rw [List.length_append, Nat.add_sub_cancel]
  rw [fetchGlaze, if_neg (Nat.not_le.2 unfinished), bits, decodes, ← taken]

theorem fetch_of_cursors (cursors : Decodes s g) : fetch s = fetchGlaze g s := by rw [fetch, cursors]

theorem engineTurn_of_run {i : Instr} {u : State} (fetched : fetch s = .run i u) : engineTurn s = exec i u := by
  rw [engineTurn, fetched]

theorem engineTurn_of_ended {t : State} (fetched : fetch s = .ended t) : engineTurn s = .next t := by
  rw [engineTurn, fetched]

theorem step_of_engineNext (next : EngineNext s) : step s = engineTurn s :=
  have ⟨agenda, unspoiled⟩ := next
  (step_of_agenda_nil agenda).trans (engineMove_of_unspoiled unspoiled)

/-- A step from standing cursors in which the fetch ends the command. -/
theorem step_of_ended {t : State} (next : EngineNext s) (cursors : Decodes s g) (fetched : fetchGlaze g s = .ended t) :
    step s = .next t :=
  (step_of_engineNext next).trans (engineTurn_of_ended ((fetch_of_cursors cursors).trans fetched))

end Fetching

/-- Settles O6: the fetch takes the operation's code, and the turn is its meaning. -/
theorem stepRunsTheGlazeOperationAtTheCursor : Obligations.StepRunsTheGlazeOperationAtTheCursor := by
  intro s g i bs rest next cursors unfinished op wf code bits
  have fetched := (fetch_of_cursors cursors).trans (fetchGlaze_of_code unfinished op wf code bits)
  exact (step_of_engineNext next).trans (engineTurn_of_run fetched)

/-- Settles O8: the opcode's code decodes to no operation, whatever follows it. -/
theorem reservedGlazeOpcodesRaise : Obligations.ReservedGlazeOpcodesRaise := by
  intro s g v rest next cursors unfinished small reserved bits
  have rejected : decodeGlaze (upcomingBits g s) = .error .reservedOpcode :=
    bits ▸ decodeGlaze_of_reserved small reserved rest
  exact step_of_ended next cursors (fetchGlaze_of_reserved unfinished rejected)

/-- Settles O9: at the declared length nothing is decoded, and a code cut short is no bytecode. -/
theorem decodingEndsAtTheLengthOrTheBitstream : Obligations.DecodingEndsAtTheLengthOrTheBitstream := by
  intro s g next cursors outLen pos
  refine ⟨fun reached => step_of_ended next cursors (fetchGlaze_of_reached reached), ?_⟩
  intro whole v left missing unfinished operands small code cut bits
  have ended : getBytecode left = none := getBytecode_of_cut (decide_eq_true small) code cut
  have rejected : decodeGlaze (upcomingBits g s) = .error .bitstreamEnd := bits ▸ decodeGlaze_of_end operands ended
  exact step_of_ended next cursors (fetchGlaze_of_end unfinished rejected)

end Sys2Proof.Machine
end

section
/-! SUPPORT. The seven Glaze operations (45_glaze.md R238 to R252): each as a literal run or a back-reference from the
cursors its operands leave, and the outcomes of both. -/

namespace Sys2Proof.Machine

/-! ## The end of an operation (45_glaze.md R242) -/

/-- What an operation's checks and output come to, from the cursors `g` it began with. -/
def operationOutcome (s : State) (g : GlazeDecode) : Except ErrorCode Decoding → Outcome
  | .error code => .next (raiseGlaze code g s)
  | .ok (m, g') => .next { s with mem := m, glaze := some g' }

theorem glazeOperation_eq {s : State} {g : GlazeDecode} (cursors : Decodes s g)
    (body : State → GlazeDecode → Except ErrorCode Decoding) :
    glazeOperation body s = operationOutcome s g (body s g) :=
  (glazeOperation_some body s g cursors).trans (by cases body s g <;> rfl)

section Outcomes
variable {s : State} {g g' : GlazeDecode} {n dist : Nat}

/-- A literal run that fits the declared output and the dictionary. -/
theorem emitLiteral_outcome (room : g'.pos + n ≤ g'.outLen) (inDict : g'.dictPos + n ≤ g'.dictEnd) :
    operationOutcome s g (emitLiteral n s g') =
      .next
        { s with
          mem := s.mem.writeBytes (s.regs.dst.toNat + g'.pos) (s.mem.readBytes (s.regs.addr.toNat + g'.dictPos) n)
          glaze := some { g' with dictPos := g'.dictPos + n, pos := g'.pos + n } } := by
  rw [emitLiteral_eq, if_neg (by omega)]
  rfl

theorem emitLiteral_overrun (h : g'.outLen < g'.pos + n ∨ g'.dictEnd < g'.dictPos + n) :
    operationOutcome s g (emitLiteral n s g') = .next (raiseGlaze .glzOvf g s) := by
  rw [emitLiteral_eq, if_pos h]
  rfl

/-- A back-reference that fits the declared output and reaches no further back than its start. -/
theorem copyBack_outcome (room : g'.pos + n ≤ g'.outLen) (positive : 1 ≤ dist) (reaches : dist ≤ g'.pos) :
    operationOutcome s g (copyBack dist n s g') =
      .next
        { s with
          mem := copyBytes dist n (s.regs.dst.toNat + g'.pos) s.mem
          glaze := some { g' with pos := g'.pos + n } } := by
  rw [copyBack_eq, if_neg (by omega), if_neg (by omega)]
  rfl

theorem copyBack_overrun (h : g'.outLen < g'.pos + n) :
    operationOutcome s g (copyBack dist n s g') = .next (raiseGlaze .glzOvf g s) := by
  rw [copyBack_eq, if_pos h]
  rfl

theorem copyBack_badDistance (room : g'.pos + n ≤ g'.outLen) (h : dist = 0 ∨ g'.pos < dist) :
    operationOutcome s g (copyBack dist n s g') = .next (raiseGlaze .glzDist g s) := by
  rw [copyBack_eq, if_neg (by omega), if_pos h]
  rfl

end Outcomes

/-! ## The operations (45_glaze.md R243 to R252) -/

/-- The byte at the dictionary cursor, as a number. -/
abbrev dictByteAt (s : State) (g : GlazeDecode) : Nat := (s.mem.read (s.regs.addr.toNat + g.dictPos)).toNat

/-- The byte at the length-table cursor, as a number. -/
abbrev tableByteAt (s : State) (g : GlazeDecode) : Nat := (s.mem.read (s.regs.addr.toNat + g.ltPos)).toNat

section Operations
variable {s : State} {g : GlazeDecode}

theorem exec_lit (cursors : Decodes s g) : exec .lit s = operationOutcome s g (emitLiteral 1 s g) :=
  glazeOperation_eq cursors _

theorem exec_lits (cursors : Decodes s g) (l : Nat) :
    exec (.lits l) s = operationOutcome s g (emitLiteral (l + 8) s g) := glazeOperation_eq cursors _

theorem exec_ref1 (cursors : Decodes s g) (d : Nat) :
    exec (.ref1 d) s = operationOutcome s g (copyBack d 1 s g) := glazeOperation_eq cursors _

theorem exec_ref (cursors : Decodes s g) (d l : Nat) :
    exec (.ref d l) s = operationOutcome s g (copyBack (d + l) (l + 1) s g) := glazeOperation_eq cursors _

/-- The count of LITL is fetched first (R252). -/
theorem exec_litl (cursors : Decodes s g) :
    exec .litl s =
      if g.ltPos < g.ltEnd then
        operationOutcome s g (emitLiteral (tableByteAt s g + 14) s { g with ltPos := g.ltPos + 1 })
      else .next (raiseGlaze .glzOvf g s) := by
  rw [exec, execLitl, glazeOperation_eq cursors, getLt_eq]
  split <;> rfl

/-- The distance byte of REFD is fetched first (R247). -/
theorem exec_refd (cursors : Decodes s g) (l : Nat) :
    exec (.refd l) s =
      if g.dictPos < g.dictEnd then
        operationOutcome s g (copyBack (dictByteAt s g + l) (l + 1) s { g with dictPos := g.dictPos + 1 })
      else .next (raiseGlaze .glzOvf g s) := by
  rw [exec, execRefd, glazeOperation_eq cursors, getDictByte_eq]
  split <;> rfl

/-- The low byte of REFW's distance is fetched first (R248). -/
theorem exec_refw (cursors : Decodes s g) (l dh : Nat) :
    exec (.refw l dh) s =
      if g.dictPos < g.dictEnd then
        operationOutcome s g (copyBack (dh * 256 + dictByteAt s g + l) (l + 1) s { g with dictPos := g.dictPos + 1 })
      else .next (raiseGlaze .glzOvf g s) := by
  rw [exec, execRefw, glazeOperation_eq cursors, getDictByte_eq]
  split <;> rfl

end Operations

/-! ## The bytes an operation writes (45_glaze.md R240, R246) -/

/-- The output of a literal run is the dictionary's bytes. -/
theorem read_writeBytes_readBytes {m : Memory} (wf : m.wf) (a b : Nat) {n k : Nat} (hk : k < n) :
    (m.writeBytes a (m.readBytes b n)).read (a + k) = m.read (b + k) := by
  rw [Memory.read_writeBytes_inside _ _ _ _ wf (by rwa [Memory.readBytes_length]), Memory.readBytes_getD _ _ _ _ hk]

theorem writeBytes_readBytes_outside (m : Memory) (a b n : Nat) :
    sameOutside m (m.writeBytes a (m.readBytes b n)) a n := fun c hc =>
  Memory.read_writeBytes_outside _ _ _ _ (by rwa [Memory.readBytes_length])

/-- Each byte of a copy equals the one `dist` before it in the memory the copy leaves: when it was written, the byte it
was read from had its last value already. -/
theorem read_copyBytes {dist : Nat} (positive : 1 ≤ dist) {n k a : Nat} (reaches : dist ≤ a) (hk : k < n) {m : Memory}
    (wf : m.wf) : (copyBytes dist n a m).read (a + k) = (copyBytes dist n a m).read (a + k - dist) := by
  induction n generalizing k a m with
  | zero => omega
  | succ n ih =>
    cases k with
    | zero =>
      have later (b : Nat) (hb : b ≤ a) := copyBytes_outside dist n (a + 1) (m.write a (m.read (a - dist))) b (by omega)
      rw [Nat.add_zero a, copyBytes, later a le_rfl, later (a - dist) (Nat.sub_le ..),
        Memory.read_write_same _ _ _ wf, Memory.read_write_other _ _ (by omega)]
    | succ k =>
      rw [copyBytes, show a + (k + 1) = a + 1 + k by omega]
      exact ih (by omega) (by omega) (Memory.write_wf _ _ _ wf)

/-! ## The obligations -/

/-- Settles O37: each literal operation is a literal run, LITL's after its count. -/
theorem glazeLiteralsEmitDictionaryBytes : Obligations.GlazeLiteralsEmitDictionaryBytes := by
  intro s g cursors wf emits
  have run {i : Instr} {n : Nat} (ltPos : Nat)
      (runs : exec i s = operationOutcome s g (emitLiteral n s { g with ltPos := ltPos })) :
      emits i n { g with ltPos := ltPos } := fun room inDict =>
    ⟨_, runs.trans (emitLiteral_outcome room inDict), fun k hk => read_writeBytes_readBytes wf _ _ hk,
      writeBytes_readBytes_outside _ _ _ _⟩
  exact ⟨run g.ltPos (exec_lit cursors), fun l => run g.ltPos (exec_lits cursors l),
    fun more => run (g.ltPos + 1) ((exec_litl cursors).trans (if_pos more))⟩

/-- Settles O38: each back-reference is a copy, REFD's and REFW's after their distance byte. -/
theorem glazeReferencesCopyEarlierOutput : Obligations.GlazeReferencesCopyEarlierOutput := by
  intro s g cursors wf copies dictByte
  have copy {i : Instr} {dist n : Nat} (dictPos : Nat)
      (runs : exec i s = operationOutcome s g (copyBack dist n s { g with dictPos := dictPos })) :
      copies i dist n { g with dictPos := dictPos } := fun room positive reaches =>
    ⟨_, runs.trans (copyBack_outcome room positive reaches),
      fun k hk => read_copyBytes positive (reaches.trans (Nat.le_add_left ..)) hk wf, copyBytes_outside _ _ _ _⟩
  exact ⟨fun d => copy g.dictPos (exec_ref1 cursors d), fun d l => copy g.dictPos (exec_ref cursors d l),
    fun l more => copy (g.dictPos + 1) ((exec_refd cursors l).trans (if_pos more)),
    fun l dh more => copy (g.dictPos + 1) ((exec_refw cursors l dh).trans (if_pos more))⟩

/-- Settles O39: the fetch of an operand, then the check of the output and the dictionary, or of the output and then the
distance. -/
theorem glazeOperationsCheckBeforeTheyWrite : Obligations.GlazeOperationsCheckBeforeTheyWrite := by
  intro s g cursors raises dictByte ltByte literalRaises copyRaises
  have literal {i : Instr} {n : Nat} (ltPos : Nat)
      (runs : exec i s = operationOutcome s g (emitLiteral n s { g with ltPos := ltPos })) : literalRaises i n :=
    fun overrun => runs.trans (emitLiteral_overrun overrun)
  have copy {i : Instr} {dist n : Nat} (dictPos : Nat)
      (runs : exec i s = operationOutcome s g (copyBack dist n s { g with dictPos := dictPos })) :
      copyRaises i dist n :=
    ⟨fun overrun => runs.trans (copyBack_overrun overrun),
      fun room bad => runs.trans (copyBack_badDistance room bad)⟩
  refine ⟨literal g.ltPos (exec_lit cursors), fun l => literal g.ltPos (exec_lits cursors l), fun used => ?_,
    fun more => literal (g.ltPos + 1) ((exec_litl cursors).trans (if_pos more)),
    fun d => copy g.dictPos (exec_ref1 cursors d), fun d l => copy g.dictPos (exec_ref cursors d l), fun l used => ?_,
    fun l more => copy (g.dictPos + 1) ((exec_refd cursors l).trans (if_pos more)), fun l dh used => ?_,
    fun l dh more => copy (g.dictPos + 1) ((exec_refw cursors l dh).trans (if_pos more))⟩
  · exact (exec_litl cursors).trans (if_neg (Nat.not_lt.2 used))
  · exact (exec_refd cursors l).trans (if_neg (Nat.not_lt.2 used))
  · exact (exec_refw cursors l dh).trans (if_neg (Nat.not_lt.2 used))

end Sys2Proof.Machine
end

section
/-! SUPPORT. UNGLAZE (45_glaze.md R232 to R234, R241, R250): its region checks, its header as cursors or an error, and its
decode loop as the engine's turns. -/

namespace Sys2Proof.Machine

/-! ## The checks before a byte is read (45_glaze.md R232) -/

/-- The two regions pass UNGLAZE's first checks. -/
structure RegionsPass (s : State) : Prop where
  source : s.regs.len = 0 ∨ s.regs.addr.toNat + s.regs.len.toNat ≤ s.impl.bufSize
  destination : s.regs.dstCap = 0 ∨ s.regs.dst.toNat + s.regs.dstCap.toNat ≤ s.impl.bufSize
  apart : s.regs.len = 0 ∨ s.regs.dstCap = 0 ∨ s.regs.dst.toNat + s.regs.dstCap.toNat ≤ s.regs.addr.toNat
    ∨ s.regs.addr.toNat + s.regs.len.toNat ≤ s.regs.dst.toNat

theorem regionsOverlap_iff (r : Regs) :
    regionsOverlap r = true ↔
      r.len ≠ 0 ∧ r.dstCap ≠ 0 ∧ r.addr.toNat < r.dst.toNat + r.dstCap.toNat
        ∧ r.dst.toNat < r.addr.toNat + r.len.toNat := by
  simp [regionsOverlap, and_assoc]

theorem RegionsPass.fits {s : State} (pass : RegionsPass s) :
    ∀ region ∈ glazeRegions s.regs, regionFits s.impl region = true := by
  have source := (regionFits_iff s.impl (s.regs.addr, s.regs.len)).2 pass.source
  have destination := (regionFits_iff s.impl (s.regs.dst, s.regs.dstCap)).2 pass.destination
  exact List.forall_mem_cons.2 ⟨source, List.forall_mem_singleton.2 destination⟩

theorem RegionsPass.not_overlap {s : State} (pass : RegionsPass s) : ¬regionsOverlap s.regs = true := by
  rw [regionsOverlap_iff]
  rintro ⟨nonempty, capacity, below, above⟩
  rcases pass.apart with h | h | h | h
  · exact nonempty h
  · exact capacity h
  · omega
  · omega

/-- Settles O32: each check is reached when those before it let the command go on. -/
theorem unglazeChecksItsRegionsFirst : Obligations.UnglazeChecksItsRegionsFirst := by
  intro s r srcFits dstFits
  have source : regionFits s.impl (r.addr, r.len) = true ↔ srcFits := regionFits_iff _ _
  have destination : regionFits s.impl (r.dst, r.dstCap) = true ↔ dstFits := regionFits_iff _ _
  refine ⟨fun bad => if_neg (mt source.1 bad), fun src bad => ?_, fun src dst nonempty capacity below above => ?_⟩
  · exact (if_pos (source.2 src)).trans (if_neg (mt destination.1 bad))
  · have overlap := (regionsOverlap_iff r).2 ⟨nonempty, capacity, below, above⟩
    exact (if_pos (source.2 src)).trans ((if_pos (destination.2 dst)).trans (if_pos overlap))

/-- Past its first checks UNGLAZE ends in the header's error. -/
theorem exec_unglaze_of_badHeader {s : State} {outLen info : Nat} (pass : RegionsPass s)
    (header : glazeHeader s = .error (outLen, info)) :
    exec .unglaze s = glazeFailsWith s 7 (BitVec.ofNat 32 info) (BitVec.ofNat 32 outLen) 0 := by
  rw [exec, execUnglaze, checkRegions_fit _ _ _ pass.fits, if_neg pass.not_overlap, header]
  rfl

/-- Past its first checks and with a valid header UNGLAZE is its decode loop. -/
theorem exec_unglaze_of_header {s : State} {g : GlazeDecode} (pass : RegionsPass s) (header : glazeHeader s = .ok g) :
    exec .unglaze s = glazeLoop (g.outLen + 1) { s with glaze := some g } := by
  rw [exec, execUnglaze, checkRegions_fit _ _ _ pass.fits, if_neg pass.not_overlap, header]

/-! ## The header (45_glaze.md R233, R234) -/

/-- The length field at offset `p` of the stream (R231). -/
def headerField (s : State) (p : Nat) : Nat := (load32 s.regs.ctrl.endian s.mem (s.regs.addr.toNat + p)).toNat

/-- The end of the bitstream, as an offset. -/
def headerBitstreamEnd (s : State) : Nat := 8 + headerField s 4

/-- The end of the dictionary, as an offset. -/
def headerDictEnd (s : State) : Nat := headerBitstreamEnd s + 4 + headerField s (headerBitstreamEnd s)

/-- The end of the length table, as an offset. -/
def headerTableEnd (s : State) : Nat := headerDictEnd s + 4 + headerField s (headerDictEnd s)

/-- The cursors at the start of the regions that the header names (R234). -/
def headerCursors (s : State) : GlazeDecode where
  outLen := headerField s 0
  bitPos := 64
  bitEnd := 8 * headerBitstreamEnd s
  dictPos := headerBitstreamEnd s + 4
  dictEnd := headerDictEnd s
  ltPos := headerDictEnd s + 4
  ltEnd := headerTableEnd s
  pos := 0

/-- The header validation as the chain of its comparisons. -/
theorem glazeHeader_eq (s : State) :
    glazeHeader s =
      if s.regs.len.toNat < 8 then .error (0, 8)
      else if s.regs.len.toNat < headerBitstreamEnd s + 4 then .error (headerField s 0, headerBitstreamEnd s + 4)
      else if s.regs.len.toNat < headerDictEnd s + 4 then .error (headerField s 0, headerDictEnd s + 4)
      else if s.regs.len.toNat < headerTableEnd s then .error (headerField s 0, headerTableEnd s)
      else if s.regs.dstCap.toNat < headerField s 0 then .error (headerField s 0, headerField s 0)
      else .ok (headerCursors s) := rfl

/-- A valid header gives its cursors. -/
theorem glazeHeader_of_valid {s : State} (table : headerTableEnd s ≤ s.regs.len.toNat)
    (capacity : headerField s 0 ≤ s.regs.dstCap.toNat) : glazeHeader s = .ok (headerCursors s) := by
  have dict : headerDictEnd s + 4 ≤ headerTableEnd s := Nat.le_add_right ..
  have bitstream : headerBitstreamEnd s + 4 ≤ headerDictEnd s := Nat.le_add_right ..
  have lengths : 8 ≤ headerBitstreamEnd s := Nat.le_add_right ..
  rw [glazeHeader_eq]
  iterate 5 rw [if_neg (by omega)]

/-- A header without an error gave its cursors, and the destination holds the declared output. -/
theorem headerCursors_of_ok {s : State} {g : GlazeDecode} (header : glazeHeader s = .ok g) :
    g = headerCursors s ∧ headerField s 0 ≤ s.regs.dstCap.toNat := by
  rw [glazeHeader_eq] at header
  iterate 5
    split at header
    · cases header
  next capacity =>
    cases header
    exact ⟨rfl, Nat.not_lt.1 capacity⟩

/-! ## The ends of the decode loop (45_glaze.md R250) -/

section LoopEnds
variable {s t : State} {g : GlazeDecode} {m : Memory} {pos : Nat}

theorem LoopEnded.mem_eq (ended : LoopEnded s g t m pos) : t.mem = m := by
  rcases ended.ends with ⟨rfl, -⟩ | ⟨c, -, rfl⟩ <;> rfl

theorem LoopEnded.glzOutLen_eq (ended : LoopEnded s g t m pos) : t.regs.glzOutLen = BitVec.ofNat 32 g.outLen := by
  rcases ended.ends with ⟨rfl, -⟩ | ⟨c, -, rfl⟩ <;> rfl

/-- A loop that did not begin past the declared length completes exactly there, or raises one of three errors. -/
theorem LoopEnded.completed_or_raised (ended : LoopEnded s g t m pos) (start : g.pos ≤ g.outLen) :
    t = completeCommand (glazeResults g.outLen g.outLen { s with mem := m })
    ∨ ∃ c info u, (c = .glzOp ∨ c = .glzOvf ∨ c = .glzDist) ∧ t = raiseError c info u := by
  rcases ended.ends with ⟨completed, reached⟩ | ⟨c, named, raised⟩
  · have bounded := ended.bounded
    obtain rfl : pos = g.outLen := by omega
    exact .inl completed
  · exact .inr ⟨c, _, _, named, raised⟩

end LoopEnds

/-- The numbers of the decode loop's errors (60_exceptions.md R285). -/
theorem loopError_number {c : ErrorCode} (named : c = .glzOp ∨ c = .glzOvf ∨ c = .glzDist) :
    (errorNumber c).toNat ∈ [8, 9, 10] := by
  rcases named with rfl | rfl | rfl <;> decide

/-- Settles O33: the header is the chain of comparisons its statement writes, and past it the loop raises no size
error. -/
theorem unglazeValidatesItsHeader : Obligations.UnglazeValidatesItsHeader := by
  intro s r L field outLen bsEnd dictEnd ltEnd fails accepted source destination apart
  have pass : RegionsPass s := ⟨source, destination, apart⟩
  have bad {o info : Nat} (header : glazeHeader s = .error (o, info)) : fails o info :=
    exec_unglaze_of_badHeader pass header
  split
  · next short => exact bad (if_pos short)
  next h1 =>
  split
  · next short => exact bad ((if_neg h1).trans (if_pos short))
  next h2 =>
  split
  · next short => exact bad ((if_neg h1).trans ((if_neg h2).trans (if_pos short)))
  next h3 =>
  split
  · next short => exact bad ((if_neg h1).trans ((if_neg h2).trans ((if_neg h3).trans (if_pos short))))
  next h4 =>
  split
  · next small =>
    exact bad ((if_neg h1).trans ((if_neg h2).trans ((if_neg h3).trans ((if_neg h4).trans (if_pos small)))))
  next h5 =>
  have header : glazeHeader s = .ok (headerCursors s) := glazeHeader_of_valid (Nat.not_lt.1 h4) (Nat.not_lt.1 h5)
  obtain ⟨t, m, pos, looped, ended⟩ :=
    glazeLoop_ends (headerField s 0 + 1) { s with glaze := some (headerCursors s) } (headerCursors s) rfl
      (Nat.lt_succ_of_le (Nat.sub_le ..))
  refine ⟨t, (exec_unglaze_of_header pass header).trans looped, ended.glzOutLen_eq, ?_⟩
  obtain ⟨-, -, -, noCode, -⟩ := accepted
  rcases ended.completed_or_raised (Nat.zero_le _) with rfl | ⟨c, info, u, named, rfl⟩
  · exact fun seven => absurd (noCode.symm.trans seven) (by decide)
  · have number : (errorNumber c).toNat ∈ [8, 9, 10] := loopError_number named
    exact fun (seven : errorNumber c = 7) => absurd (seven ▸ number) (by decide)

/-- What UNGLAZE leaves (R241, R250): a success with the whole declared output, or one of its errors. -/
def UnglazeEnd (t : State) : Prop :=
  t.regs.status.busy = false ∧ t.regs.status.done = true ∧ t.glaze = none
    ∧ (t.regs.status.err = false → t.regs.status.errCode = 0 ∧ t.regs.glzPos = t.regs.glzOutLen)
    ∧ (t.regs.status.err = true → t.regs.status.errCode.toNat ∈ [4, 5, 7, 8, 9, 10])

theorem UnglazeEnd.raised {c : ErrorCode} (named : (errorNumber c).toNat ∈ [4, 5, 7, 8, 9, 10]) (info : Word)
    (s : State) : UnglazeEnd (raiseError c info s) := ⟨rfl, rfl, rfl, nofun, fun _ => named⟩

theorem UnglazeEnd.completed {s : State} (noErr : s.regs.status.err = false) (noCode : s.regs.status.errCode = 0)
    (n : Nat) : UnglazeEnd (completeCommand (glazeResults n n s)) :=
  ⟨rfl, rfl, rfl, fun _ => ⟨noCode, rfl⟩, fun err => absurd (noErr.symm.trans err) (by decide)⟩

/-- Settles O34: UNGLAZE raises before its loop, or its loop ends at the declared length or raises. -/
theorem unglazeAlwaysEnds : Obligations.UnglazeAlwaysEnds := by
  rintro s ⟨-, -, noErr, noCode, -⟩
  show ∃ t, execUnglaze s = .next t ∧ UnglazeEnd t
  rcases execUnglaze_cases s with
    ⟨c, info, named, ends⟩ | ⟨outLen, info, -, ends⟩ | ⟨g, t, m, pos, header, -, -, ends, ended⟩
  · refine ⟨_, ends, .raised ?_ _ _⟩
    rcases named with rfl | rfl <;> decide
  · exact ⟨_, ends, .raised (by decide) _ _⟩
  · obtain ⟨rfl, -⟩ := headerCursors_of_ok header
    refine ⟨t, ends, ?_⟩
    rcases ended.completed_or_raised (Nat.zero_le _) with rfl | ⟨c, info, u, named, rfl⟩
    · exact .completed noErr noCode _
    · exact .raised (List.mem_of_mem_drop (i := 3) (loopError_number named)) _ _

/-- Settles O35: an error before the loop writes nothing, and the loop writes from `DST` up to the output position, which
stays within the declared length and so within the capacity, apart from the source. -/
theorem unglazeWritesOnlyTheDeclaredOutput : Obligations.UnglazeWritesOnlyTheDeclaredOutput := by
  intro s t ran
  suffices h : sameOutside s.mem t.mem s.regs.dst.toNat (min s.regs.dstCap.toNat (headerField s 0))
      ∧ (t.mem = s.mem ∨ regionsOverlap s.regs = false) by
    obtain ⟨outside, apart⟩ := h
    refine ⟨outside, fun k hk => ?_⟩
    rcases apart with same | apart
    · rw [same]
    · refine outside _ fun inside => ?_
      have overlap : regionsOverlap s.regs = true := by
        rw [regionsOverlap_iff]
        refine ⟨?_, ?_, by omega, by omega⟩ <;> bv_omega
      exact absurd (apart.symm.trans overlap) (by decide)
  rcases execUnglaze_cases s with
    ⟨c, info, -, ends⟩ | ⟨outLen, info, -, ends⟩ | ⟨g, u, m, pos, header, apart, -, ends, ended⟩
  all_goals cases ends.symm.trans ran
  · exact ⟨fun _ _ => rfl, .inl rfl⟩
  · exact ⟨fun _ _ => rfl, .inl rfl⟩
  · obtain ⟨rfl, capacity⟩ := headerCursors_of_ok header
    have bounded : pos ≤ max 0 (headerField s 0) := ended.bounded
    rw [ended.mem_eq]
    refine ⟨fun b hb => ended.outside b ?_, .inr apart⟩
    show ¬(s.regs.dst.toNat + 0 ≤ b ∧ b < s.regs.dst.toNat + 0 + (pos - 0))
    omega

end Sys2Proof.Machine
end

section
/-! SUPPORT. The decode loop of UNGLAZE (45_glaze.md R241) one turn at a time, and as the iteration of the engine's turns in
states with cursors standing (logs 9 and 19). -/

namespace Sys2Proof.Machine

/-! ## One turn of the loop -/

section LoopTurn
variable {s t u : State} {g : GlazeDecode} {i : Instr}

/-- Once the cursors are gone, the loop stays where it is. -/
theorem glazeLoop_of_none (gone : s.glaze = none) (turns : Nat) : glazeLoop turns s = .next s := by
  cases turns with
  | zero => rfl
  | succ turns => rw [glazeLoop, gone]

theorem glazeLoop_of_ended (cursors : Decodes s g) (fetched : fetchGlaze g s = .ended t) (turns : Nat) :
    glazeLoop (turns + 1) s = .next t := by
  simp only [glazeLoop, cursors, fetched]

theorem glazeLoop_of_run (cursors : Decodes s g) (fetched : fetchGlaze g s = .run i u) (op : isGlazeOp i = true)
    (ran : exec i u = .next t) (turns : Nat) : glazeLoop (turns + 1) s = glazeLoop turns t := by
  simp only [glazeLoop, cursors, fetched, runGlazeOp_eq_exec i u op, ran]

end LoopTurn

/-! ## Turns in a row -/

theorem SameModelFields.refl (s : State) : SameModelFields s s := ⟨rfl, rfl, rfl, rfl, rfl⟩

theorem SameModelFields.trans {s t u : State} (h : SameModelFields s t) (h' : SameModelFields t u) :
    SameModelFields s u :=
  ⟨h'.impl.trans h.impl, h'.spoiled.trans h.spoiled, h'.freeCount.trans h.freeCount, h'.readData.trans h.readData,
    h'.agenda.trans h.agenda⟩

theorem SameModelFields.engineNext {s t : State} (h : SameModelFields s t) (next : EngineNext s) : EngineNext t :=
  have ⟨agenda, unspoiled⟩ := next
  ⟨h.agenda.trans agenda, h.spoiled.trans unspoiled⟩

/-- The first state, and then the others. -/
def stateThen (s : State) (states : Nat → State) : Nat → State
  | 0 => s
  | k + 1 => states k

/-- The states of a decoding from `state 0` to its end: each turn fetches and runs an operation, or is the last and ends
the command, and the cursors stand until then. -/
structure DecodingTurns (turns : Nat) (state : Nat → State) : Prop where
  turn : ∀ k < turns,
    (∃ i u, fetch (state k) = .run i u ∧ isGlazeOp i = true ∧ exec i u = .next (state (k + 1)))
    ∨ (fetch (state k) = .ended (state (k + 1)) ∧ k + 1 = turns)
  cursors : ∀ k < turns, (state k).glaze ≠ none
  frame : ∀ k ≤ turns, SameModelFields (state 0) (state k)
  gone : (state turns).glaze = none

namespace DecodingTurns
variable {s t u : State} {g : GlazeDecode} {i : Instr} {turns : Nat} {state : Nat → State}

/-- Nothing to do once the cursors are gone. -/
theorem done (gone : t.glaze = none) : DecodingTurns 0 fun _ => t where
  turn _ hk := absurd hk (Nat.not_lt_zero _)
  cursors _ hk := absurd hk (Nat.not_lt_zero _)
  frame _ _ := .refl t
  gone := gone

/-- A first turn before the others. -/
theorem cons (cursors : Decodes s g) (frame : SameModelFields s (state 0))
    (turn : (∃ i u, fetchGlaze g s = .run i u ∧ isGlazeOp i = true ∧ exec i u = .next (state 0))
      ∨ (fetchGlaze g s = .ended (state 0) ∧ turns = 0))
    (rest : DecodingTurns turns state) : DecodingTurns (turns + 1) (stateThen s state) where
  turn
    | 0, _ => by
      rw [stateThen, fetch_of_cursors cursors]
      exact turn.imp_right fun ⟨ended, last⟩ => ⟨ended, by rw [last]⟩
    | k + 1, hk => (rest.turn k (Nat.lt_of_succ_lt_succ hk)).imp_right fun ⟨ended, last⟩ => ⟨ended, by rw [last]⟩
  cursors
    | 0, _ => by simp [stateThen, cursors]
    | k + 1, hk => rest.cursors k (Nat.lt_of_succ_lt_succ hk)
  frame
    | 0, _ => .refl s
    | k + 1, hk => frame.trans (rest.frame k (Nat.le_of_succ_le_succ hk))
  gone := rest.gone

/-- Where the agenda leaves the engine to move, its steps are these turns. -/
theorem step_eq (h : DecodingTurns turns state) {k : Nat} (hk : k < turns) (next : EngineNext (state 0)) :
    step (state k) = .next (state (k + 1)) := by
  rw [step_of_engineNext ((h.frame k (Nat.le_of_lt hk)).engineNext next)]
  rcases h.turn k hk with ⟨i, u, fetched, -, ran⟩ | ⟨ended, -⟩
  · exact (engineTurn_of_run fetched).trans ran
  · exact engineTurn_of_ended ended

end DecodingTurns

/-- The loop is its turns: with one for every output byte still to come and one to end, it ends where they end. -/
theorem glazeLoop_decodingTurns (n : Nat) (s : State) (g : GlazeDecode) (cursors : Decodes s g)
    (enough : g.outLen - g.pos < n) :
    ∃ turns state, turns ≤ n ∧ state 0 = s ∧ DecodingTurns turns state ∧ glazeLoop n s = .next (state turns) := by
  induction n generalizing s g with
  | zero => omega
  | succ n ih =>
    have endsNow {t : State} (fetched : fetchGlaze g s = .ended t) (frame : SameModelFields s t)
        (gone : t.glaze = none) :
        ∃ turns state, turns ≤ n + 1 ∧ state 0 = s ∧ DecodingTurns turns state
          ∧ glazeLoop (n + 1) s = .next (state turns) :=
      ⟨1, stateThen s fun _ => t, Nat.le_add_left .., rfl,
        .cons cursors frame (.inr ⟨fetched, rfl⟩) (.done gone), glazeLoop_of_ended cursors fetched n⟩
    rcases fetchGlaze_cases g s with ⟨-, reached⟩ | ⟨-, c, -, failed⟩ | ⟨unfinished, i, rest, decoded, fetched⟩
    · exact endsNow reached ⟨rfl, rfl, rfl, rfl, rfl⟩ rfl
    · exact endsNow failed ⟨rfl, rfl, rfl, rfl, rfl⟩ rfl
    · have op := decodeGlaze_isGlazeOp decoded
      generalize g.bitPos + ((upcomingBits g s).length - rest.length) = bitPos at fetched
      rcases execGlaze_cases i { s with glaze := some { g with bitPos := bitPos } } _ op rfl with
        ⟨c, -, raised⟩ | ⟨m, g', ran, grew⟩
      · refine ⟨1, stateThen s fun _ => raiseGlaze c { g with bitPos := bitPos } _, Nat.le_add_left .., rfl,
          .cons cursors ⟨rfl, rfl, rfl, rfl, rfl⟩ (.inl ⟨i, _, fetched, op, raised⟩) (.done rfl), ?_⟩
        exact (glazeLoop_of_run cursors fetched op raised n).trans (glazeLoop_of_none rfl n)
      · have grows : g.pos < g'.pos := grew.grows
        have outLen : g'.outLen = g.outLen := grew.outLen
        obtain ⟨turns, state, few, start, states, loops⟩ :=
          ih { s with mem := m, glaze := some g' } g' rfl (by omega)
        refine ⟨turns + 1, stateThen s state, Nat.succ_le_succ few, rfl, .cons cursors ?_ (.inl ?_) states, ?_⟩
        · rw [start]
          exact ⟨rfl, rfl, rfl, rfl, rfl⟩
        · exact ⟨i, _, fetched, op, by rw [start]; exact ran⟩
        · exact (glazeLoop_of_run cursors fetched op ran n).trans loops

/-- Settles O60: a valid header starts the loop at its cursors, and the loop is its turns. -/
theorem unglazeIteratesFetchAndExec : Obligations.UnglazeIteratesFetchAndExec := by
  intro s r field bsEnd dictEnd ltEnd source destination apart long bitstream dict table capacity
  have pass : RegionsPass s := ⟨source, destination, apart⟩
  have header : glazeHeader s = .ok (headerCursors s) := glazeHeader_of_valid table capacity
  obtain ⟨turns, state, few, start, states, loops⟩ :=
    glazeLoop_decodingTurns (field 0 + 1) { s with glaze := some (headerCursors s) } (headerCursors s) rfl
      (Nat.lt_succ_of_le (Nat.sub_le ..))
  refine ⟨turns, state, few, start, fun k hk => ⟨states.turn k hk, states.cursors k hk, fun next => ?_⟩, states.gone,
    (exec_unglaze_of_header pass header).trans loops⟩
  exact states.step_eq hk (by rwa [start])

end Sys2Proof.Machine
end

section
/-! SUPPORT. A stream in memory (45_glaze.md R230, R231, R235): bytes that stand at an address, the fields and bits of the
stream that the host has put there, and the header they make. -/

namespace Sys2Proof.Machine

/-! ## Bytes that stand in memory -/

/-- The bytes stand in memory one after another from address `a` up. -/
def StandsAt (m : Memory) (a : Nat) (bytes : List Byte) : Prop := ∀ k < bytes.length, m.read (a + k) = bytes.getD k 0

theorem standsAt_append {m : Memory} {a : Nat} {xs ys : List Byte} :
    StandsAt m a (xs ++ ys) ↔ StandsAt m a xs ∧ StandsAt m (a + xs.length) ys := by
  constructor
  · refine fun h => ⟨fun k hk => ?_, fun k hk => ?_⟩
    · rw [h k (by rw [List.length_append]; omega), List.getD_append _ _ _ _ hk]
    · rw [Nat.add_assoc, h _ (by rw [List.length_append]; omega),
        List.getD_append_right _ _ _ _ (Nat.le_add_right ..), Nat.add_sub_cancel_left]
  · rintro ⟨first, second⟩ k hk
    rw [List.length_append] at hk
    rcases Nat.lt_or_ge k xs.length with before | after
    · rw [first k before, List.getD_append _ _ _ _ before]
    · rw [List.getD_append_right _ _ _ _ after, ← second (k - xs.length) (by omega)]
      congr 1
      omega

theorem StandsAt.readBytes_eq {m : Memory} {a : Nat} {bytes : List Byte} (h : StandsAt m a bytes) :
    m.readBytes a bytes.length = bytes := by
  refine List.ext_getElem (Memory.readBytes_length ..) fun k _ hk => ?_
  simp only [Memory.readBytes, List.getElem_map, List.getElem_range]
  rw [h k hk, List.getD_eq_getElem _ _ hk]

/-- Bytes stay where nothing is written. -/
theorem StandsAt.of_sameOutside {m m' : Memory} {a b n : Nat} {bytes : List Byte} (h : StandsAt m a bytes)
    (same : sameOutside m m' b n) (apart : a + bytes.length ≤ b ∨ b + n ≤ a) : StandsAt m' a bytes := fun k hk =>
  (same _ (by omega)).trans (h k hk)

theorem Memory.writeBytes_append (m : Memory) (a : Nat) (xs ys : List Byte) :
    m.writeBytes a (xs ++ ys) = (m.writeBytes a xs).writeBytes (a + xs.length) ys := by
  induction xs generalizing m a with
  | nil => rfl
  | cons x xs ih =>
    rw [List.cons_append, Memory.writeBytes, Memory.writeBytes, ih, List.length_cons, Nat.add_assoc, Nat.add_comm 1]

/-! ## Length fields (45_glaze.md R231) -/

theorem wordBytes_length (bigEndian : Bool) (v : Word) : (wordBytes bigEndian v).length = 4 := by
  cases bigEndian <;> rfl

/-- A word is its four bytes, the most significant first. -/
theorem bytes_append_eq (v : Word) :
    v.extractLsb' 24 8 ++ v.extractLsb' 16 8 ++ v.extractLsb' 8 8 ++ v.extractLsb' 0 8 = v := by
  apply BitVec.eq_of_toNat_eq
  simp only [toNat_append_eq_add, BitVec.extractLsb'_toNat, Nat.shiftRight_eq_div_pow]
  omega

/-- A length field reads back, in either byte order. -/
theorem load32_of_standsAt {bigEndian : Bool} {m : Memory} {a : Nat} {v : Word}
    (h : StandsAt m a (wordBytes bigEndian v)) : load32 bigEndian m a = v := by
  have byte (k : Nat) (hk : k < 4) := h k (by rwa [wordBytes_length])
  have first : m.read a = (wordBytes bigEndian v).getD 0 0 := byte 0 (by decide)
  rw [load32, first, byte 1 (by decide), byte 2 (by decide), byte 3 (by decide)]
  cases bigEndian <;> exact bytes_append_eq v

/-! ## The bitstream (45_glaze.md R235) -/

/-- Bits put one after another at different places of a byte. -/
theorem getLsbD_foldl_putBit (place : Nat → Nat) (bit : Nat → Bool) {n k : Nat} (hk : k < n)
    (inByte : ∀ j < n, place j < 8) (distinct : ∀ i < n, ∀ j < n, place i = place j → i = j) :
    ((List.range n).foldl (fun x j => putBit x (place j) (bit j)) 0).getLsbD (place k) = bit k := by
  induction n with
  | zero => omega
  | succ n ih =>
    rw [List.range_succ, List.foldl_append, List.foldl_cons, List.foldl_nil, getLsbD_putBit _ _ _ _ (inByte k hk)]
    split
    · next same => rw [distinct k hk n (Nat.lt_succ_self n) same]
    · next other =>
      have before : k < n := Nat.lt_of_le_of_ne (Nat.le_of_lt_succ hk) fun same => other (by rw [same])
      exact ih before (fun j hj => inByte j (by omega)) fun i hi j hj => distinct i (by omega) j (by omega)

theorem getLsbD_packByte (lsbFirst : Bool) (bits : List Bool) {k : Nat} (hk : k < 8) :
    (packByte lsbFirst bits).getLsbD (if lsbFirst then k else 7 - k) = bits.getD k false := by
  cases lsbFirst with
  | true => exact getLsbD_foldl_putBit id (bits.getD · false) hk (fun _ hj => hj) fun _ _ _ _ same => same
  | false =>
    exact getLsbD_foldl_putBit (7 - ·) (bits.getD · false) hk (fun j _ => by omega) fun i hi j hj same => by omega

theorem packBits_length (lsbFirst : Bool) (count : Nat) (bits : List Bool) :
    (packBits lsbFirst count bits).length = count := by
  induction count generalizing bits with
  | zero => rfl
  | succ count ih => rw [packBits, List.length_cons, ih]

theorem packBits_getD (lsbFirst : Bool) {count j : Nat} (bits : List Bool) (hj : j < count) :
    (packBits lsbFirst count bits).getD j 0 = packByte lsbFirst ((bits.drop (8 * j)).take 8) := by
  induction count generalizing j bits with
  | zero => omega
  | succ count ih =>
    cases j with
    | zero => rfl
    | succ j =>
      rw [packBits, List.getD_cons_succ, ih _ (Nat.lt_of_succ_lt_succ hj), List.drop_drop, Nat.mul_succ, Nat.add_comm 8]

/-- The stream's bits are those the host packed, in either bit order. -/
theorem streamBit_of_standsAt {s : State} {offset count k : Nat} {bits : List Bool} (hk : k < 8 * count)
    (h : StandsAt s.mem (s.regs.addr.toNat + offset) (packBits s.regs.ctrl.glzLsbf count bits)) :
    streamBit s (8 * offset + k) = bits.getD k false := by
  have inside : k / 8 < count := by omega
  have byte : (8 * offset + k) / 8 = offset + k / 8 := by omega
  have bit : (8 * offset + k) % 8 = k % 8 := by omega
  have position : 8 * (k / 8) + k % 8 = k := by omega
  rw [streamBit, byte, bit, ← Nat.add_assoc, h _ (by rwa [packBits_length]), packBits_getD _ _ inside,
    getLsbD_packByte _ _ (Nat.mod_lt _ (by decide)), List.getD_eq_getElem?_getD,
    List.getElem?_take_of_lt (Nat.mod_lt _ (by decide)), List.getElem?_drop, position, List.getD_eq_getElem?_getD]

/-! ## A whole stream (45_glaze.md R230, R234) -/

theorem streamImage_length (bigEndian : Bool) (outLen : Word) (bitstream dict table : List Byte) :
    (streamImage bigEndian outLen bitstream dict table).length =
      8 + bitstream.length + 4 + dict.length + 4 + table.length := by
  simp only [streamImage, List.length_append, wordBytes_length]

/-- Where the parts of a stream at `ADDR` stand, as the header tells them. -/
structure StreamStands (s : State) (outLen : Nat) (bitstream dict table : List Byte) : Prop where
  outLen_eq : headerField s 0 = outLen
  bitstreamEnd_eq : headerBitstreamEnd s = 8 + bitstream.length
  dictEnd_eq : headerDictEnd s = 8 + bitstream.length + 4 + dict.length
  tableEnd_eq : headerTableEnd s = 8 + bitstream.length + 4 + dict.length + 4 + table.length
  bitstream_stands : StandsAt s.mem (s.regs.addr.toNat + 8) bitstream
  dict_stands : StandsAt s.mem (s.regs.addr.toNat + (8 + bitstream.length + 4)) dict
  table_stands : StandsAt s.mem (s.regs.addr.toNat + (8 + bitstream.length + 4 + dict.length + 4)) table

theorem headerField_of_standsAt {s : State} {p n : Nat} (small : n < 2 ^ 32)
    (h : StandsAt s.mem (s.regs.addr.toNat + p) (wordBytes s.regs.ctrl.endian (BitVec.ofNat 32 n))) :
    headerField s p = n := by
  rw [headerField, load32_of_standsAt h, BitVec.toNat_ofNat, Nat.mod_eq_of_lt small]

/-- A stream that the host has written is read as written. -/
theorem streamStands_of_image {s : State} {outLen : Nat} {bitstream dict table : List Byte} (small : outLen < 2 ^ 32)
    (length : 8 + bitstream.length + 4 + dict.length + 4 + table.length < 2 ^ 32)
    (stands : StandsAt s.mem s.regs.addr.toNat
      (streamImage s.regs.ctrl.endian (BitVec.ofNat 32 outLen) bitstream dict table)) :
    StreamStands s outLen bitstream dict table := by
  simp only [streamImage, standsAt_append, List.length_append, wordBytes_length] at stands
  obtain ⟨⟨⟨⟨⟨⟨field0, field1⟩, bitstream_stands⟩, field2⟩, dict_stands⟩, field3⟩, table_stands⟩ := stands
  have bitstreamEnd : headerBitstreamEnd s = 8 + bitstream.length :=
    congrArg (8 + ·) (headerField_of_standsAt (by omega) field1)
  have dictEnd : headerDictEnd s = 8 + bitstream.length + 4 + dict.length := by
    rw [headerDictEnd, bitstreamEnd, headerField_of_standsAt (by omega) field2]
  refine ⟨headerField_of_standsAt small field0, bitstreamEnd, dictEnd, ?_, bitstream_stands, dict_stands, table_stands⟩
  rw [headerTableEnd, dictEnd, headerField_of_standsAt (by omega) field3]

end Sys2Proof.Machine
end

section
/-! SUPPORT. The literal-only stream of the host (45_glaze.md R255, R256): the decoding of a run of literal operations, the
blocks of the host's encoder, and UNGLAZE on the stream they make. -/

namespace Sys2Proof.Machine

/-! ## The code at the cursor -/

/-- Bits of the stream at the cursor are the first that the decoder sees. -/
theorem exists_upcomingBits_eq {s : State} {g : GlazeDecode} {code : List Bool}
    (bits : ∀ k < code.length, streamBit s (g.bitPos + k) = code.getD k false) (short : code.length ≤ maxGlazeBits)
    (inside : g.bitPos + code.length ≤ g.bitEnd) : ∃ rest, upcomingBits g s = code ++ rest := by
  have first : (upcomingBits g s).take code.length = code := by
    refine List.ext_getElem? fun k => ?_
    rcases Nat.lt_or_ge k code.length with hk | hk
    · rw [List.getElem?_take_of_lt hk, upcomingBits_getElem? g s (hk.trans_le short), if_pos (by omega), bits k hk,
        List.getD_eq_getElem _ _ hk, List.getElem?_eq_getElem hk]
    · rw [List.getElem?_take_eq_none hk, List.getElem?_eq_none hk]
  have split := List.take_append_drop code.length (upcomingBits g s)
  rw [first] at split
  exact ⟨_, split.symm⟩

theorem streamBit_congr {s t : State} {b : Nat} (regs : t.regs = s.regs)
    (same : t.mem.read (s.regs.addr.toNat + b / 8) = s.mem.read (s.regs.addr.toNat + b / 8)) :
    streamBit t b = streamBit s b := by
  rw [streamBit, streamBit, regs, same]

/-! ## Literals still to come -/

/-- From the cursors `g` on stand the codes `bits`, the dictionary bytes `dict`, which complete the declared output, and the
length-table bytes `table`, in a source that the output does not touch. -/
structure LiteralsAhead (s : State) (g : GlazeDecode) (bits : List Bool) (dict table : List Byte) : Prop where
  bits_stand : ∀ k < bits.length, streamBit s (g.bitPos + k) = bits.getD k false
  bits_inside : g.bitPos + bits.length ≤ g.bitEnd
  dict_stands : StandsAt s.mem (s.regs.addr.toNat + g.dictPos) dict
  dict_ends : g.dictPos + dict.length = g.dictEnd
  table_stands : StandsAt s.mem (s.regs.addr.toNat + g.ltPos) table
  table_ends : g.ltPos + table.length = g.ltEnd
  output_left : g.pos + dict.length = g.outLen
  in_source : g.bitEnd ≤ 8 * s.regs.len.toNat ∧ g.dictEnd ≤ s.regs.len.toNat ∧ g.ltEnd ≤ s.regs.len.toNat
  apart : s.regs.dst.toNat + g.outLen ≤ s.regs.addr.toNat ∨ s.regs.addr.toNat + s.regs.len.toNat ≤ s.regs.dst.toNat

/-- The cursors once an operation's code is read. -/
abbrev cursorsPastCode (g : GlazeDecode) (code : Nat) : GlazeDecode := { g with bitPos := g.bitPos + code }

/-- The cursors past a literal operation: its code's bits, its output's bytes and its length-table bytes further. -/
def cursorsPast (g : GlazeDecode) (code out used : Nat) : GlazeDecode :=
  { g with bitPos := g.bitPos + code, dictPos := g.dictPos + out, ltPos := g.ltPos + used, pos := g.pos + out }

/-- The state past a literal operation that emits the bytes `out`. -/
def statePast (s : State) (g : GlazeDecode) (code : Nat) (out : List Byte) (used : Nat) : State :=
  { s with
    mem := s.mem.writeBytes (s.regs.dst.toNat + g.pos) out
    glaze := some (cursorsPast g code out.length used) }

/-- UNGLAZE's end when the dictionary bytes `dict` complete its declared output. -/
def literalEnd (s : State) (g : GlazeDecode) (dict : List Byte) : State :=
  completeCommand
    (glazeResults g.outLen g.outLen { s with mem := s.mem.writeBytes (s.regs.dst.toNat + g.pos) dict })

theorem literalEnd_statePast (s : State) (g : GlazeDecode) (code used : Nat) (out rest : List Byte) :
    literalEnd (statePast s g code out used) (cursorsPast g code out.length used) rest =
      literalEnd s g (out ++ rest) := by
  rw [literalEnd, literalEnd, Memory.writeBytes_append, Nat.add_assoc]
  rfl

namespace LiteralsAhead
variable {s : State} {g : GlazeDecode} {code bits : List Bool} {out rest used table : List Byte}

/-- What an operation leaves ahead. -/
theorem past (h : LiteralsAhead s g (code ++ bits) (out ++ rest) (used ++ table)) :
    LiteralsAhead (statePast s g code.length out used.length) (cursorsPast g code.length out.length used.length)
      bits rest table := by
  obtain ⟨bits_stand, bits_inside, dict_stands, dict_ends, table_stands, table_ends, output_left, in_source, apart⟩ := h
  simp only [List.length_append] at bits_stand bits_inside dict_ends table_ends output_left
  obtain ⟨bits_in, dict_in, table_in⟩ := in_source
  have written := Memory.read_writeBytes_outside out s.mem (s.regs.dst.toNat + g.pos)
  have dict := (standsAt_append.1 dict_stands).2
  have lengths := (standsAt_append.1 table_stands).2
  rw [Nat.add_assoc] at dict lengths
  refine ⟨fun k hk => ?_, ?_, dict.of_sameOutside written (by omega), ?_, lengths.of_sameOutside written (by omega),
    ?_, ?_, ⟨bits_in, dict_in, table_in⟩, apart⟩
  · have bit := bits_stand (code.length + k) (Nat.add_lt_add_left hk _)
    rw [← Nat.add_assoc, List.getD_append_right _ _ _ _ (Nat.le_add_right ..), Nat.add_sub_cancel_left] at bit
    have same : streamBit (statePast s g code.length out used.length) (g.bitPos + code.length + k)
        = streamBit s (g.bitPos + code.length + k) := streamBit_congr rfl (written _ (by omega))
    exact same.trans bit
  all_goals dsimp only [cursorsPast]
  all_goals omega

theorem unfinished (h : LiteralsAhead s g bits out table) (nonempty : out ≠ []) : g.pos < g.outLen := by
  have left := h.output_left
  have := List.length_pos_iff.2 nonempty
  omega

/-- A turn that fetches an operation by its code and runs it, and then the rest. -/
theorem glazeLoop_eq (h : LiteralsAhead s g (code ++ bits) (out ++ rest) (used ++ table)) (cursors : Decodes s g)
    {i : Instr} (op : isGlazeOp i = true) (wf : i.wellFormed = true) (encoded : encode i = .bits code)
    (nonempty : out ≠ [])
    (ran : exec i { s with glaze := some (cursorsPastCode g code.length) } =
      .next (statePast s g code.length out used.length)) {turns : Nat}
    (later : ∀ s' g', LiteralsAhead s' g' bits rest table → Decodes s' g' →
      glazeLoop turns s' = .next (literalEnd s' g' rest)) :
    glazeLoop (turns + 1) s = .next (literalEnd s g (out ++ rest)) := by
  have code_stands (k : Nat) (hk : k < code.length) : streamBit s (g.bitPos + k) = code.getD k false := by
    rw [h.bits_stand k (by rw [List.length_append]; omega), List.getD_append _ _ _ _ hk]
  have inside : g.bitPos + code.length ≤ g.bitEnd := by
    have := h.bits_inside
    rw [List.length_append] at this
    omega
  obtain ⟨after, ahead⟩ := exists_upcomingBits_eq code_stands (encode_length_le wf encoded) inside
  have fetched := fetchGlaze_of_code (h.unfinished (List.append_ne_nil_of_left_ne_nil nonempty _)) op wf encoded ahead
  rw [glazeLoop_of_run cursors fetched op ran, later _ _ h.past rfl, literalEnd_statePast]

/-- The literal run of an operation emits the dictionary bytes at the cursor. -/
theorem emitLiteral_outcome_eq (h : LiteralsAhead s g bits (out ++ rest) table) (code used : Nat) :
    operationOutcome { s with glaze := some (cursorsPastCode g code) } (cursorsPastCode g code)
        (emitLiteral out.length { s with glaze := some (cursorsPastCode g code) }
          { cursorsPastCode g code with ltPos := g.ltPos + used }) =
      .next (statePast s g code out used) := by
  have dict := h.dict_ends
  have output := h.output_left
  rw [List.length_append] at dict output
  have emitted := (standsAt_append.1 h.dict_stands).1.readBytes_eq
  rw [emitLiteral_outcome (by dsimp only; omega) (by dsimp only; omega)]
  dsimp only
  rw [emitted]
  rfl

theorem exec_lit_eq {v : Byte} (h : LiteralsAhead s g bits (v :: rest) table) (code : Nat) :
    exec .lit { s with glaze := some (cursorsPastCode g code) } = .next (statePast s g code [v] 0) :=
  have emits : LiteralsAhead s g bits ([v] ++ rest) table := h
  (exec_lit (g := cursorsPastCode g code) rfl).trans (emits.emitLiteral_outcome_eq code 0)

/-- LITL emits as many bytes as the length-table byte at the cursor tells. -/
theorem exec_litl_eq {c : Byte} (h : LiteralsAhead s g bits (out ++ rest) (c :: table))
    (count : c.toNat + 14 = out.length) (code : Nat) :
    exec .litl { s with glaze := some (cursorsPastCode g code) } = .next (statePast s g code out 1) := by
  have byte : s.mem.read (s.regs.addr.toNat + g.ltPos) = c := h.table_stands 0 (Nat.succ_pos _)
  have more : g.ltPos < g.ltEnd := by
    have ends := h.table_ends
    rw [List.length_cons] at ends
    omega
  have ran := h.emitLiteral_outcome_eq code 1
  rw [← count, ← byte] at ran
  exact (exec_litl (g := cursorsPastCode g code) rfl).trans ((if_pos more).trans ran)

end LiteralsAhead

/-! ## The literal operations' loop (45_glaze.md R243, R252) -/

/-- The codes of the blocks and of `singles` further bytes. -/
def literalCodes (blocks : List Nat) (singles : Nat) : List Bool :=
  blocks.flatMap (fun _ => bytecodeCode 7) ++ List.replicate singles true

/-- The length-table bytes of the blocks (R255). -/
def blockTable (blocks : List Nat) : List Byte := blocks.map fun c => BitVec.ofNat 8 (c - 14)

/-- The length table of the host's stream for `n` bytes. -/
def literalTable (n : Nat) : List Byte := blockTable (blockSizes n n)

/-- The bitstream region of the host's stream for `n` bytes. -/
def literalBitstream (lsbFirst : Bool) (n : Nat) : List Byte :=
  packBits lsbFirst (((literalBits n).length + 7) / 8) (literalBits n)

theorem literalStream_eq (bigEndian lsbFirst : Bool) (input : List Byte) :
    literalStream bigEndian lsbFirst input =
      streamImage bigEndian (BitVec.ofNat 32 input.length) (literalBitstream lsbFirst input.length) input
        (literalTable input.length) := rfl

theorem literalBits_eq (n : Nat) : literalBits n = literalCodes (blockSizes n n) (n - (blockSizes n n).sum) := rfl

/-- `LIT`s to the end of the output: one turn each, and one that ends the command. -/
theorem glazeLoop_singles (dict : List Byte) (s : State) (g : GlazeDecode) (turns : Nat)
    (enough : dict.length < turns)
    (ahead : LiteralsAhead s g (literalCodes [] dict.length) dict []) (cursors : Decodes s g) :
    glazeLoop turns s = .next (literalEnd s g dict) := by
  induction dict generalizing s g turns with
  | nil =>
    obtain ⟨turns, rfl⟩ := Nat.exists_eq_succ_of_ne_zero (Nat.ne_of_gt enough)
    have reached : g.pos = g.outLen := ahead.output_left
    rw [glazeLoop_of_ended cursors (fetchGlaze_of_reached reached.ge), completeGlaze, reached]
    rfl
  | cons v dict ih =>
    obtain ⟨turns, rfl⟩ := Nat.exists_eq_succ_of_ne_zero (Nat.ne_zero_of_lt enough)
    have ahead' : LiteralsAhead s g (bytecodeCode 1 ++ literalCodes [] dict.length) ([v] ++ dict) ([] ++ []) := ahead
    exact ahead'.glazeLoop_eq cursors (i := .lit) rfl rfl rfl (List.cons_ne_nil v []) (ahead.exec_lit_eq _)
      fun s' g' => ih s' g' turns (Nat.lt_of_succ_lt_succ enough)

/-- `LITL`s of the block sizes, and then `LIT`s to the end of the output. -/
theorem glazeLoop_literals (blocks : List Nat) (sizes : ∀ c ∈ blocks, 14 ≤ c ∧ c ≤ 256) (dict : List Byte)
    (singles : Nat) (total : dict.length = blocks.sum + singles) (s : State) (g : GlazeDecode) (turns : Nat)
    (enough : dict.length < turns)
    (ahead : LiteralsAhead s g (literalCodes blocks singles) dict (blockTable blocks)) (cursors : Decodes s g) :
    glazeLoop turns s = .next (literalEnd s g dict) := by
  induction blocks generalizing dict s g turns with
  | nil =>
    obtain rfl : dict.length = singles := total.trans (Nat.zero_add _)
    exact glazeLoop_singles dict s g turns enough ahead cursors
  | cons c blocks ih =>
    obtain ⟨turns, rfl⟩ := Nat.exists_eq_succ_of_ne_zero (Nat.ne_zero_of_lt enough)
    obtain ⟨⟨least, most⟩, sizes⟩ := List.forall_mem_cons.1 sizes
    rw [List.sum_cons] at total
    obtain ⟨out, rest, rfl, length⟩ : ∃ out rest, dict = out ++ rest ∧ out.length = c :=
      ⟨dict.take c, dict.drop c, (List.take_append_drop ..).symm, by rw [List.length_take]; omega⟩
    rw [List.length_append] at total enough
    have ahead' : LiteralsAhead s g (bytecodeCode 7 ++ literalCodes blocks singles) (out ++ rest)
        ([BitVec.ofNat 8 (c - 14)] ++ blockTable blocks) := by
      rw [literalCodes, List.flatMap_cons, List.append_assoc] at ahead
      exact ahead
    have count : (BitVec.ofNat 8 (c - 14)).toNat + 14 = out.length := by
      rw [BitVec.toNat_ofNat]
      omega
    exact ahead'.glazeLoop_eq cursors (i := .litl) rfl rfl rfl (List.ne_nil_of_length_pos (by omega))
      (ahead'.exec_litl_eq count _) fun s' g' => ih sizes rest (by omega) s' g' turns (by omega)

/-! ## The host's blocks (45_glaze.md R255) -/

theorem blockSizes_bounds (fuel n : Nat) : ∀ c ∈ blockSizes fuel n, 14 ≤ c ∧ c ≤ 256 := by
  induction fuel generalizing n with
  | zero => exact List.forall_mem_nil _
  | succ fuel ih =>
    rw [blockSizes]
    split
    · exact List.forall_mem_cons.2 ⟨by omega, ih _⟩
    · exact List.forall_mem_nil _

theorem blockSizes_sum_le (fuel n : Nat) : (blockSizes fuel n).sum ≤ n := by
  induction fuel generalizing n with
  | zero => exact Nat.zero_le n
  | succ fuel ih =>
    rw [blockSizes]
    split
    · have := ih (n - min 256 n)
      rw [List.sum_cons]
      omega
    · exact Nat.zero_le n

/-! ## UNGLAZE on the host's stream (45_glaze.md R256) -/

/-- From the header's cursors on, the host's stream is literals. -/
theorem literalsAhead_of_stream {s : State} {input : List Byte}
    (stands : StreamStands s input.length
      (literalBitstream s.regs.ctrl.glzLsbf input.length) input (literalTable input.length))
    (table : headerTableEnd s ≤ s.regs.len.toNat)
    (apart : s.regs.dst.toNat + input.length ≤ s.regs.addr.toNat
      ∨ s.regs.addr.toNat + s.regs.len.toNat ≤ s.regs.dst.toNat) :
    LiteralsAhead { s with glaze := some (headerCursors s) } (headerCursors s) (literalBits input.length) input
      (literalTable input.length) := by
  obtain ⟨outLen, bitstreamEnd, dictEnd, tableEnd, bitstream, dict, lengths⟩ := stands
  rw [literalBitstream, packBits_length] at bitstreamEnd dictEnd tableEnd dict lengths
  refine ⟨fun k hk => ?_, ?_, ?_, ?_, ?_, ?_, ?_, ?_, ?_⟩
  · exact streamBit_of_standsAt (offset := 8) (by omega) bitstream
  all_goals dsimp only [headerCursors]
  · omega
  · rwa [bitstreamEnd]
  · omega
  · rwa [dictEnd]
  · omega
  · omega
  · omega
  · rwa [outLen]

/-- Settles O36: the stream's header passes, its bits are the host's codes, and the loop runs them block by block. -/
theorem unglazeDecodesLiteralStreams : Obligations.UnglazeDecodesLiteralStreams := by
  intro s input wf image length stands source capacity destination apart
  have stands : StandsAt s.mem s.regs.addr.toNat image := stands
  have image_eq : image = _ := literalStream_eq ..
  have imageLength := streamImage_length s.regs.ctrl.endian (BitVec.ofNat 32 input.length)
    (literalBitstream s.regs.ctrl.glzLsbf input.length) input (literalTable input.length)
  rw [← image_eq] at imageLength
  rw [image_eq] at stands
  have small : image.length < 2 ^ 32 := length ▸ s.regs.len.isLt
  have stream := streamStands_of_image (by omega) (by omega) stands
  have pass : RegionsPass s := ⟨.inr (by omega), .inr destination, .inr (.inr (by omega))⟩
  have table : headerTableEnd s ≤ s.regs.len.toNat := by
    rw [stream.tableEnd_eq]
    omega
  have header : glazeHeader s = .ok (headerCursors s) :=
    glazeHeader_of_valid table (stream.outLen_eq.trans_le capacity)
  have ahead := literalsAhead_of_stream stream table (by omega)
  rw [literalBits_eq] at ahead
  have total := (Nat.add_sub_of_le (blockSizes_sum_le input.length input.length)).symm
  have loops := glazeLoop_literals _ (blockSizes_bounds _ _) input _ total _ _ _ (Nat.lt_succ_self _) ahead rfl
  have outLen : (headerCursors s).outLen = input.length := stream.outLen_eq
  refine ⟨s.mem.writeBytes s.regs.dst.toNat input, ?_, fun k hk => Memory.read_writeBytes_inside _ _ _ _ wf hk,
    fun b hb => Memory.read_writeBytes_outside _ _ _ _ hb⟩
  rw [exec_unglaze_of_header pass header, outLen, loops, literalEnd, outLen]
  rfl

end Sys2Proof.Machine
end

section
/-! SUPPORT. The end of every command as the interrupt and the host see it (60_exceptions.md R282 to R284, R290, R293): a
completion or an error of a state with the flags, `ERRINFO` and the modes of the start, and, but for UNGLAZE, an error of
the start itself. -/

namespace Sys2Proof.Machine

/-! ## What no command writes before its end -/

/-- `u` has the flags, `ERRINFO` and the modes of `s`: so has every state a command, started in `s`, comes to before its
end. -/
structure SameFlags (s u : State) : Prop where
  status : u.regs.status = s.regs.status
  errInfo : u.regs.errInfo = s.regs.errInfo
  ctrl : u.regs.ctrl = s.regs.ctrl

theorem SameFlags.refl (s : State) : SameFlags s s := ⟨rfl, rfl, rfl⟩

/-! ## Commands that check before they write -/

/-- The errors that the commands but UNGLAZE raise (60_exceptions.md R285). -/
def checkErrors : List ErrorCode := [.cfg, .len, .mem, .csum]

theorem checkErrors_number {c : ErrorCode} (h : c ∈ checkErrors) : (errorNumber c).toNat ∈ [2, 3, 4, 6] := by
  fin_cases h <;> decide

/-- A command that started in `s` completes, or raises an error before it has written anything. -/
def CompletesOrRaisesFirst (s : State) (o : Outcome) : Prop :=
  (∃ u, SameFlags s u ∧ o = .next (completeCommand u))
    ∨ ∃ c ∈ checkErrors, ∃ info, o = .next (raiseError c info s)

namespace CompletesOrRaisesFirst
variable {s u : State}

theorem completed (same : SameFlags s u) : CompletesOrRaisesFirst s (.next (completeCommand u)) := .inl ⟨u, same, rfl⟩

theorem raised {c : ErrorCode} (named : c ∈ checkErrors) (info : Word) :
    CompletesOrRaisesFirst s (.next (raiseError c info s)) := .inr ⟨c, named, info, rfl⟩

theorem ite {p : Prop} [Decidable p] {o o' : Outcome} (h : CompletesOrRaisesFirst s o)
    (h' : CompletesOrRaisesFirst s o') : CompletesOrRaisesFirst s (if p then o else o') := by
  split
  · exact h
  · exact h'

/-- A command whose last check is that of its regions. -/
theorem afterCheck {regions : List (Word × Word)} (same : SameFlags s u) :
    CompletesOrRaisesFirst s (checkRegions regions s (.next (completeCommand u))) := by
  rcases checkRegions_cases regions s (.next (completeCommand u)) with ⟨passed, -⟩ | ⟨region, -, -, failed⟩
  · rw [passed]
    exact completed same
  · rw [failed]
    exact raised (by decide) _

end CompletesOrRaisesFirst

/-- Every command but UNGLAZE makes all its checks before it writes (60_exceptions.md R288). -/
theorem exec_completesOrRaisesFirst {i : Instr} (s : State) (hi : isCommand i = true) (notUnglaze : i ≠ .unglaze) :
    CompletesOrRaisesFirst s (exec i s) := by
  cases i with
  | nop => exact .completed (.refl s)
  | lcgNext15 => exact .completed ⟨rfl, rfl, rfl⟩
  | lcgNext16 => exact .completed ⟨rfl, rfl, rfl⟩
  | bitperm dir => exact .ite (.afterCheck ⟨rfl, rfl, rfl⟩) (.raised (by decide) _)
  | fence dir xf =>
    exact .ite (.raised (by decide) _) (.ite (.raised (by decide) _) (.afterCheck ⟨rfl, rfl, rfl⟩))
  | rotxor => exact .afterCheck ⟨rfl, rfl, rfl⟩
  | csum => exact .ite (.raised (by decide) _) (.afterCheck ⟨rfl, rfl, rfl⟩)
  | adler32 => exact .afterCheck ⟨rfl, rfl, rfl⟩
  | check cSum cXor cAdl => exact .ite (.completed (.refl s)) (.raised (by decide) _)
  | unglaze => exact absurd rfl notUnglaze
  | lit | ref1 _ | ref _ _ | refd _ | refw _ _ | lits _ | litl => cases hi

/-- Settles O44: such a command completes without an error, or raises before it writes. -/
theorem failedCommandsChangeNothingElse : Obligations.FailedCommandsChangeNothingElse := by
  intro i s t hi notUnglaze noErr ran err
  rcases exec_completesOrRaisesFirst s hi notUnglaze with ⟨u, same, ends⟩ | ⟨c, named, info, ends⟩
  · cases ends.symm.trans ran
    have kept : u.regs.status.err = false := same.status ▸ noErr
    exact absurd (kept.symm.trans err) Bool.false_ne_true
  · cases ends.symm.trans ran
    refine ⟨_, checkErrors_number named, ?_⟩
    rw [BitVec.ofNat_toNat, BitVec.setWidth_eq]
    exact ends

/-! ## Every command -/

/-- `t` is the completion or an error of a state with the flags of `s`. -/
def EndsWithFlagsOf (s t : State) : Prop :=
  ∃ u, SameFlags s u ∧ (t = completeCommand u ∨ ∃ c info, t = raiseError c info u)

/-- Before its end UNGLAZE writes memory and its two result registers at most (45_glaze.md R250), so that its flags are
still those of the start. -/
theorem execUnglaze_endsWithFlags (s : State) : ∃ t, execUnglaze s = .next t ∧ EndsWithFlagsOf s t := by
  rcases execUnglaze_cases s with
    ⟨c, info, -, refusedEarly⟩ | ⟨outLen, info, -, badHeader⟩ | ⟨g, t, m, pos, -, -, -, looped, ended⟩
  · exact ⟨_, refusedEarly, s, .refl s, .inr ⟨c, info, rfl⟩⟩
  · exact ⟨_, badHeader, glazeResults outLen 0 s, ⟨rfl, rfl, rfl⟩, .inr ⟨_, _, rfl⟩⟩
  · refine ⟨t, looped, glazeResults g.outLen pos { s with mem := m, glaze := some g }, ⟨rfl, rfl, rfl⟩, ?_⟩
    rcases ended.ends with ⟨completed, -⟩ | ⟨c, -, raised⟩
    · exact .inl completed
    · exact .inr ⟨c, _, raised⟩

theorem exec_endsWithFlags {i : Instr} (s : State) (hi : isCommand i = true) :
    ∃ t, exec i s = .next t ∧ EndsWithFlagsOf s t := by
  by_cases isUnglaze : i = .unglaze
  · subst isUnglaze
    exact execUnglaze_endsWithFlags s
  · rcases exec_completesOrRaisesFirst s hi isUnglaze with ⟨u, same, ends⟩ | ⟨c, -, info, ends⟩
    · exact ⟨_, ends, u, same, .inl rfl⟩
    · exact ⟨_, ends, s, .refl s, .inr ⟨c, info, rfl⟩⟩

/-- Settles O41: a completion keeps `ERRINFO` and the code 0 of the start, and an error is no success. -/
theorem everyCommandEnds : Obligations.EveryCommandEnds := by
  rintro i s hi ⟨-, -, -, noCode, -⟩
  obtain ⟨t, ends, u, ⟨status, errInfo, -⟩, ended⟩ := exec_endsWithFlags s hi
  have cmdOvr : u.regs.status.cmdOvr = s.regs.status.cmdOvr := congrArg Status.cmdOvr status
  have wrBusy : u.regs.status.wrBusy = s.regs.status.wrBusy := congrArg Status.wrBusy status
  have code : u.regs.status.errCode = 0 := (congrArg Status.errCode status).trans noCode
  rcases ended with rfl | ⟨c, info, rfl⟩
  · exact ⟨_, ends, rfl, rfl, rfl, cmdOvr, wrBusy, fun _ => ⟨errInfo, code⟩⟩
  · exact ⟨_, ends, rfl, rfl, rfl, cmdOvr, wrBusy, nofun⟩

/-! ## The interrupt level (60_exceptions.md R290, R291) -/

/-- Once `DONE` is set, `IRQ` is `IE_DONE`, or with an error also `IE_ERR`. -/
theorem irq_of_done {r : Regs} (done : r.status.done = true) :
    irq r = (r.ctrl.ieDone || (r.status.err && r.ctrl.ieErr)) := by
  rw [irq, done, Bool.true_and]

/-- With neither `DONE` nor `ERR` set, `IRQ` is deasserted. -/
theorem irq_of_no_flags {r : Regs} (notDone : r.status.done = false) (noErr : r.status.err = false) : irq r = false := by
  rw [irq, notDone, noErr, Bool.false_and, Bool.false_and, Bool.or_false]

theorem EndsWithFlagsOf.done_and_ctrl {s t : State} (ended : EndsWithFlagsOf s t) :
    t.regs.status.done = true ∧ t.regs.ctrl = s.regs.ctrl := by
  obtain ⟨u, same, rfl | ⟨c, info, rfl⟩⟩ := ended <;> exact ⟨rfl, same.ctrl⟩

/-- Settles O56: a command ends with `DONE` and the modes it started with, and its acceptance clears both flags. -/
theorem interruptFollowsCompletionAndError : Obligations.InterruptFollowsCompletionAndError := by
  refine ⟨fun i s t hi _ ran => ?_, fun v s => irq_of_no_flags rfl rfl⟩
  obtain ⟨u, ends, ended⟩ := exec_endsWithFlags s hi
  cases ends.symm.trans ran
  obtain ⟨done, ctrl⟩ := ended.done_and_ctrl
  rw [irq_of_done done, ctrl]

end Sys2Proof.Machine
end

section
/-! SUPPORT. Reset, power-on and the end of a spoiled command (70_reset_and_hazards.md R320 to R323, R331): what the
host's write leaves to the command it spoils, what the reset values of the registers do to the commands, and what
becomes of memory. -/

namespace Sys2Proof.Machine

/-! ## The end of a spoiled command (70_reset_and_hazards.md R331) -/

section Spoiled
variable {s t : State} {i : Instr}

theorem runningCommand_of_decodes (busy : s.regs.status.busy = true) (decoded : decodeCommand s.regs.cmd = .ok i) :
    runningCommand s = some i := by
  rw [runningCommand, if_pos busy, decoded]
  rfl

theorem runningRegions_of_running (running : runningCommand s = some i) : runningRegions s = regionsOf i s.regs := by
  rw [runningRegions, running]

/-- The end of a spoiled command that has ended frees its region bytes and results, and loses its mark. -/
theorem endSpoiled_of_ended (running : runningCommand s = some i) (idle : t.regs.status.busy = false) :
    endSpoiled s t = (freeRegisters (resultRegisters i) (freeRegions (regionsOf i s.regs) t)).withSpoiled false := by
  rw [endSpoiled, if_neg (Bool.eq_false_iff.1 idle), runningRegions_of_running running, running]
  rfl

theorem CommandEnded.done {written : List (Word × Word)} (ended : CommandEnded written s t) :
    t.regs.status.done = true := by
  rcases ended.status with status | ⟨c, status⟩ <;> rw [status] <;> rfl

/-- The step of a spoiled command is the command run on free region bytes, and then its end (log 11). -/
theorem step_of_spoiled (turn : s.agenda = []) (spoiled : s.spoiled = true) (noDecode : s.glaze = none)
    (busy : s.regs.status.busy = true) (decoded : decodeCommand s.regs.cmd = .ok i) (stepped : step s = .next t) :
    ∃ u, exec i (freeRegions (regionsOf i s.regs) s) = .next u
      ∧ t = (freeRegisters (resultRegisters i) (freeRegions (regionsOf i s.regs) u)).withSpoiled false := by
  have running := runningCommand_of_decodes busy decoded
  rw [step_of_agenda_nil turn] at stepped
  rcases engineMove_cases stepped with ⟨unspoiled, -⟩ | ⟨-, u, ran, rfl⟩
  · exact absurd (unspoiled.symm.trans spoiled) Bool.false_ne_true
  · rw [runningRegions_of_running running] at ran
    obtain ⟨-, regs, glaze, -⟩ := freeRegions_frame (regionsOf i s.regs) s
    rw [engineTurn_of_decodes (glaze.trans noDecode) (regs.symm ▸ busy) (regs.symm ▸ decoded)] at ran
    exact ⟨u, ran, endSpoiled_of_ended running (exec_commandEnded (decodeCommand_isCommand decoded) ran).idle⟩

end Spoiled

/-- Settles O54: the bytes freed before and after the command are those of its regions, and the registers freed are its
results; all else is as the command itself leaves it. -/
theorem spoiledCommandsTouchOnlyTheirRegions : Obligations.SpoiledCommandsTouchOnlyTheirRegions := by
  intro s t i turn spoiled noDecode busy decoded stepped
  obtain ⟨u, ran, rfl⟩ := step_of_spoiled turn spoiled noDecode busy decoded stepped
  have command := decodeCommand_isCommand decoded
  have ended := exec_commandEnded command ran
  obtain ⟨-, before, -⟩ := freeRegions_frame (regionsOf i s.regs) s
  obtain ⟨-, after, -⟩ := freeRegions_frame (regionsOf i s.regs) u
  obtain ⟨-, mem, -⟩ := freeRegisters_frame (resultRegisters i) (freeRegions (regionsOf i s.regs) u)
  have status : (freeRegisters (resultRegisters i) (freeRegions (regionsOf i s.regs) u)).regs.status = u.regs.status :=
    (freeRegisters_status _ _ (status_not_result i)).trans (congrArg Regs.status after)
  refine ⟨fun a outside => ?_, fun name notResult notStatus notErrInfo => ?_, rfl, ?_, ?_⟩
  · calc
      _ = (freeRegions (regionsOf i s.regs) u).mem.read a :=
        congrArg (Memory.read · a) mem
      _ = u.mem.read a := freeRegions_outside _ u a outside
      _ = (freeRegions (regionsOf i s.regs) s).mem.read a :=
        (commandsStayInTheirRegions i _ u command ran).1 a (before.symm ▸ outside)
      _ = s.mem.read a := freeRegions_outside _ s a outside
  · calc
      _ = readRegister (freeRegions (regionsOf i s.regs) u).regs name := readRegister_freeRegisters _ _ name notResult
      _ = readRegister u.regs name := by rw [after]
      _ = readRegister (freeRegions (regionsOf i s.regs) s).regs name :=
        commandsWriteOnlyTheirResults i _ u name ran notResult notStatus notErrInfo
      _ = readRegister s.regs name := by rw [before]
  · exact (congrArg Status.busy status).trans ended.idle
  · exact (congrArg Status.done status).trans ended.done

/-! ## The reset values of the registers (70_reset_and_hazards.md R320) -/

theorem ctrlWord_reset : ctrlWord Ctrl.reset = 0 := by decide

theorem statusWord_reset : statusWord Status.reset = 0 := by decide

/-- `CTRL` and `STATUS` read as their fields put together, every other register as the value it stores. -/
theorem readRegister_reset (p : Params) (name : RegName) :
    readRegister (Regs.reset p.lcgIncReset) name = resetValue p name := by
  cases name
  case ctrl => exact ctrlWord_reset
  case status => exact statusWord_reset
  all_goals rfl

theorem irq_reset (inc : Word) : irq (Regs.reset inc) = false := irq_of_no_flags rfl rfl

section ResetRegisters
variable {t : State} {inc : Word}

/-- `LCG_MUL` is 0, so that an unseeded generator forgets its accumulator. -/
theorem lcgStep_of_reset (reset : t.regs = Regs.reset inc) (acc : Word) :
    lcgStep t.regs.lcgMul t.regs.lcgInc acc = t.regs.lcgInc := by
  have unseeded : t.regs.lcgMul = 0 := congrArg Regs.lcgMul reset
  simp [lcgStep, unseeded]

/-- `CHUNK` is 0, which is no power of two. -/
theorem exec_bitperm_of_reset (reset : t.regs = Regs.reset inc) (dir : Direction) :
    exec (.bitperm dir) t = failsWith t 2 0 := by
  have chunk : t.regs.chunk = 0 := congrArg Regs.chunk reset
  have illegal : ¬∃ k, t.regs.chunk.toNat = 2 ^ k ∧ 2 ^ k ≤ t.impl.bpMaxChunk := by
    rintro ⟨k, power, -⟩
    rw [chunk] at power
    exact absurd power.symm (Nat.two_pow_pos k).ne'
  rw [bitpermRejectsIllegalChunk t dir illegal, chunk]

/-- `FENCE` is 0, which FENCE rejects before any other check. -/
theorem exec_fence_of_reset (reset : t.regs = Regs.reset inc) (dir : Direction) (xf : Bool) :
    exec (.fence dir xf) t = failsWith t 2 0 :=
  (fenceChecksInOrder t dir xf).1 (congrArg Regs.fence reset)

end ResetRegisters

/-! ## The reset input (70_reset_and_hazards.md R320 to R322) -/

theorem resetBlock_regs (s : State) : (resetBlock s).regs = Regs.reset s.impl.lcgIncReset := by
  obtain ⟨impl, -⟩ := freeRegions_frame (runningRegions s) s
  rw [resetBlock, impl]

/-- With no command to abandon, no byte is freed. -/
theorem resetBlock_mem_of_idle {s : State} (idle : s.regs.status.busy = false) : (resetBlock s).mem = s.mem := by
  have noRegions : runningRegions s = [] := by rw [runningRegions, runningCommand_of_idle idle]
  rw [resetBlock, noRegions, freeRegions]

/-- Settles O55: the registers of the reset block are the reset values, and its memory is changed only where the regions
of the abandoned command are freed. -/
theorem resetRestoresTheRegisters : Obligations.ResetRestoresTheRegisters := by
  refine ⟨readRegister_reset State.reset.impl, fun s rest turn => ?_⟩
  have regs := resetBlock_regs (s.withAgenda rest)
  refine ⟨resetBlock (s.withAgenda rest), step_of_agenda_host turn, fun name => ?_, ?_, rfl, ?_,
    (resetBlock_sameImplAndAgenda _).agenda, fun a outside => ?_, fun idle => ?_, lcgStep_of_reset regs,
    exec_bitperm_of_reset regs, exec_fence_of_reset regs⟩
  · rw [regs]
    exact readRegister_reset s.impl name
  · rw [regs]
    rfl
  · rw [regs]
    exact irq_reset _
  · exact freeRegions_outside (runningRegions s) (s.withAgenda rest) a outside
  · exact resetBlock_mem_of_idle (s := s.withAgenda rest) idle

/-! ## Power-on (70_reset_and_hazards.md R321) -/

theorem Memory.nil_wf : Memory.wf [] := ⟨List.Pairwise.nil, fun _ listed => nomatch listed⟩

theorem Memory.nil_below (size : Nat) : Memory.below [] size := fun _ listed => nomatch listed

/-- The bytes that become unspecified are the next of the free bytes, in their order. -/
theorem freeBytesAt_inside {s : State} {a n k : Nat} (canonical : s.mem.wf) (hk : k < n)
    (inside : a + k < s.impl.bufSize) : (freeBytesAt a n s).mem.read (a + k) = Config.freeByte (s.freeCount + k) :=
  fillFree_inside _ s.freeCount a s.mem k (by omega) canonical

theorem powerOnBlock_mem_read (s : State) {a : Nat} (ha : a < s.impl.bufSize) :
    (powerOnBlock s).mem.read a = Config.freeByte (s.freeCount + a) := by
  have freed := freeBytesAt_inside (s := { s with mem := [] }) (a := 0) Memory.nil_wf ha ((Nat.zero_add a).trans_lt ha)
  rwa [Nat.zero_add] at freed

theorem powerOnBlock_freeCount (s : State) : (powerOnBlock s).freeCount = s.freeCount + s.impl.bufSize :=
  congrArg (s.freeCount + ·) (Nat.min_self s.impl.bufSize)

/-- Settles O57: the reset state has the reset values over an empty memory, and power-on has them over free
bytes. -/
theorem resetStateIsSound : Obligations.ResetStateIsSound := by
  refine ⟨sound_of_reset_registers (s := State.reset) Memory.nil_wf (Memory.nil_below _), fun s rest turn => ?_⟩
  refine ⟨powerOnBlock (s.withAgenda rest), step_of_agenda_host turn, powerOnBlock_sound _, readRegister_reset s.impl,
    rfl, irq_reset _, rfl, fun a ha => powerOnBlock_mem_read (s.withAgenda rest) ha,
    powerOnBlock_freeCount (s.withAgenda rest), rfl, rfl, rfl⟩

end Sys2Proof.Machine
end
